-- ==== Sys2Proof/Word.lean ====
section
/-! DEFINITION. The block's fixed widths (spec 00_scope.md R10, R12): the byte, the 32-bit register word and the
16-bit pulse width, and the byte lists the formats are made of. -/

namespace Sys2Proof

/-- A byte: frame bytes, pin numbers, actuator indices, raw values, outcome codes (R10). -/
abbrev Byte := BitVec 8

/-- A 32-bit register word (R10, R41). -/
abbrev Word := BitVec 32

/-- A 16-bit unsigned pulse width or calibration bound, in microseconds (R10). -/
abbrev Pulse := BitVec 16

/-- The bytes of `buf` at offsets `a` up to but not including `b`: the spec's `buf[a..b)` (R12). -/
def slice (a b : Nat) (buf : List Byte) : List Byte :=
  (buf.take b).drop a

end Sys2Proof
end

