-- ==== Sys2Proof/Config.lean ====
section
/-! DEFINITION. The implementation parameters of spec 00_scope.md R9, as one record of plain data that a run never
changes, and the draws of R13 (92 D2): values the spec leaves free, as constants without a body. -/

namespace Sys2Proof

/-- `MAP_POLICY` (R9, R26, R100). -/
inductive MapPolicy where
  | perActuator
  | universal
  deriving DecidableEq, Repr

/-- `MAP_ROUND` (R9, R101): the spec gives it one legal value. -/
inductive Rounding where
  | floor
  deriving DecidableEq, Repr

/-- `BUS_SEL` (R9, R28): the active command bus. -/
inductive BusSel where
  | serial
  | i2c
  deriving DecidableEq, Repr

/-- `RX_OVERFLOW_POLICY` (R9, R117): what a byte arriving at a full FIFO does. -/
inductive OverflowPolicy where
  | dropNew
  | holdMaster
  deriving DecidableEq, Repr

/-- `I2C_PAIR_POLICY` (R9, R88): how a drained byte sequence becomes commands. -/
inductive PairPolicy where
  | exact2
  | first2
  | pairs
  deriving DecidableEq, Repr

/-- A calibration range `(min, max)` (R25). Its invariant `min < max` is `Range.wf`, kept by every step. -/
structure Range where
  min : Pulse
  max : Pulse
  deriving DecidableEq, Repr

/-- The invariant of a calibration range: `min_pulse < max_pulse` (R11, R25). -/
def Range.wf (r : Range) : Bool :=
  decide (r.min.toNat < r.max.toNat)

/-- The parameters of R9, one field a row. `L` is `calTable.length`. -/
structure Config where
  /-- `N_ACT`, the actuator count. -/
  nAct : Nat
  /-- `REF_INDEX`, the reference actuator of calibration writes. -/
  refIndex : Nat
  /-- `CAL_TABLE`, the static calibration table; its length is the spec's `L`. -/
  calTable : List Range
  /-- `MAP_POLICY`. -/
  mapPolicy : MapPolicy
  /-- `UMIN`, the lower bound of the universal range. -/
  umin : Pulse
  /-- `UMAX`, the upper bound of the universal range. -/
  umax : Pulse
  /-- `MAP_ROUND`. -/
  mapRound : Rounding
  /-- `BUS_SEL`. -/
  busSel : BusSel
  /-- `CAL_SELECT`, the boot-time calibration-mode select. -/
  calSelect : Bool
  /-- `RX_FIFO_DEPTH`, the receive FIFO's capacity in bytes. -/
  rxFifoDepth : Nat
  /-- `RX_OVERFLOW_POLICY`. -/
  rxOverflow : OverflowPolicy
  /-- `RX_FLUSH_ON_DISABLE`. -/
  rxFlushOnDisable : Bool
  /-- `I2C_PAIR_POLICY`. -/
  pairPolicy : PairPolicy
  /-- `NPIN`, the number of selectable pins. -/
  nPin : Nat
  /-- `SDA_PINS`, the pins that may carry SDA. -/
  sdaPins : List Byte
  /-- `SCL_PINS`, the pins that may carry SCL. -/
  sclPins : List Byte
  /-- `ISC_BASE`: no rule depends on it (R46). -/
  iscBase : Nat
  deriving DecidableEq, Repr

/-- The pins 0 to 15, the pin sets of the vectors' configuration (95_test_vectors.md). -/
def Config.pins16 : List Byte :=
  (List.range 16).map (BitVec.ofNat 8)

/-- The configuration of `State.reset`: the default of 95_test_vectors.md, with the examples of R9 where that file
names no value. DESIGN CHOICE (log entry 1): the spec leaves every parameter to the implementation. -/
def Config.bench : Config where
  nAct := 12
  refIndex := 0
  calTable := List.replicate 12 ⟨1000, 2000⟩
  mapPolicy := .perActuator
  umin := 1000
  umax := 2000
  mapRound := .floor
  busSel := .serial
  calSelect := false
  rxFifoDepth := 4
  rxOverflow := .dropNew
  rxFlushOnDisable := false
  pairPolicy := .exact2
  nPin := 16
  sdaPins := Config.pins16
  sclPins := Config.pins16
  iscBase := 0

/-- The draw of R117: whether a byte that arrives while `TX_ABRT = 1` is lost. No body: a claim holds for every
value. Log entry 3. -/
opaque Config.drawByteLost : Nat → Bool

/-- The draw of R73 for bits [31:8] of an `IC_DATA_CMD` read that pops a byte. Log entry 3. -/
opaque Config.drawDataUpper : Nat → BitVec 24

/-- The draw of R73 for an `IC_DATA_CMD` read with the receive FIFO empty. Log entry 3. -/
opaque Config.drawEmptyRead : Nat → Word

end Sys2Proof
end

