-- ==== Sys2Proof/Syntax.lean ====
section
/-! DEFINITION. The instructions: one constructor for each of the 21 rows of spec/opcode_table.json, with typed
operands (spec 30_encoding.md R54 to R60), the three formats, and which agent an operation belongs to (R18, R60). -/

namespace Sys2Proof

/-- The six reserved bytes of a frame, offsets 7 to 12: opaque, never checked (R54, R96). -/
structure Rsv where
  b7 : Byte
  b8 : Byte
  b9 : Byte
  b10 : Byte
  b11 : Byte
  b12 : Byte
  deriving DecidableEq, Repr

/-- The answer of one serial read (R122): `Ok(buf)` with a byte list of any length, or `Err`. -/
inductive SerialAnswer where
  | ok (buf : List Byte)
  | err
  deriving DecidableEq, Repr

/-- The direction bit of a bus address byte (R59): 0 the master writes, 1 the master reads. -/
inductive Dir where
  | write
  | read
  deriving DecidableEq, Repr, Inhabited

/-- The seven registers of the ISC window, in offset order (R68). -/
inductive Reg where
  | icEnable
  | icSaddr
  | icStatus
  | icDataCmd
  | icClrTxAbrt
  | ioSdaSel
  | ioSclSel
  deriving DecidableEq, Repr

/-- One encoded operation, frame or pair: one constructor per row of spec/opcode_table.json. -/
inductive Instr where
  /-- `FRAME_ACTUATOR_CMD`: the 16-byte serial frame (R54, R98). -/
  | frameActuatorCmd (rsv : Rsv) (index value : Byte)
  /-- `I2C_PAIR`: the 2-byte I2C payload (R57, R88). -/
  | i2cPair (index value : Byte)
  /-- `DECODE n, b[0..n-1]` (R98). -/
  | decode (buf : List Byte)
  /-- `RD off` (R79). -/
  | rd (off : Byte)
  /-- `WR off, v` (R80). -/
  | wr (off : Byte) (v : Word)
  /-- `SET off, m` (R81). -/
  | setBits (off : Byte) (m : Word)
  /-- `CLR off, m` (R82). -/
  | clrBits (off : Byte) (m : Word)
  /-- `TGL off, m` (R83). -/
  | tglBits (off : Byte) (m : Word)
  /-- `CONFIGURE addr, sda, scl` (R84). -/
  | configure (addr sda scl : Byte)
  /-- `HAS_DATA` (R85). -/
  | hasData
  /-- `DRAIN` (R86). -/
  | drain
  /-- `ACK_ABORT` (R87). -/
  | ackAbort
  /-- `MAP idx, raw` (R104). -/
  | mapRaw (idx raw : Byte)
  /-- `CAL_WR idx, min, max` (R105). -/
  | calWr (idx : Byte) (min max : Pulse)
  /-- `CAL_RD idx` (R106). -/
  | calRd (idx : Byte)
  /-- `SERIAL_STEP st [, n, b[0..n-1]]` (R111). -/
  | serialStep (answer : SerialAnswer)
  /-- `I2C_STEP f` (R112): `f` is the environment's I2C-fault draw. -/
  | i2cStep (f : Bool)
  /-- `BUS_START a` (R116), with `a` split into the 7-bit address and the direction. -/
  | busStart (addr : BitVec 7) (dir : Dir)
  /-- `BUS_BYTE b` (R117). -/
  | busByte (b : Byte)
  /-- `BUS_STOP` (R118). -/
  | busStop
  /-- `BUS_TX_ABORT` (R119). -/
  | busTxAbort
  deriving DecidableEq, Repr

/-- The three formats the block reads (30_encoding.md §1 to §3). Which one a word is in is known from where it
arrives: the serial link, a completed drain, or the operation port. -/
inductive Format where
  | frame16
  | pair2
  | op
  deriving DecidableEq, Repr

/-- The format an instruction is encoded in (the table's `format` column). -/
def Instr.format : Instr → Format
  | .frameActuatorCmd _ _ _ => .frame16
  | .i2cPair _ _ => .pair2
  | .decode _ => .op
  | .rd _ => .op
  | .wr _ _ => .op
  | .setBits _ _ => .op
  | .clrBits _ _ => .op
  | .tglBits _ _ => .op
  | .configure _ _ _ => .op
  | .hasData => .op
  | .drain => .op
  | .ackAbort => .op
  | .mapRaw _ _ => .op
  | .calWr _ _ _ => .op
  | .calRd _ => .op
  | .serialStep _ => .op
  | .i2cStep _ => .op
  | .busStart _ _ => .op
  | .busByte _ => .op
  | .busStop => .op
  | .busTxAbort => .op

/-- The agents that take steps (R18). SERIAL takes none: its answers are operands of `SERIAL_STEP`. -/
inductive Agent where
  | host
  | master
  deriving DecidableEq, Repr, Inhabited

/-- The steps of the MASTER agent (45_bus_events.md §1). -/
inductive BusEvent where
  | start (addr : BitVec 7) (dir : Dir)
  | byte (b : Byte)
  | stop
  | txAbort
  deriving DecidableEq, Repr, Inhabited

/-- The environment's free choice of which agent steps (R18, R48), where a state leaves it open. No body: a claim holds
for every sequence of choices. Log entry 6. -/
opaque Config.freeTurn : Nat → Agent

/-- The MASTER's free choice of its steps (R121), where a state leaves them open. Log entry 6. -/
opaque Config.freeEvent : Nat → BusEvent

/-- The operation that performs a bus event. -/
def BusEvent.toInstr : BusEvent → Instr
  | .start addr dir => .busStart addr dir
  | .byte b => .busByte b
  | .stop => .busStop
  | .txAbort => .busTxAbort

/-- The bus event an operation performs; none for an operation of the HOST (the table's `agent` column, R60). -/
def Instr.busEvent : Instr → Option BusEvent
  | .busStart addr dir => some (.start addr dir)
  | .busByte b => some (.byte b)
  | .busStop => some .stop
  | .busTxAbort => some .txAbort
  | .frameActuatorCmd _ _ _ => none
  | .i2cPair _ _ => none
  | .decode _ => none
  | .rd _ => none
  | .wr _ _ => none
  | .setBits _ _ => none
  | .clrBits _ _ => none
  | .tglBits _ _ => none
  | .configure _ _ _ => none
  | .hasData => none
  | .drain => none
  | .ackAbort => none
  | .mapRaw _ _ => none
  | .calWr _ _ _ => none
  | .calRd _ => none
  | .serialStep _ => none
  | .i2cStep _ => none

/-- The agent an operation belongs to (R18, R60). -/
def Instr.agent (i : Instr) : Agent :=
  match i.busEvent with
  | some _ => .master
  | none => .host

end Sys2Proof
end

