-- ==== Sys2Proof/WellFormed.lean ====
section
/-! DEFINITION. What an instruction must meet to be encodable on the operation port (spec 30_encoding.md R59, R62),
and what a configuration must meet to be run (00_scope.md R9, R11). -/

namespace Sys2Proof

/-- The instruction has an encoding: a byte count fits its one byte (R59), and a configured address has bit 7 clear
(R62). Every other operand has the width of its field by its type. -/
def Instr.wellFormed : Instr → Bool
  | .frameActuatorCmd _ _ _ => true
  | .i2cPair _ _ => true
  | .decode buf => decide (buf.length ≤ 255)
  | .rd _ => true
  | .wr _ _ => true
  | .setBits _ _ => true
  | .clrBits _ _ => true
  | .tglBits _ _ => true
  | .configure addr _ _ => decide (addr.toNat ≤ 0x7F)
  | .hasData => true
  | .drain => true
  | .ackAbort => true
  | .mapRaw _ _ => true
  | .calWr _ _ _ => true
  | .calRd _ => true
  | .serialStep (.ok buf) => decide (buf.length ≤ 255)
  | .serialStep .err => true
  | .i2cStep _ => true
  | .busStart _ _ => true
  | .busByte _ => true
  | .busStop => true
  | .busTxAbort => true

/-- A configuration is well formed: the five conditions of R11, and the ranges R9 calls legal for `N_ACT` and `NPIN`
(log entry 2). `L ≠ N_ACT` does not make it ill-formed (R11): that is the run-time fatal condition of R139. -/
def Config.wf (c : Config) : Bool :=
  c.calTable.all Range.wf
    && decide (c.umin.toNat < c.umax.toNat)
    && decide (c.refIndex < c.nAct)
    && decide (2 ≤ c.rxFifoDepth)
    && c.sdaPins.all (fun p => decide (p.toNat < c.nPin))
    && c.sclPins.all (fun p => decide (p.toNat < c.nPin))
    && decide (1 ≤ c.nAct)
    && decide (c.nAct ≤ 256)
    && decide (1 ≤ c.nPin)
    && decide (c.nPin ≤ 256)

end Sys2Proof
end

