-- ==== Sys2Proof/Decode.lean ====
section
/-! DEFINITION. Decoding: a total function on any bytes of each of the three formats (spec 30_encoding.md), rejecting
by name, and after it the encoder, written from the same tables. -/

namespace Sys2Proof

/-- The 19 operations of the operation port's opcode map (R60). -/
inductive Opcode where
  | decode
  | rd
  | wr
  | setBits
  | clrBits
  | tglBits
  | configure
  | hasData
  | drain
  | ackAbort
  | mapRaw
  | calWr
  | calRd
  | serialStep
  | i2cStep
  | busStart
  | busByte
  | busStop
  | busTxAbort
  deriving DecidableEq, Repr

/-- Why bytes are no instruction. `noBytes`: no operation has been issued. `badOpcode`: a reserved opcode (R61).
`badOperand`: a malformed operation (R62). `notAFrame`: the fixed fields or the length of R55 fail. `notAPair`: not
two bytes (R57). -/
inductive Reject where
  | noBytes
  | badOpcode
  | badOperand
  | notAFrame
  | notAPair
  deriving DecidableEq, Repr

/-- What decoding bytes gives: an instruction and the bytes after it, or a rejection by name. -/
inductive Decoded where
  | ok (i : Instr) (rest : List Byte)
  | reject (r : Reject)
  deriving DecidableEq, Repr

/-- The opcode map of R60, from byte to operation; every other byte is reserved (R61). -/
def opcodeOf (opc : Byte) : Option Opcode :=
  if opc = 0x01 then some .decode
  else if opc = 0x10 then some .rd
  else if opc = 0x11 then some .wr
  else if opc = 0x12 then some .setBits
  else if opc = 0x13 then some .clrBits
  else if opc = 0x14 then some .tglBits
  else if opc = 0x20 then some .configure
  else if opc = 0x21 then some .hasData
  else if opc = 0x22 then some .drain
  else if opc = 0x23 then some .ackAbort
  else if opc = 0x30 then some .mapRaw
  else if opc = 0x31 then some .calWr
  else if opc = 0x32 then some .calRd
  else if opc = 0x40 then some .serialStep
  else if opc = 0x41 then some .i2cStep
  else if opc = 0x80 then some .busStart
  else if opc = 0x81 then some .busByte
  else if opc = 0x82 then some .busStop
  else if opc = 0x83 then some .busTxAbort
  else none

/-- Two bytes, least significant first (R59). -/
def pulseOfBytes (b0 b1 : Byte) : Pulse :=
  b1 ++ b0

/-- Four bytes, least significant first (R59). -/
def wordOfBytes (b0 b1 b2 b3 : Byte) : Word :=
  b3 ++ b2 ++ b1 ++ b0

/-- The direction bit `a[7]` of a bus address byte (R59). -/
def dirOfBit (d : Bool) : Dir :=
  if d then .read else .write

/-- An operation with one operand byte. -/
def decodeByte (k : Byte → Instr) : List Byte → Decoded
  | b :: rest => .ok (k b) rest
  | [] => .reject .badOperand

/-- An operation with a register offset and a 32-bit operand: `WR`, `SET`, `CLR`, `TGL`. -/
def decodeOffsetWord (k : Byte → Word → Instr) : List Byte → Decoded
  | off :: b0 :: b1 :: b2 :: b3 :: rest => .ok (k off (wordOfBytes b0 b1 b2 b3)) rest
  | _ => .reject .badOperand

/-- `addr, sda, scl`: an address with bit 7 set is malformed (R62). -/
def decodeConfigure : List Byte → Decoded
  | addr :: sda :: scl :: rest =>
    if addr.getLsbD 7 then .reject .badOperand else .ok (.configure addr sda scl) rest
  | _ => .reject .badOperand

/-- `idx, raw`. -/
def decodeMapRaw : List Byte → Decoded
  | idx :: raw :: rest => .ok (.mapRaw idx raw) rest
  | _ => .reject .badOperand

/-- `idx, min, max`. -/
def decodeCalWr : List Byte → Decoded
  | idx :: l0 :: l1 :: h0 :: h1 :: rest => .ok (.calWr idx (pulseOfBytes l0 l1) (pulseOfBytes h0 h1)) rest
  | _ => .reject .badOperand

/-- `n, b[0..n-1]` (R59): the byte count, then that many data bytes. -/
def decodeBuffer (k : List Byte → Instr) : List Byte → Decoded
  | n :: rest =>
    if n.toNat ≤ rest.length then .ok (k (rest.take n.toNat)) (rest.drop n.toNat) else .reject .badOperand
  | [] => .reject .badOperand

/-- `st`, and for `st = 0x00` the buffer (R60); any `st` but `0x00` and `0x01` is malformed (R62). -/
def decodeSerialStep : List Byte → Decoded
  | st :: rest =>
    if st = 0x00 then decodeBuffer (fun buf => .serialStep (.ok buf)) rest
    else if st = 0x01 then .ok (.serialStep .err) rest
    else .reject .badOperand
  | [] => .reject .badOperand

/-- `f`: any value but `0x00` and `0x01` is malformed (R62). -/
def decodeI2cStep : List Byte → Decoded
  | f :: rest =>
    if f = 0x00 then .ok (.i2cStep false) rest
    else if f = 0x01 then .ok (.i2cStep true) rest
    else .reject .badOperand
  | [] => .reject .badOperand

/-- The operands of an operation, by its opcode (R60). -/
def decodeOperands : Opcode → List Byte → Decoded
  | .decode, bs => decodeBuffer .decode bs
  | .rd, bs => decodeByte .rd bs
  | .wr, bs => decodeOffsetWord .wr bs
  | .setBits, bs => decodeOffsetWord .setBits bs
  | .clrBits, bs => decodeOffsetWord .clrBits bs
  | .tglBits, bs => decodeOffsetWord .tglBits bs
  | .configure, bs => decodeConfigure bs
  | .hasData, bs => .ok .hasData bs
  | .drain, bs => .ok .drain bs
  | .ackAbort, bs => .ok .ackAbort bs
  | .mapRaw, bs => decodeMapRaw bs
  | .calWr, bs => decodeCalWr bs
  | .calRd, bs => decodeByte .calRd bs
  | .serialStep, bs => decodeSerialStep bs
  | .i2cStep, bs => decodeI2cStep bs
  | .busStart, bs => decodeByte (fun a => .busStart (a.extractLsb' 0 7) (dirOfBit (a.getLsbD 7))) bs
  | .busByte, bs => decodeByte .busByte bs
  | .busStop, bs => .ok .busStop bs
  | .busTxAbort, bs => .ok .busTxAbort bs

/-- An operation of the operation port (R58): BAD_OPCODE before BAD_OPERAND (R128). -/
def decodeOp : List Byte → Decoded
  | [] => .reject .noBytes
  | opc :: bs =>
    match opcodeOf opc with
    | some o => decodeOperands o bs
    | none => .reject .badOpcode

/-- `MATCH` of R55. -/
def frameMatch : List Byte :=
  [0xFF, 0x04, 0x0C, 0x08, 0x0E, 0x05, 0x08, 0, 0, 0, 0, 0, 0, 0, 0, 0x0A]

/-- `MASK` of R55. -/
def frameMask : List Byte :=
  [0xFF, 0xFF, 0xFF, 0xFF, 0xFF, 0xFF, 0xFF, 0, 0, 0, 0, 0, 0, 0, 0, 0xFF]

/-- The fixed-field check of R55: exactly 16 bytes with `frame AND MASK = MATCH`. -/
def isFrame (bs : List Byte) : Bool :=
  decide (bs.length = 16) && decide (List.zipWith (fun b m => b &&& m) bs frameMask = frameMatch)

/-- The reserved bytes of a frame, offsets 7 to 12 (R54). -/
def rsvOf (bs : List Byte) : Rsv :=
  ⟨bs.getD 7 0, bs.getD 8 0, bs.getD 9 0, bs.getD 10 0, bs.getD 11 0, bs.getD 12 0⟩

/-- A serial frame (R54, R55): its operands are INDEX, byte 13, and VALUE, byte 14 (R56). -/
def decodeFrame (bs : List Byte) : Decoded :=
  if isFrame bs then .ok (.frameActuatorCmd (rsvOf bs) (bs.getD 13 0) (bs.getD 14 0)) [] else .reject .notAFrame

/-- An I2C pair (R57): byte 0 is INDEX and byte 1 is VALUE. -/
def decodePair : List Byte → Decoded
  | [index, value] => .ok (.i2cPair index value) []
  | _ => .reject .notAPair

/-- The decoder of each format. -/
def decode : Format → List Byte → Decoded
  | .frame16, bs => decodeFrame bs
  | .pair2, bs => decodePair bs
  | .op, bs => decodeOp bs

/-! The encoder. -/

/-- The opcode map of R60, from operation to byte. -/
def Opcode.code : Opcode → Byte
  | .decode => 0x01
  | .rd => 0x10
  | .wr => 0x11
  | .setBits => 0x12
  | .clrBits => 0x13
  | .tglBits => 0x14
  | .configure => 0x20
  | .hasData => 0x21
  | .drain => 0x22
  | .ackAbort => 0x23
  | .mapRaw => 0x30
  | .calWr => 0x31
  | .calRd => 0x32
  | .serialStep => 0x40
  | .i2cStep => 0x41
  | .busStart => 0x80
  | .busByte => 0x81
  | .busStop => 0x82
  | .busTxAbort => 0x83

/-- A 16-bit operand, least significant byte first (R59). -/
def bytesOfPulse (p : Pulse) : List Byte :=
  [p.extractLsb' 0 8, p.extractLsb' 8 8]

/-- A 32-bit operand, least significant byte first (R59). -/
def bytesOfWord (v : Word) : List Byte :=
  [v.extractLsb' 0 8, v.extractLsb' 8 8, v.extractLsb' 16 8, v.extractLsb' 24 8]

/-- A buffer operand: its length byte, then its bytes (R59). -/
def bytesOfBuffer (buf : List Byte) : List Byte :=
  BitVec.ofNat 8 buf.length :: buf

/-- The serial answer operand (R60). -/
def bytesOfAnswer : SerialAnswer → List Byte
  | .ok buf => 0x00 :: bytesOfBuffer buf
  | .err => [0x01]

/-- The bus address byte: the direction in bit 7, the address in bits 6 to 0 (R59). -/
def busAddressByte (addr : BitVec 7) : Dir → Byte
  | .write => 0#1 ++ addr
  | .read => 1#1 ++ addr

/-- The 16 bytes of a frame (R54). -/
def frameBytes (rsv : Rsv) (index value : Byte) : List Byte :=
  [0xFF, 0x04, 0x0C, 0x08, 0x0E, 0x05, 0x08, rsv.b7, rsv.b8, rsv.b9, rsv.b10, rsv.b11, rsv.b12, index, value, 0x0A]

/-- The bytes of an instruction in its format (R54, R57, R60). -/
def encode : Instr → List Byte
  | .frameActuatorCmd rsv index value => frameBytes rsv index value
  | .i2cPair index value => [index, value]
  | .decode buf => Opcode.decode.code :: bytesOfBuffer buf
  | .rd off => [Opcode.rd.code, off]
  | .wr off v => Opcode.wr.code :: off :: bytesOfWord v
  | .setBits off m => Opcode.setBits.code :: off :: bytesOfWord m
  | .clrBits off m => Opcode.clrBits.code :: off :: bytesOfWord m
  | .tglBits off m => Opcode.tglBits.code :: off :: bytesOfWord m
  | .configure addr sda scl => [Opcode.configure.code, addr, sda, scl]
  | .hasData => [Opcode.hasData.code]
  | .drain => [Opcode.drain.code]
  | .ackAbort => [Opcode.ackAbort.code]
  | .mapRaw idx raw => [Opcode.mapRaw.code, idx, raw]
  | .calWr idx min max => Opcode.calWr.code :: idx :: (bytesOfPulse min ++ bytesOfPulse max)
  | .calRd idx => [Opcode.calRd.code, idx]
  | .serialStep answer => Opcode.serialStep.code :: bytesOfAnswer answer
  | .i2cStep f => [Opcode.i2cStep.code, if f then 0x01 else 0x00]
  | .busStart addr dir => [Opcode.busStart.code, busAddressByte addr dir]
  | .busByte b => [Opcode.busByte.code, b]
  | .busStop => [Opcode.busStop.code]
  | .busTxAbort => [Opcode.busTxAbort.code]

/-- The length in bytes that R54, R57 and the `length` column of R60 give an instruction. -/
def Instr.size : Instr → Nat
  | .frameActuatorCmd _ _ _ => 16
  | .i2cPair _ _ => 2
  | .decode buf => 2 + buf.length
  | .rd _ => 2
  | .wr _ _ => 6
  | .setBits _ _ => 6
  | .clrBits _ _ => 6
  | .tglBits _ _ => 6
  | .configure _ _ _ => 4
  | .hasData => 1
  | .drain => 1
  | .ackAbort => 1
  | .mapRaw _ _ => 3
  | .calWr _ _ _ => 6
  | .calRd _ => 2
  | .serialStep (.ok buf) => 3 + buf.length
  | .serialStep .err => 2
  | .i2cStep _ => 2
  | .busStart _ _ => 2
  | .busByte _ => 2
  | .busStop => 1
  | .busTxAbort => 1

/-! Words numbered as spec/opcode_table.json numbers them. -/

/-- How many bytes a table word of `nbits` bits is laid out in, zero bits above `nbits`. A word of one byte leaves
every operand byte zero, so no operation needs more than 6 bytes (R60, `n = 0`); a longer word may give a byte count,
and the longest operation is SERIAL_STEP with 255 data bytes. -/
def laidOutBytes (nbits : Nat) : Nat :=
  if nbits ≤ 8 then 6 else max (nbits / 8) 258

/-- The bytes of `w`, bits 7 to 0 first. -/
def bytesOfNat : Nat → Nat → List Byte
  | 0, _ => []
  | n + 1, w => BitVec.ofNat 8 w :: bytesOfNat n (w / 256)

/-- The format of a table word, by the width its row has in the table: the OP rows fix 8 bits, the pair row 16, the
frame row 128. -/
def formatOfWidth (nbits : Nat) : Format :=
  if nbits = 128 then .frame16 else if nbits = 16 then .pair2 else .op

/-- The bytes of a table word. The frame row numbers its bits with byte 0 as the most significant byte of match and
mask (the row's own `source_fields`), so a 128-bit word is read in that order too: a frame starts with `0xFF` and ends
with `0x0A`, so at most one of the two orders is a frame. An operation is followed by the zero bytes the table gives no
bits. -/
def tableBytes (nbits w : Nat) : List Byte :=
  match formatOfWidth nbits with
  | .frame16 => if isFrame (bytesOfNat 16 w) then bytesOfNat 16 w else (bytesOfNat 16 w).reverse
  | .pair2 => bytesOfNat 2 w
  | .op => bytesOfNat (laidOutBytes nbits) w

/-- The bytes of a table word that its instruction takes up; for a word that decodes to none, its `nbits` bits. -/
def tableWordBytes (nbits w : Nat) : List Byte :=
  match decode (formatOfWidth nbits) (tableBytes nbits w) with
  | .ok _ rest => (tableBytes nbits w).take ((tableBytes nbits w).length - rest.length)
  | .reject _ => (tableBytes nbits w).take (nbits / 8)

/-- The instruction the decoder reads from a table word (the host's interface). -/
def decodeTableWord (nbits w : Nat) : Option Instr :=
  match decode (formatOfWidth nbits) (tableBytes nbits w) with
  | .ok i _ => some i
  | .reject _ => none

end Sys2Proof
end

