-- ==== Sys2Proof/Machine/State.lean ====
section
/-! DEFINITION. Everything the spec gives the machine, as plain data (spec 10_state.md, 40_i2c_registers.md R69), with
what the model adds to run it (the agents' pending inputs, the HOST's loop state, the value an operation returns, the
draw counter), the reasons a step can stop, and reset (R36, R138 to R141). -/

namespace Sys2Proof.Machine

/-- The kinds of a model fault (60_exceptions.md R126), in that table's order. A Fault is a state of the machine
(`State.fault`), taken by `raiseFault`. -/
inductive FaultKind where
  | badOpcode
  | badOperand
  | badOffset
  | access
  | reservedBits
  | writeWhileEnabled
  | disableDuringTransfer
  | unconfigured
  | configArg
  | configDuringTransfer
  | mode
  | busSel
  | mapIndex
  | calLocked
  | calInvalid
  | calIndex
  deriving DecidableEq, Repr

/-- `MODE` (R27). -/
inductive Mode where
  | serving
  | calibrating
  | fatal
  deriving DecidableEq, Repr

/-- `XFER`, the state of the bus transaction in progress (R21, R23). -/
inductive Xfer where
  | idle
  | wrMatched
  | rdMatched
  | other
  deriving DecidableEq, Repr

/-- `CFGD`, which of the three configuration registers were written since reset (R69). -/
structure Cfgd where
  saddr : Bool
  sda : Bool
  scl : Bool
  deriving DecidableEq, Repr

/-- Why the frame decoder rejects a buffer (R89). -/
inductive RejectReason where
  | sizeMismatch
  | badSentinel
  | badTerminator
  | badHeader
  | badCommand
  deriving DecidableEq, Repr

/-- The frame decoder's result (R89). -/
inductive FdResult where
  | accepted (index raw : Byte) (rsv : Rsv)
  | rejected (reason : RejectReason)
  deriving DecidableEq, Repr

/-- The mapper's result (R103, R104). -/
inductive MapResult where
  | pulse (p : Pulse)
  | noOp
  deriving DecidableEq, Repr

/-- An ActuatorCommand (R29). -/
structure Command where
  index : Byte
  raw : Byte
  deriving DecidableEq, Repr

/-- The value a HOST operation returns, which a claim may observe (R37). `none`: no operation has completed since
reset; `done`: the last one completed without a value. -/
inductive Returned where
  | none
  | done
  | word (v : Word)
  | flag (b : Bool)
  | bytes (bs : List Byte)
  | decoded (r : FdResult)
  | mapped (r : MapResult)
  | range (r : Range)
  | commands (cs : List Command)
  deriving DecidableEq, Repr

/-- Sub-steps 2 to 6 of CONFIGURE (R84), named by the register operation each performs. -/
inductive ConfigureStep where
  | clearSaddr
  | setSaddr
  | writeSda
  | writeScl
  | enable
  deriving DecidableEq, Repr

/-- The loop state of the HOST's multi-step operations (R20): what the HOST's next step continues. -/
inductive Progress where
  /-- No operation is in progress: the next HOST step begins one. -/
  | idle
  /-- CONFIGURE, with its next sub-step (R84). -/
  | configure (next : ConfigureStep) (addr sda scl : Byte)
  /-- DRAIN, with the bytes read so far (R86). -/
  | drain (result : List Byte)
  /-- The DRAIN inside I2C_STEP, with its fault draw and the bytes read so far (R112). -/
  | i2cDrain (f : Bool) (result : List Byte)
  /-- I2C_STEP after its DRAIN returned (R112). -/
  | i2cFinish (f : Bool) (seq : List Byte)
  deriving DecidableEq, Repr

/-- Bytes given to the block in one format: on the operation port a run of operations (R58), a serial frame, or a
drained byte sequence. -/
structure PortWord where
  format : Format
  bytes : List Byte
  deriving DecidableEq, Repr

/-- What follows a list of the environment's choices once it is used up (R48, R121): nothing more, a list over and over
without end, or free choices without end, the next one numbered. -/
inductive Endless (α : Type) where
  | none
  | again (l : List α)
  | free (n : Nat)
  deriving DecidableEq, Repr

/-- The machine. The names are the spec's. -/
structure State where
  /-- The parameters of R9, fixed for the run. -/
  cfg : Config
  /-- `EN`, 1 bit (R21). -/
  en : Bool
  /-- `SADDR`, 10 bits (R21). -/
  saddr : BitVec 10
  /-- `SDA_SEL`, 8 bits (R21). -/
  sdaSel : Byte
  /-- `SCL_SEL`, 8 bits (R21). -/
  sclSel : Byte
  /-- `RXF`, the receive FIFO, oldest byte first (R21, R22). -/
  rxf : List Byte
  /-- `TX_ABRT`, 1 bit (R21). -/
  txAbrt : Bool
  /-- `XFER` (R21, R23). -/
  xfer : Xfer
  /-- `CFGD` (R69). -/
  cfgd : Cfgd
  /-- `CT`, the calibration table (R25). -/
  ct : List Range
  /-- `MODE` (R27). -/
  mode : Mode
  /-- `LAST_OUTCOME`, 8 bits (R30). -/
  lastOutcome : Byte
  /-- `ACT_OUT`, one entry an actuator (R31). -/
  actOut : List (Option Pulse)
  /-- `OUT_HIST`, every `PULSE_OUT(i, p)` since reset, oldest first (R31). -/
  outHist : List (Byte × Pulse)
  /-- `FAULT` (R33). -/
  fault : Option FaultKind
  /-- The value the last completed HOST operation returned (R37). -/
  ret : Returned
  /-- The HOST's loop state (R20). -/
  prog : Progress
  /-- How many draws the run has taken: the counter the free values are applied to (log entry 3). -/
  draws : Nat
  /-- What is still to be issued, in order (R37: the HOST's list of operations). -/
  port : List PortWord
  /-- The MASTER's pending steps, oldest first: those it takes between HOST steps, and a byte it is held on (R117). -/
  master : List BusEvent
  /-- The MASTER's steps after those: it may take any number of them (R121). -/
  masterAfter : Endless BusEvent
  /-- Which agent the environment lets step next (R18, R48), one entry a step. -/
  turns : List Agent
  /-- Which agent the environment lets step after those turns (R48). -/
  turnsAfter : Endless Agent
  deriving DecidableEq, Repr

/-- Why the machine has no next state. -/
inductive Fault where
  /-- Raised by `step` in a state whose `FAULT` is set: no agent has a step (R127). Safe: the machine stops. -/
  | halted (kind : FaultKind)
  /-- Raised by `step` when no agent has a step to take: nothing is pending, or only a MASTER held on a byte (R37,
  R117, R138: the block waits for the first operation). Safe: the machine stops. -/
  | noStep
  deriving DecidableEq, Repr

/-- Why the machine refuses. -/
inductive Refusal where
  /-- Raised by an arm of `exec` whose instruction has no meaning yet. Safe. No arm raises it now. -/
  | notModelled (mnemonic : String)
  /-- Raised by `step` for a configuration that is not well formed (R11: refused by name and never run). Safe. -/
  | illFormedConfig
  deriving DecidableEq, Repr

/-- The draws of reset (R36): values the sources do not give, drawn once. -/
structure ResetDraws where
  saddr : BitVec 10
  sdaSel : Byte
  sclSel : Byte
  txAbrt : Bool
  deriving DecidableEq, Repr

/-- The mode reset selects (R139, R141). -/
def resetMode (c : Config) : Mode :=
  if c.calTable.length ≠ c.nAct then .fatal
  else if c.calSelect then .calibrating
  else .serving

/-- The machine right after reset (R36, R138 to R141), for a configuration and the draws of reset. -/
def State.resetWith (c : Config) (d : ResetDraws) : State where
  cfg := c
  en := false
  saddr := d.saddr
  sdaSel := d.sdaSel
  sclSel := d.sclSel
  rxf := []
  txAbrt := d.txAbrt
  xfer := .idle
  cfgd := ⟨false, false, false⟩
  ct := if c.calTable.length = c.nAct then c.calTable else []
  mode := resetMode c
  lastOutcome := if c.calTable.length = c.nAct then 0x00 else 0xFF
  actOut := List.replicate c.nAct none
  outHist := []
  fault := none
  ret := .none
  prog := .idle
  draws := 0
  port := []
  master := []
  masterAfter := .none
  turns := []
  turnsAfter := .none

/-- The draws `State.reset` takes. DESIGN CHOICE (log entry 4): the spec gives no value; `State.resetWith` is reset
for every draw. -/
def ResetDraws.zero : ResetDraws := ⟨0, 0, 0, false⟩

/-- The machine right after reset, in the configuration of log entry 1 and with the draws of log entry 4. -/
def State.reset : State := State.resetWith Config.bench ResetDraws.zero

end Sys2Proof.Machine
end

