-- ==== Sys2Proof/Machine/Operands.lean ====
section
/-! DEFINITION. Operand forms (spec 30_encoding.md R59, R64; 40_i2c_registers.md R68): register offsets, reserved-bit
masks, the register fields of a word, and the bus address operand. -/

namespace Sys2Proof.Machine

/-- The register at a byte offset; none for every unmapped offset, misaligned or not (R43, R68). -/
def regAt (off : Byte) : Option Reg :=
  if off = 0x00 then some .icEnable
  else if off = 0x04 then some .icSaddr
  else if off = 0x08 then some .icStatus
  else if off = 0x0C then some .icDataCmd
  else if off = 0x10 then some .icClrTxAbrt
  else if off = 0x14 then some .ioSdaSel
  else if off = 0x18 then some .ioSclSel
  else none

/-- A register's byte offset in the window (R68). -/
def offsetOf : Reg → Byte
  | .icEnable => 0x00
  | .icSaddr => 0x04
  | .icStatus => 0x08
  | .icDataCmd => 0x0C
  | .icClrTxAbrt => 0x10
  | .ioSdaSel => 0x14
  | .ioSclSel => 0x18

/-- Where a register stands in the HOST's address space (R46). -/
def hostAddress (c : Config) (r : Reg) : Nat :=
  c.iscBase + (offsetOf r).toNat

/-- The registers SET, CLR and TGL may name: the read-write ones (R78). -/
def readWrite : Reg → Bool
  | .icEnable => true
  | .icSaddr => true
  | .ioSdaSel => true
  | .ioSclSel => true
  | .icStatus => false
  | .icDataCmd => false
  | .icClrTxAbrt => false

/-- `v[31:n] = 0`: the value has a 1 in no reserved bit of a register whose field is `v[n-1:0]` (R64). -/
def reservedClear (n : Nat) (v : Word) : Bool :=
  decide (v >>> n = 0)

/-- `v[0]`, the field of `IC_ENABLE` and `IC_CLR_TX_ABRT` (R68). -/
def bitField (v : Word) : Bool :=
  v.getLsbD 0

/-- `v[9:0]`, the field of `IC_SADDR` (R71). -/
def saddrField (v : Word) : BitVec 10 :=
  v.extractLsb' 0 10

/-- `v[7:0]`, the field of the pin selects and of `IC_DATA_CMD` (R73, R75). -/
def byteField (v : Word) : Byte :=
  v.extractLsb' 0 8

/-- Zero extension of a field to a register word (R59, R70). -/
def zextBit (b : Bool) : Word :=
  (BitVec.ofBool b).zeroExtend 32

/-- `zext_32` of the 10-bit filter (R71). -/
def zextSaddr (a : BitVec 10) : Word :=
  a.zeroExtend 32

/-- `zext_32` of a byte operand (R75, R84). -/
def zextByte (b : Byte) : Word :=
  b.zeroExtend 32

/-- `zext_10(addr7)`: what the filter must hold for a bus address to match (R116). -/
def filterOf (addr : BitVec 7) : BitVec 10 :=
  addr.zeroExtend 10

/-- The transfer a matching start begins, by its direction (R116). -/
def matchedXfer : Dir → Xfer
  | .write => .wrMatched
  | .read => .rdMatched

end Sys2Proof.Machine
end

