-- ==== Sys2Proof/Machine/Flags.lean ====
section
/-! DEFINITION. The status flags, all derived (spec 10_state.md R24, R32), the status word (R72) and the outcome codes
(60_exceptions.md R123). -/

namespace Sys2Proof.Machine

/-- A transfer addressed to the block is active (R23). -/
def Xfer.active : Xfer → Bool
  | .wrMatched => true
  | .rdMatched => true
  | .idle => false
  | .other => false

/-- `RFNE`, receive FIFO not empty (R24). -/
def rfne (s : State) : Bool :=
  !s.rxf.isEmpty

/-- `ACTIVITY` (R24). -/
def activity (s : State) : Bool :=
  s.xfer.active

/-- `ALARM`, the 1-bit alarm output (R32). -/
def alarm (s : State) : Bool :=
  decide (s.mode = .fatal)

/-- The value of `IC_STATUS`: `zext_32({ACTIVITY, TX_ABRT, RFNE})` (R72). -/
def statusWord (s : State) : Word :=
  (BitVec.ofBool (activity s) ++ BitVec.ofBool s.txAbrt ++ BitVec.ofBool (rfne s)).zeroExtend 32

/-- All three configuration registers were written since reset (R69, R70). -/
def Cfgd.complete (c : Cfgd) : Bool :=
  c.saddr && c.sda && c.scl

/-- The code of a rejection reason (R89), which is also its outcome code (R123). -/
def RejectReason.code : RejectReason → Byte
  | .sizeMismatch => 0x01
  | .badSentinel => 0x02
  | .badTerminator => 0x03
  | .badHeader => 0x04
  | .badCommand => 0x05

/-- BUS_READ_FAILURE (R123). -/
def busReadFailure : Byte := 0x06

/-- INDEX_OUT_OF_RANGE (R123). -/
def indexOutOfRange : Byte := 0x07

/-- MAP_NOOP (R123). -/
def mapNoop : Byte := 0x08

/-- NO_COMMAND (R123). -/
def noCommand : Byte := 0x09

/-- ACCEPTED (R123). -/
def accepted : Byte := 0x10

/-- FATAL_CAL_MISMATCH (R123). -/
def fatalCalMismatch : Byte := 0xFF

/-- Every outcome code of R123; every other value is unused. -/
def outcomeCodes : List Byte :=
  [0x00, 0x01, 0x02, 0x03, 0x04, 0x05, 0x06, 0x07, 0x08, 0x09, 0x10, 0xFF]

end Sys2Proof.Machine
end

