-- ==== Sys2Proof/Machine/Ops.lean ====
section
/-! DEFINITION. The shared operations: taking a Fault (spec 60_exceptions.md R127), the receive FIFO (10_state.md R22),
the register window's read and write primitives (40_i2c_registers.md R70 to R78), the pulse output (R31), the frame
decoder (42), the map (43), the pair extraction (R88) and `process` (R110). -/

namespace Sys2Proof.Machine

/-! Faults and returned values. -/

/-- Taking a Fault: `FAULT <- Some(kind)` unless it is already set, and nothing else (R127). The block has no other
exception and no return from one (R130). -/
def raiseFault (k : FaultKind) (s : State) : State :=
  { s with fault := match s.fault with | none => some k | some first => some first }

/-- The HOST operation completes and returns a value (R37). -/
def State.returning (s : State) (r : Returned) : State :=
  { s with ret := r }

/-- An operation without a value completes, or takes its Fault from the state it began in (R14, R127). -/
def complete (s : State) : Except FaultKind State → Host.Outcome State Fault Refusal
  | .ok t => .next (t.returning .done)
  | .error k => .next (raiseFault k s)

/-! The receive FIFO (R22). -/

/-- The FIFO has no room for another byte. -/
def rxFull (s : State) : Bool :=
  decide (s.cfg.rxFifoDepth ≤ s.rxf.length)

/-- `fifo.push(b)`: at the tail. -/
def pushRx (b : Byte) (s : State) : State :=
  { s with rxf := s.rxf ++ [b] }

/-- A flush makes the queue empty. -/
def flushRx (s : State) : State :=
  { s with rxf := [] }

/-! Reading a register (R70 to R76). -/

/-- The read behaviour of `IC_DATA_CMD` (R73): the head of the FIFO under a fresh draw in bits [31:8]; with the FIFO
empty, a draw. -/
def readDataCmd (s : State) : Word × State :=
  match s.rxf with
  | b :: q => (Config.drawDataUpper s.draws ++ b, { s with rxf := q, draws := s.draws + 1 })
  | [] => (Config.drawEmptyRead s.draws, { s with draws := s.draws + 1 })

/-- The read behaviour of each register. -/
def readReg (r : Reg) (s : State) : Except FaultKind (Word × State) :=
  match r with
  | .icEnable => .ok (zextBit s.en, s)
  | .icSaddr => .ok (zextSaddr s.saddr, s)
  | .icStatus => .ok (statusWord s, s)
  | .icDataCmd => .ok (readDataCmd s)
  | .icClrTxAbrt => .error .access
  | .ioSdaSel => .ok (zextByte s.sdaSel, s)
  | .ioSclSel => .ok (zextByte s.sclSel, s)

/-- `RegRead(off)` (R76). -/
def regRead (off : Byte) (s : State) : Except FaultKind (Word × State) :=
  match regAt off with
  | none => .error .badOffset
  | some r => readReg r s

/-! Writing a register (R70 to R77). -/

/-- Writing `IC_ENABLE` (R70), its checks in the order of R128. -/
def writeEnable (v : Word) (s : State) : Except FaultKind State :=
  if !reservedClear 1 v then .error .reservedBits
  else if bitField v && !s.en then
    if !s.cfgd.complete then .error .unconfigured
    else if s.sdaSel = s.sclSel then .error .configArg
    else .ok { s with en := true }
  else if !bitField v && s.en then
    if activity s then .error .disableDuringTransfer
    else if s.cfg.rxFlushOnDisable then .ok { flushRx s with en := false }
    else .ok { s with en := false }
  else .ok s

/-- Writing `IC_SADDR` (R71). -/
def writeSaddr (v : Word) (s : State) : Except FaultKind State :=
  if !reservedClear 10 v then .error .reservedBits
  else if s.en then .error .writeWhileEnabled
  else .ok { s with saddr := saddrField v, cfgd := { s.cfgd with saddr := true } }

/-- Writing `IO_SDA_SEL` (R75). -/
def writeSdaSel (v : Word) (s : State) : Except FaultKind State :=
  if !reservedClear 8 v then .error .reservedBits
  else if s.en then .error .writeWhileEnabled
  else if !s.cfg.sdaPins.contains (byteField v) then .error .configArg
  else .ok { s with sdaSel := byteField v, cfgd := { s.cfgd with sda := true } }

/-- Writing `IO_SCL_SEL` (R75). -/
def writeSclSel (v : Word) (s : State) : Except FaultKind State :=
  if !reservedClear 8 v then .error .reservedBits
  else if s.en then .error .writeWhileEnabled
  else if !s.cfg.sclPins.contains (byteField v) then .error .configArg
  else .ok { s with sclSel := byteField v, cfgd := { s.cfgd with scl := true } }

/-- Writing `IC_CLR_TX_ABRT` (R74). -/
def writeClrTxAbrt (v : Word) (s : State) : Except FaultKind State :=
  if !reservedClear 1 v then .error .reservedBits
  else if bitField v then .ok { s with txAbrt := false }
  else .ok s

/-- The write behaviour of each register. -/
def writeReg (r : Reg) (v : Word) (s : State) : Except FaultKind State :=
  match r with
  | .icEnable => writeEnable v s
  | .icSaddr => writeSaddr v s
  | .icStatus => .error .access
  | .icDataCmd => .error .access
  | .icClrTxAbrt => writeClrTxAbrt v s
  | .ioSdaSel => writeSdaSel v s
  | .ioSclSel => writeSclSel v s

/-- `RegWrite(off, v)` (R77). -/
def regWrite (off : Byte) (v : Word) (s : State) : Except FaultKind State :=
  match regAt off with
  | none => .error .badOffset
  | some r => writeReg r v s

/-- SET, CLR and TGL (R81 to R83): one atomic read-modify-write of a read-write register, `f old m` written back
(R50, R78). -/
def regModify (f : Word → Word → Word) (off : Byte) (m : Word) (s : State) : Except FaultKind State :=
  match regAt off with
  | none => .error .badOffset
  | some r =>
    if !readWrite r then .error .access
    else
      match readReg r s with
      | .error k => .error k
      | .ok (old, t) => writeReg r (f old m) t

/-- The new value SET writes (R81). -/
def setMask (old m : Word) : Word := old ||| m

/-- The new value CLR writes (R82). -/
def clearMask (old m : Word) : Word := old &&& ~~~m

/-- The new value TGL writes (R83). -/
def toggleMask (old m : Word) : Word := old ^^^ m

/-! The frame decoder FD (42_frame_decoder.md). -/

/-- FD: the five checks in the order of R90, first failure wins, then the payload (R91 to R97). -/
def frameDecode (buf : List Byte) : FdResult :=
  if buf.length ≠ 16 then .rejected .sizeMismatch
  else if buf.getD 0 0 ≠ 0xFF then .rejected .badSentinel
  else if buf.getD 15 0 ≠ 0x0A then .rejected .badTerminator
  else if slice 1 5 buf ≠ [0x04, 0x0C, 0x08, 0x0E] then .rejected .badHeader
  else if slice 5 7 buf ≠ [0x05, 0x08] then .rejected .badCommand
  else .accepted (buf.getD 13 0) (buf.getD 14 0) (rsvOf buf)

/-! The value mapper VM (43_value_mapper.md). -/

/-- The calibration table's entry at an index. Every entry below `N_ACT` is there outside FATAL, which is the only
place it is read (`OutputInvariant`, Safety.lean). -/
def calEntry (s : State) (idx : Byte) : Range :=
  s.ct.getD idx.toNat ⟨0, 0⟩

/-- The range in effect for an index, by the mapping policy (R100). -/
def rangeFor (s : State) (idx : Byte) : Range :=
  match s.cfg.mapPolicy with
  | .perActuator => calEntry s idx
  | .universal => ⟨s.cfg.umin, s.cfg.umax⟩

/-- The quotient of R101, rounded as `MAP_ROUND` says. -/
def quotient : Rounding → Nat → Nat → Nat
  | .floor, a, b => a / b

/-- `clamp(p, lo, hi)` (R13). -/
def clamp (p lo hi : Nat) : Nat :=
  min (max p lo) hi

/-- The mapped pulse of R101 and R102, on exact naturals. -/
def mapPulse (round : Rounding) (lo hi raw : Nat) : Nat :=
  clamp (lo + quotient round (raw * (hi - lo)) 255) lo hi

/-- The map of a raw byte for an actuator (R104): under PER_ACTUATOR a zero result is discarded (R103). -/
def mapValue (s : State) (idx raw : Byte) : MapResult :=
  let r := rangeFor s idx
  let p := mapPulse s.cfg.mapRound r.min.toNat r.max.toNat raw.toNat
  if s.cfg.mapPolicy = .perActuator ∧ p = 0 then .noOp else .pulse (BitVec.ofNat 16 p)

/-! The command path CP (44_command_path.md). -/

/-- PAIRS of R88: two bytes a command, an odd last byte dropped. -/
def pairUp : List Byte → List Command
  | index :: raw :: rest => ⟨index, raw⟩ :: pairUp rest
  | _ => []

/-- `PAIR(seq)` (R88). -/
def pairCommands : PairPolicy → List Byte → List Command
  | .exact2, [index, raw] => [⟨index, raw⟩]
  | .exact2, _ => []
  | .first2, index :: raw :: _ => [⟨index, raw⟩]
  | .first2, _ => []
  | .pairs, seq => pairUp seq

/-- `emit PULSE_OUT(i, p)` (R31, R109): the only writer of `ACT_OUT` and `OUT_HIST`. -/
def emitPulse (i : Byte) (p : Pulse) (s : State) : State :=
  { s with actOut := s.actOut.set i.toNat (some p), outHist := s.outHist ++ [(i, p)] }

/-- `outcome <- c` (R13, R30). -/
def setOutcome (c : Byte) (s : State) : State :=
  { s with lastOutcome := c }

/-- `process(cmd)` (R110), with its outcome written: the index gate (R108), the map, the pulse. -/
def runCommand (cmd : Command) (s : State) : State :=
  if s.cfg.nAct ≤ cmd.index.toNat then setOutcome indexOutOfRange s
  else
    match mapValue s cmd.index cmd.raw with
    | .noOp => setOutcome mapNoop s
    | .pulse p => setOutcome accepted (emitPulse cmd.index p s)

/-- `for cmd in cmds, in order: outcome <- process(cmd)` (R112). -/
def runCommands : List Command → State → State
  | [], s => s
  | cmd :: cmds, s => runCommands cmds (runCommand cmd s)

/-! The MASTER's bus (45_bus_events.md). -/

/-- Storing a received byte, or what a full FIFO does with it (R117): under HOLD_MASTER the event has not happened and
the MASTER is held on it, in front of its later events. -/
def receiveByte (b : Byte) (s : State) : State :=
  if !rxFull s then pushRx b s
  else
    match s.cfg.rxOverflow with
    | .dropNew => s
    | .holdMaster => { s with master := .byte b :: s.master }

/-- The MASTER is held at a byte: the event is not enabled until the FIFO has room (R117). -/
def masterHeld (s : State) : Bool :=
  decide (s.xfer = .wrMatched) && rxFull s && decide (s.cfg.rxOverflow = .holdMaster)

/-- A bus event is enabled: every one but a byte the MASTER is held on; while `TX_ABRT = 1` that byte may still be
lost, by its draw (R117). -/
def busEnabled (e : BusEvent) (s : State) : Bool :=
  match e with
  | .byte _ => !masterHeld s || (s.txAbrt && Config.drawByteLost s.draws)
  | .start _ _ => true
  | .stop => true
  | .txAbort => true

end Sys2Proof.Machine
end

