-- ==== Sys2Proof/Machine/BusEvents.lean ====
section
/-! DEFINITION. The MASTER's steps BUS_START, BUS_BYTE, BUS_STOP and BUS_TX_ABORT (spec 45_bus_events.md R116 to
R119). None of them raises a Fault. -/

namespace Sys2Proof.Machine

/-- BUS_START (R116): a start, or a repeated start, which replaces `XFER`. -/
def execBusStart (addr : BitVec 7) (dir : Dir) (s : State) : Host.Outcome State Fault Refusal :=
  if s.en ∧ s.saddr = filterOf addr then .next { s with xfer := matchedXfer dir }
  else .next { s with xfer := .other }

/-- BUS_BYTE in a write to this block, given the draw of R117: whether the byte is lost while `TX_ABRT = 1`. -/
def takeByte (lost : Bool) (b : Byte) (s : State) : State :=
  if lost then s else receiveByte b s

/-- BUS_BYTE (R117): the draw is taken only where `TX_ABRT = 1`. -/
def execBusByte (b : Byte) (s : State) : Host.Outcome State Fault Refusal :=
  if s.xfer ≠ .wrMatched then .next s
  else if s.txAbrt then .next (takeByte (Config.drawByteLost s.draws) b { s with draws := s.draws + 1 })
  else .next (takeByte false b s)

/-- BUS_STOP (R118). -/
def execBusStop (s : State) : Host.Outcome State Fault Refusal :=
  .next { s with xfer := .idle }

/-- BUS_TX_ABORT (R119). -/
def execBusTxAbort (s : State) : Host.Outcome State Fault Refusal :=
  .next { s with txAbrt := true }

end Sys2Proof.Machine
end

