-- ==== Sys2Proof/Machine/Driver.lean ====
section
/-! DEFINITION. The driver operations CONFIGURE, HAS_DATA, DRAIN and ACK_ABORT (spec 41_i2c_driver.md R84 to R87), by
their expansions into the register primitives (30_encoding.md R67). CONFIGURE and DRAIN take several steps (R20): the
meaning of the operation is its first step, and the definitions beside it are the later ones. -/

namespace Sys2Proof.Machine

/-- A sub-step of a multi-step operation ends: the HOST's loop state moves on. -/
def continueWith (s : State) (p : Progress) : Except FaultKind State → Host.Outcome State Fault Refusal
  | .ok t => .next { t with prog := p }
  | .error k => .next (raiseFault k s)

/-- CONFIGURE, sub-step 1: the checks and `CLR IC_ENABLE, 0x1`, one atomic step (R84). -/
def execConfigure (addr sda scl : Byte) (s : State) : Host.Outcome State Fault Refusal :=
  if 0x7F < addr.toNat then .next (raiseFault .badOperand s)
  else if sda = scl then .next (raiseFault .configArg s)
  else if !s.cfg.sdaPins.contains sda || !s.cfg.sclPins.contains scl then .next (raiseFault .configArg s)
  else if activity s then .next (raiseFault .configDuringTransfer s)
  else
    continueWith s (.configure .clearSaddr addr sda scl) (regModify clearMask (offsetOf .icEnable) 0x1 s)

/-- The last sub-step of CONFIGURE ends the operation, which has no return value (R84). -/
def endConfigure (s : State) : Except FaultKind State → Host.Outcome State Fault Refusal
  | .ok t => .next ({ t with prog := .idle }.returning .done)
  | .error k => .next (raiseFault k s)

/-- CONFIGURE, sub-steps 2 to 6: one atomic register operation each (R84). -/
def configureStep (step : ConfigureStep) (addr sda scl : Byte) (s : State) : Host.Outcome State Fault Refusal :=
  match step with
  | .clearSaddr =>
    continueWith s (.configure .setSaddr addr sda scl) (regModify clearMask (offsetOf .icSaddr) 0x3FF s)
  | .setSaddr =>
    continueWith s (.configure .writeSda addr sda scl) (regModify setMask (offsetOf .icSaddr) (zextByte addr) s)
  | .writeSda =>
    continueWith s (.configure .writeScl addr sda scl) (regWrite (offsetOf .ioSdaSel) (zextByte sda) s)
  | .writeScl =>
    continueWith s (.configure .enable addr sda scl) (regWrite (offsetOf .ioSclSel) (zextByte scl) s)
  | .enable => endConfigure s (regModify setMask (offsetOf .icEnable) 0x1 s)

/-- HAS_DATA: the RFNE bit of the status register (R85). -/
def execHasData (s : State) : Host.Outcome State Fault Refusal :=
  .next (s.returning (.flag (bitField (statusWord s))))

/-- One status test and, where it finds a byte, one data read: one atomic step of DRAIN (R86). The upper bits of the
read are a draw and are dropped, so only the oldest byte is taken here; that this is what the two register reads give is
the statement DrainReadsThroughTheRegisters. -/
def drainRead (s : State) : Option (Byte × State) :=
  match s.rxf with
  | b :: q => some (b, { s with rxf := q, draws := s.draws + 1 })
  | [] => none

/-- One loop iteration of DRAIN (R86): it returns when the status test finds the FIFO empty. -/
def drainStep (result : List Byte) (s : State) : Host.Outcome State Fault Refusal :=
  match drainRead s with
  | none => .next ({ s with prog := .idle }.returning (.bytes result))
  | some (b, t) => .next { t with prog := .drain (result ++ [b]) }

/-- DRAIN: the first loop iteration (R86). -/
def execDrain (s : State) : Host.Outcome State Fault Refusal :=
  drainStep [] s

/-- `RegWrite(IC_CLR_TX_ABRT, 0x00000001)` (R87). -/
def ackAbort (s : State) : Except FaultKind State :=
  regWrite (offsetOf .icClrTxAbrt) 0x1 s

/-- ACK_ABORT (R87). -/
def execAckAbort (s : State) : Host.Outcome State Fault Refusal :=
  complete s (ackAbort s)

end Sys2Proof.Machine
end

