-- ==== Sys2Proof/Machine/CommandPath.lean ====
section
/-! DEFINITION. The command-path steps SERIAL_STEP and I2C_STEP (spec 44_command_path.md R111, R112) and the I2C pair
(41_i2c_driver.md R88). I2C_STEP takes several steps: its meaning is the first, and the definitions beside it are the
later ones. -/

namespace Sys2Proof.Machine

/-- The serial answer's command, one atomic step (R111): a read failure and a rejected frame are outcomes. -/
def takeAnswer (answer : SerialAnswer) (s : State) : State :=
  match answer with
  | .err => setOutcome busReadFailure s
  | .ok buf =>
    match frameDecode buf with
    | .rejected reason => setOutcome reason.code s
    | .accepted index raw _ => runCommand ⟨index, raw⟩ s

/-- SERIAL_STEP (R111): MODE, then BUS_SEL (R128). -/
def execSerialStep (answer : SerialAnswer) (s : State) : Host.Outcome State Fault Refusal :=
  if s.mode ≠ .serving then .next (raiseFault .mode s)
  else if s.cfg.busSel ≠ .serial then .next (raiseFault .busSel s)
  else .next ((takeAnswer answer s).returning .done)

/-- I2C_STEP, its first step: MODE, then BUS_SEL (R128), and ACK_ABORT (R112). -/
def execI2cStep (f : Bool) (s : State) : Host.Outcome State Fault Refusal :=
  if s.mode ≠ .serving then .next (raiseFault .mode s)
  else if s.cfg.busSel ≠ .i2c then .next (raiseFault .busSel s)
  else continueWith s (.i2cDrain f []) (ackAbort s)

/-- I2C_STEP's DRAIN, one loop iteration a step (R86, R112). -/
def i2cDrainStep (f : Bool) (result : List Byte) (s : State) : Host.Outcome State Fault Refusal :=
  match drainRead s with
  | none => .next { s with prog := .i2cFinish f result }
  | some (b, t) => .next { t with prog := .i2cDrain f (result ++ [b]) }

/-- What I2C_STEP does with the drained bytes, one atomic step (R112): a fault draw loses them. -/
def takeDrained (f : Bool) (seq : List Byte) (s : State) : State :=
  if f then setOutcome busReadFailure s
  else
    match pairCommands s.cfg.pairPolicy seq with
    | [] => setOutcome noCommand s
    | cmd :: cmds => runCommands (cmd :: cmds) s

/-- I2C_STEP, its last step (R112). -/
def i2cFinishStep (f : Bool) (seq : List Byte) (s : State) : Host.Outcome State Fault Refusal :=
  .next ({ takeDrained f seq s with prog := .idle }.returning .done)

/-- I2C_PAIR: the pair extraction of a drain of exactly these two bytes (R88, the row's rule): a pure function. The
command reaches an actuator through I2C_STEP alone (R109, R110, R112; log entry 7). -/
def execI2cPair (index value : Byte) (s : State) : Host.Outcome State Fault Refusal :=
  .next (s.returning (.commands (pairCommands s.cfg.pairPolicy [index, value])))

end Sys2Proof.Machine
end

