-- ==== Sys2Proof/Machine/FrameDecoder.lean ====
section
/-! DEFINITION. The frame decoder's operation DECODE and the frame it accepts (spec 42_frame_decoder.md R89 to R99). -/

namespace Sys2Proof.Machine

/-- DECODE: the result is a function of its operand alone, and no state is written (R34, R98). -/
def execDecode (buf : List Byte) (s : State) : Host.Outcome State Fault Refusal :=
  .next (s.returning (.decoded (frameDecode buf)))

/-- FRAME_ACTUATOR_CMD: the frame given to FD (R98, the row's rule). The command it carries reaches an actuator
through SERIAL_STEP alone (R109 to R111; log entry 7). -/
def execFrameActuatorCmd (rsv : Rsv) (index value : Byte) (s : State) : Host.Outcome State Fault Refusal :=
  .next (s.returning (.decoded (frameDecode (frameBytes rsv index value))))

end Sys2Proof.Machine
end

