-- ==== Sys2Proof/Machine/Mapper.lean ====
section
/-! DEFINITION. The value mapper's operations MAP, CAL_WR and CAL_RD (spec 43_value_mapper.md R104 to R106). -/

namespace Sys2Proof.Machine

/-- MAP (R104): MODE, then MAP_INDEX (R128). It writes no state but the value it returns. -/
def execMapRaw (idx raw : Byte) (s : State) : Host.Outcome State Fault Refusal :=
  if s.mode = .fatal then .next (raiseFault .mode s)
  else if s.cfg.nAct ≤ idx.toNat then .next (raiseFault .mapIndex s)
  else .next (s.returning (.mapped (mapValue s idx raw)))

/-- CAL_WR (R105): CAL_LOCKED for the mode, CAL_LOCKED for the index, CAL_INVALID (R128). -/
def execCalWr (idx : Byte) (min max : Pulse) (s : State) : Host.Outcome State Fault Refusal :=
  if s.mode ≠ .calibrating then .next (raiseFault .calLocked s)
  else if idx.toNat ≠ s.cfg.refIndex then .next (raiseFault .calLocked s)
  else if !(Range.mk min max).wf then .next (raiseFault .calInvalid s)
  else .next ({ s with ct := s.ct.set idx.toNat ⟨min, max⟩ }.returning .done)

/-- CAL_RD (R106): MODE, then CAL_INDEX (R128). -/
def execCalRd (idx : Byte) (s : State) : Host.Outcome State Fault Refusal :=
  if s.mode = .fatal then .next (raiseFault .mode s)
  else if s.cfg.nAct ≤ idx.toNat then .next (raiseFault .calIndex s)
  else .next (s.returning (.range (calEntry s idx)))

end Sys2Proof.Machine
end

