-- ==== Sys2Proof/Machine/Registers.lean ====
section
/-! DEFINITION. The register-access operations RD, WR, SET, CLR and TGL (spec 40_i2c_registers.md R79 to R83). -/

namespace Sys2Proof.Machine

/-- RD (R79). -/
def execRd (off : Byte) (s : State) : Host.Outcome State Fault Refusal :=
  match regRead off s with
  | .ok (v, t) => .next (t.returning (.word v))
  | .error k => .next (raiseFault k s)

/-- WR (R80). -/
def execWr (off : Byte) (v : Word) (s : State) : Host.Outcome State Fault Refusal :=
  complete s (regWrite off v s)

/-- SET (R81). -/
def execSetBits (off : Byte) (m : Word) (s : State) : Host.Outcome State Fault Refusal :=
  complete s (regModify setMask off m s)

/-- CLR (R82). -/
def execClrBits (off : Byte) (m : Word) (s : State) : Host.Outcome State Fault Refusal :=
  complete s (regModify clearMask off m s)

/-- TGL (R83). -/
def execTglBits (off : Byte) (m : Word) (s : State) : Host.Outcome State Fault Refusal :=
  complete s (regModify toggleMask off m s)

end Sys2Proof.Machine
end

