-- ==== Sys2Proof/Machine/Dispatch.lean ====
section
/-! DEFINITION. One arm per instruction. -/

namespace Sys2Proof.Machine

/-- The meaning of an instruction: for a multi-step operation (R20) its first step. -/
def exec (i : Instr) (s : State) : Host.Outcome State Fault Refusal :=
  match i with
  | .frameActuatorCmd rsv index value => Sys2Proof.Machine.execFrameActuatorCmd rsv index value s
  | .i2cPair index value => Sys2Proof.Machine.execI2cPair index value s
  | .decode buf => Sys2Proof.Machine.execDecode buf s
  | .rd off => Sys2Proof.Machine.execRd off s
  | .wr off v => Sys2Proof.Machine.execWr off v s
  | .setBits off m => Sys2Proof.Machine.execSetBits off m s
  | .clrBits off m => Sys2Proof.Machine.execClrBits off m s
  | .tglBits off m => Sys2Proof.Machine.execTglBits off m s
  | .configure addr sda scl => Sys2Proof.Machine.execConfigure addr sda scl s
  | .hasData => Sys2Proof.Machine.execHasData s
  | .drain => Sys2Proof.Machine.execDrain s
  | .ackAbort => Sys2Proof.Machine.execAckAbort s
  | .mapRaw idx raw => Sys2Proof.Machine.execMapRaw idx raw s
  | .calWr idx min max => Sys2Proof.Machine.execCalWr idx min max s
  | .calRd idx => Sys2Proof.Machine.execCalRd idx s
  | .serialStep answer => Sys2Proof.Machine.execSerialStep answer s
  | .i2cStep f => Sys2Proof.Machine.execI2cStep f s
  | .busStart addr dir => Sys2Proof.Machine.execBusStart addr dir s
  | .busByte b => Sys2Proof.Machine.execBusByte b s
  | .busStop => Sys2Proof.Machine.execBusStop s
  | .busTxAbort => Sys2Proof.Machine.execBusTxAbort s

end Sys2Proof.Machine
end

