-- ==== Sys2Proof/Machine/Agents.lean ====
section
/-! DEFINITION. Whose turn it is, and what an agent's step does: fetching what is issued next, continuing a multi-step
operation, and the MASTER's step (spec 10_state.md R18, R20; 20_memory.md R48; 45_bus_events.md R121). -/

namespace Sys2Proof.Machine

/-- The next word issued, and the words after it; an operation-port word with no bytes left issues nothing. -/
def issued : List PortWord → Option (PortWord × List PortWord)
  | [] => none
  | w :: ws =>
    if w.format = .op ∧ w.bytes = [] then issued ws else some (w, ws)

/-- What is still to be issued once an operation's bytes are taken from its word (R58: operations follow one another
in the stream). -/
def remaining (rest : List Byte) (ws : List PortWord) : List PortWord :=
  if rest = [] then ws else ⟨.op, rest⟩ :: ws

/-- The HOST has a step: an operation in progress or one issued. -/
def hostCan (s : State) : Bool :=
  decide (s.prog ≠ .idle) || (issued s.port).isSome

/-- The next of the environment's choices: the first listed, else what follows the list. -/
def headOf {α : Type} (free : Nat → α) : List α → Endless α → Option α
  | a :: _, _ => some a
  | [], .none => none
  | [], .again l => l.head?
  | [], .free n => some (free n)

/-- The choices after the next one. -/
def tailOf {α : Type} : List α → Endless α → List α × Endless α
  | _ :: l, after => (l, after)
  | [], .none => ([], .none)
  | [], .again l => (l.tail, .again l)
  | [], .free n => ([], .free (n + 1))

/-- The MASTER's oldest pending event, or the next it goes on with (R121). -/
def eventNow (s : State) : Option BusEvent :=
  headOf Config.freeEvent s.master s.masterAfter

/-- The MASTER's step is taken. -/
def useEvent (s : State) : State :=
  { s with
    master := (tailOf s.master s.masterAfter).1
    masterAfter := (tailOf s.master s.masterAfter).2 }

/-- Which agent the environment lets step, where it names one. -/
def turnNow (s : State) : Option Agent :=
  headOf Config.freeTurn s.turns s.turnsAfter

/-- A step uses up one turn. -/
def useTurn (s : State) : State :=
  { s with
    turns := (tailOf s.turns s.turnsAfter).1
    turnsAfter := (tailOf s.turns s.turnsAfter).2 }

/-- The MASTER has a step of its own: an event that is enabled. -/
def masterCan (s : State) : Bool :=
  match eventNow s with
  | none => false
  | some e => busEnabled e s

/-- Which agent steps next: the one the environment lets step, where it has a step, else the other (R18: any enabled
agent may take the next step). With no turn named, the HOST goes first. -/
def nextAgent (s : State) : Option Agent :=
  match turnNow s with
  | some .master =>
    if masterCan s then some .master else if hostCan s then some .host else none
  | _ =>
    if hostCan s then some .host else if masterCan s then some .master else none

/-- An issued instruction runs. A bus event listed while the MASTER still has pending events waits behind them (log
entry 6). -/
def runIssued (i : Instr) (s : State) : Host.Outcome State Fault Refusal :=
  match i.busEvent with
  | none => exec i s
  | some e => if s.master = [] then exec i s else .next { s with master := s.master ++ [e] }

/-- What issuing bytes that decode to no instruction does: a reserved opcode and a malformed operation raise their
Faults (R61, R62); FD rejects a buffer that is no frame (R90); a drained sequence that is no pair goes by the pair
policy (R88). -/
def runRejected (r : Reject) (w : PortWord) (s : State) : Host.Outcome State Fault Refusal :=
  match r with
  | .badOpcode => .next (raiseFault .badOpcode s)
  | .badOperand => .next (raiseFault .badOperand s)
  | .notAFrame => .next (s.returning (.decoded (frameDecode w.bytes)))
  | .notAPair => .next (s.returning (.commands (pairCommands s.cfg.pairPolicy w.bytes)))
  | .noBytes => .fault .noStep

/-- The next word issued is fetched, decoded in its format, and run. -/
def issueStep (s : State) : Host.Outcome State Fault Refusal :=
  match issued s.port with
  | none => .fault .noStep
  | some (w, ws) =>
    match decode w.format w.bytes with
    | .ok i rest => runIssued i { s with port := remaining rest ws }
    | .reject r => runRejected r w { s with port := ws }

/-- The HOST's step: the next sub-step of the operation in progress, or the next word issued. -/
def hostStep (s : State) : Host.Outcome State Fault Refusal :=
  match s.prog with
  | .idle => issueStep s
  | .configure next addr sda scl => configureStep next addr sda scl s
  | .drain result => drainStep result s
  | .i2cDrain f result => i2cDrainStep f result s
  | .i2cFinish f seq => i2cFinishStep f seq s

/-- The MASTER's step: its next event. -/
def masterStep (s : State) : Host.Outcome State Fault Refusal :=
  match eventNow s with
  | none => .fault .noStep
  | some e => exec e.toInstr (useEvent s)

/-- A step of an agent. -/
def agentStep (a : Agent) (s : State) : Host.Outcome State Fault Refusal :=
  match a with
  | .host => hostStep s
  | .master => masterStep s

end Sys2Proof.Machine
end

