-- ==== Sys2Proof/Machine/Step.lean ====
section
/-! DEFINITION. One step of the block, and the host's placing of an instruction where the step fetches it. -/

namespace Sys2Proof.Machine

/-- One step. A configuration that is not well formed is refused by name and never run (R11); once `FAULT` is set no
agent has a step (R127); otherwise one enabled agent takes one step (R18, R48). -/
def step (s : State) : Host.Outcome State Fault Refusal :=
  if !s.cfg.wf then .refused .illFormedConfig
  else
    match s.fault with
    | some kind => .fault (.halted kind)
    | none =>
      match nextAgent s with
      | none => .fault .noStep
      | some a => agentStep a (useTurn s)

/-- `s` with a table word as the one thing issued: nothing in progress, nothing pending of the MASTER's, no turn named,
so that the next step fetches and runs that word (log entry 5). -/
def State.withFetchWord (s : State) (nbits w : Nat) : State :=
  { s with
    prog := .idle
    port := [⟨formatOfWidth nbits, tableWordBytes nbits w⟩]
    master := []
    masterAfter := .none
    turns := []
    turnsAfter := .none }

end Sys2Proof.Machine
end

