-- ==== Sys2Proof/Safety.lean ====
section
/-! DEFINITION. What counts as a safe run, in the terms claims use: a state with no Fault (spec 10_state.md R37), what
holds of the bus controller and of the outputs in every state a run reaches, and how far a pulse may go. -/

namespace Sys2Proof.Machine

/-- No Fault has been raised: a run that raised one is not a successful run (R33, R37). -/
def State.safe (s : State) : Bool :=
  decide (s.fault = none)

/-- The next step issues the word `w`, with `ws` behind it: the configuration is well formed, no Fault is set, no
operation is in progress, and it is the HOST's turn (R11, R18, R127). -/
structure Issues (s : State) (w : PortWord) (ws : List PortWord) : Prop where
  cfgWf : s.cfg.wf = true
  noFault : s.fault = none
  idle : s.prog = .idle
  turn : nextAgent s = some .host
  word : s.port = w :: ws

/-- The HOST's next steps run undisturbed: no turn is the MASTER's (the programs of 95_test_vectors.md L3: no MASTER
step but those listed). -/
def Undisturbed (s : State) : Prop :=
  s.turns = [] ∧ s.turnsAfter = .none

/-- `n` steps in a row, stopping at the first that answers no next state, as `Host.Core.run` does. -/
def runSteps : Nat → State → Host.Outcome State Fault Refusal
  | 0, s => .next s
  | n + 1, s =>
    match step s with
    | .next t => runSteps n t
    | .fault f => .fault f
    | .refused r => .refused r

/-- `lo ≤ p ≤ hi` for a pulse and a range (R102, R107). -/
def rangeHolds (r : Range) (p : Pulse) : Prop :=
  r.min.toNat ≤ p.toNat ∧ p.toNat ≤ r.max.toNat

/-- The range a pulse of actuator `i` must lie in during a serving run: the one in effect under the policy (R100), by
the static table, which such a run never changes (R105). -/
def servingRange (c : Config) (i : Byte) : Range :=
  match c.mapPolicy with
  | .perActuator => c.calTable.getD i.toNat ⟨0, 0⟩
  | .universal => ⟨c.umin, c.umax⟩

/-- The pulse `ACT_OUT[i]` must show for an output history: the latest one written to `i` (R31). -/
def latestPulse (i : Nat) (hist : List (Byte × Pulse)) : Option Pulse :=
  (hist.reverse.find? (fun e => e.1.toNat == i)).map (fun e => e.2)

/-- What the HOST's loop state of a CONFIGURE in progress says of the controller (R84): it is disabled, the arguments
are legal, and what the sub-steps behind it wrote is there. -/
def configureHolds (s : State) : Prop :=
  match s.prog with
  | .configure next addr sda scl =>
    s.en = false ∧ addr.toNat ≤ 0x7F ∧ sda ≠ scl ∧
      sda ∈ s.cfg.sdaPins ∧ scl ∈ s.cfg.sclPins ∧
      (match next with
        | .clearSaddr => True
        | .setSaddr => s.saddr = 0 ∧ s.cfgd.saddr = true
        | .writeSda => s.saddr = addr.zeroExtend 10 ∧ s.cfgd.saddr = true
        | .writeScl =>
          s.saddr = addr.zeroExtend 10 ∧ s.cfgd.saddr = true ∧ s.sdaSel = sda ∧ s.cfgd.sda = true
        | .enable =>
          s.saddr = addr.zeroExtend 10 ∧ s.cfgd.complete = true ∧ s.sdaSel = sda ∧ s.sclSel = scl)
  | _ => True

/-- What holds of the I2C slave controller in every state a run reaches. -/
structure BusInvariant (s : State) : Prop where
  /-- The FIFO never holds more than its capacity (R21, R22). -/
  fifoBound : s.rxf.length ≤ s.cfg.rxFifoDepth
  /-- The controller is enabled only fully configured, with two different pins (R70, R146). -/
  enabledConfigured : s.en = true → s.cfgd.complete = true ∧ s.sdaSel ≠ s.sclSel
  /-- A pin written since reset is an allowed one (R75). -/
  sdaAllowed : s.cfgd.sda = true → s.sdaSel ∈ s.cfg.sdaPins
  /-- A pin written since reset is an allowed one (R75). -/
  sclAllowed : s.cfgd.scl = true → s.sclSel ∈ s.cfg.sclPins
  /-- While the controller is disabled, `XFER` is IDLE or OTHER (R70). -/
  activeEnabled : activity s = true → s.en = true
  /-- A transfer is active only where the filter holds a 7-bit address (R71, R116). -/
  activeAddress : activity s = true → s.saddr.toNat < 128
  /-- A CONFIGURE in progress is as its sub-steps left it (R84). -/
  configuring : configureHolds s

/-- What holds of the mode, the calibration table and the outputs in every state a run reaches. -/
structure OutputInvariant (s : State) : Prop where
  /-- The configuration is well formed (R11). -/
  cfgWf : s.cfg.wf = true
  /-- `MODE` is the one reset selected (R27). -/
  modeFixed : s.mode = resetMode s.cfg
  /-- Outside FATAL the table has an entry for every actuator (R25, R140). -/
  ctLength : s.mode ≠ .fatal → s.ct.length = s.cfg.nAct
  /-- Every entry has `min < max` (R25). -/
  ctWf : s.ct.all Range.wf = true
  /-- Outside CALIBRATING the table is as reset loaded it (R105). -/
  ctServing : s.mode = .serving → s.ct = s.cfg.calTable
  /-- Only the reference actuator's entry ever changes (R105). -/
  ctOthers : s.mode ≠ .fatal → ∀ i, i ≠ s.cfg.refIndex → s.ct[i]? = s.cfg.calTable[i]?
  /-- One output entry an actuator (R31). -/
  actLength : s.actOut.length = s.cfg.nAct
  /-- No pulse was written to an actuator that does not exist (R114). -/
  histIndex : ∀ e ∈ s.outHist, e.1.toNat < s.cfg.nAct
  /-- `ACT_OUT` shows the latest pulse of each actuator (R31). -/
  actLatest : ∀ i, i < s.cfg.nAct → s.actOut[i]? = some (latestPulse i s.outHist)
  /-- A pulse is written only in SERVING (R111, R112, R125). -/
  histServing : s.outHist ≠ [] → s.mode = .serving
  /-- Every pulse written lies in its actuator's range (R107). -/
  histRange : ∀ e ∈ s.outHist, rangeHolds (servingRange s.cfg e.1) e.2
  /-- `LAST_OUTCOME` holds a code of the table (R123). -/
  outcomeCode : s.lastOutcome ∈ outcomeCodes
  /-- An I2C_STEP in progress began in SERVING on the I2C bus (R112). -/
  stepServing : ∀ f bs, s.prog = .i2cDrain f bs ∨ s.prog = .i2cFinish f bs →
    s.mode = .serving ∧ s.cfg.busSel = .i2c

end Sys2Proof.Machine
end

