-- ==== Sys2Proof/Certificates/Slice0/Obligations.lean ====
section
/-! DEFINITION. The statements about the block, one def an obligation; OBLIGATIONS.json lists them with the rules each
formalises. -/


open Sys2Proof Sys2Proof.Machine

/-! Encoding. -/

/-- Every well-formed instruction decodes from its own bytes, on the operation port whatever follows them (R54 to
R60). -/
def Obligations.DecodeInvertsEncode : Prop :=
  ∀ (i : Instr) (rest : List Byte), i.wellFormed = true →
    (i.format = .op → decode .op (encode i ++ rest) = .ok i rest) ∧
    decode i.format (encode i) = .ok i []

/-- Every word that decodes has one meaning: it is its instruction's own bytes, the rest is what followed, and the
instruction is well formed and of that format (R54 to R60). -/
def Obligations.EncodeInvertsDecode : Prop :=
  ∀ (f : Format) (bs rest : List Byte) (i : Instr), decode f bs = .ok i rest →
    i.format = f ∧ i.wellFormed = true ∧ encode i ++ rest = bs

/-- Words written out from R54, R57 and R60 decode to the operations they stand for (the bytes of 95_test_vectors.md
V1, V13, V32, V37, V40 and programs P1 to P3). -/
def Obligations.ListedWordsDecode : Prop :=
  decode .frame16 [0xFF, 0x04, 0x0C, 0x08, 0x0E, 0x05, 0x08, 0xAA, 0, 0, 0, 0, 0x11, 0x05, 0xC8, 0x0A] =
      .ok (.frameActuatorCmd ⟨0xAA, 0, 0, 0, 0, 0x11⟩ 5 200) [] ∧
    decode .pair2 [0x03, 0x80] = .ok (.i2cPair 3 128) [] ∧
    decode .op [0x01, 0x02, 0xFF, 0x04] = .ok (.decode [0xFF, 0x04]) [] ∧
    decode .op [0x12, 0x04, 0x08, 0x07, 0x00, 0x80] = .ok (.setBits 0x04 0x80000708) [] ∧
    decode .op [0x20, 0x08, 0x04, 0x05, 0x23] = .ok (.configure 8 4 5) [0x23] ∧
    decode .op [0x31, 0x00, 0x84, 0x03, 0x34, 0x08] = .ok (.calWr 0 900 2100) [] ∧
    decode .op [0x40, 0x01] = .ok (.serialStep .err) [] ∧
    decode .op [0x41, 0x00] = .ok (.i2cStep false) [] ∧
    decode .op [0x80, 0x88] = .ok (.busStart 8 .read) []

/-- Issuing a reserved opcode raises BAD_OPCODE and changes nothing else: the reserved ranges are R61's, and the rest
of the machine is as it was but for the word and the turn used up, which are the model's (log entries 5 and 6). -/
def Obligations.ReservedOpcodeRaisesBadOpcode : Prop :=
  ∀ (s : State) (opc : Byte) (bs : List Byte) (ws : List PortWord),
    Issues s ⟨.op, opc :: bs⟩ ws →
    (opc.toNat = 0 ∨ (0x02 ≤ opc.toNat ∧ opc.toNat ≤ 0x0F) ∨ (0x15 ≤ opc.toNat ∧ opc.toNat ≤ 0x1F) ∨
      (0x24 ≤ opc.toNat ∧ opc.toNat ≤ 0x2F) ∨ (0x33 ≤ opc.toNat ∧ opc.toNat ≤ 0x3F) ∨
      (0x42 ≤ opc.toNat ∧ opc.toNat ≤ 0x7F) ∨ 0x84 ≤ opc.toNat) →
    step s = .next { useTurn s with fault := some .badOpcode, port := ws }

/-- Issuing a malformed operation raises BAD_OPERAND and changes nothing else: bytes that end before the operation
does, a serial status or an I2C fault draw other than 0 and 1, and a configured address with bit 7 set (R62). The
word and the turn used up are the model's (log entries 5 and 6). -/
def Obligations.MalformedOperandsRaiseBadOperand : Prop :=
  ∀ (s : State) (bs : List Byte) (ws : List PortWord), Issues s ⟨.op, bs⟩ ws →
    ((∃ i k, i.format = .op ∧ i.wellFormed = true ∧ 0 < k ∧ k < i.size ∧ bs = (encode i).take k) ∨
      (∃ st tl, st ≠ 0x00 ∧ st ≠ 0x01 ∧ bs = 0x40 :: st :: tl) ∨
      (∃ f tl, f ≠ 0x00 ∧ f ≠ 0x01 ∧ bs = 0x41 :: f :: tl) ∨
      (∃ addr sda scl tl, 0x80 ≤ BitVec.toNat addr ∧ bs = 0x20 :: addr :: sda :: scl :: tl)) →
    step s = .next { useTurn s with fault := some .badOperand, port := ws }

/-! The frame decoder. -/

/-- The frame decoder accepts a buffer exactly when its length is 16 and `frame AND MASK = MATCH` (R55, R99), and the
decoder of the frame format gives the instruction with just the operands that FD extracts. -/
def Obligations.FrameAcceptedIffPatternMatches : Prop :=
  ∀ buf : List Byte,
    ((∃ index raw rsv, frameDecode buf = .accepted index raw rsv) ↔
      (buf.length = 16 ∧ List.zipWith (fun b m => b &&& m) buf frameMask = frameMatch)) ∧
    (∀ index value rsv,
      decode .frame16 buf = .ok (.frameActuatorCmd rsv index value) [] ↔
        frameDecode buf = .accepted index value rsv)


/-- Which reason a buffer is rejected for, the first check of the order that fails (R90 to R95), and the reasons' codes
(R89). -/
def Obligations.FrameRejectedForFirstFailedCheck : Prop :=
  (∀ buf : List Byte,
    (frameDecode buf = .rejected .sizeMismatch ↔ buf.length ≠ 16) ∧
    (frameDecode buf = .rejected .badSentinel ↔ buf.length = 16 ∧ buf[0]? ≠ some 0xFF) ∧
    (frameDecode buf = .rejected .badTerminator ↔
      buf.length = 16 ∧ buf[0]? = some 0xFF ∧ buf[15]? ≠ some 0x0A) ∧
    (frameDecode buf = .rejected .badHeader ↔
      buf.length = 16 ∧ buf[0]? = some 0xFF ∧ buf[15]? = some 0x0A ∧
        ¬(buf[1]? = some 0x04 ∧ buf[2]? = some 0x0C ∧ buf[3]? = some 0x08 ∧ buf[4]? = some 0x0E)) ∧
    (frameDecode buf = .rejected .badCommand ↔
      buf.length = 16 ∧ buf[0]? = some 0xFF ∧ buf[15]? = some 0x0A ∧
        (buf[1]? = some 0x04 ∧ buf[2]? = some 0x0C ∧ buf[3]? = some 0x08 ∧ buf[4]? = some 0x0E) ∧
        ¬(buf[5]? = some 0x05 ∧ buf[6]? = some 0x08))) ∧
  RejectReason.code .sizeMismatch = 0x01 ∧ RejectReason.code .badSentinel = 0x02 ∧
    RejectReason.code .badTerminator = 0x03 ∧ RejectReason.code .badHeader = 0x04 ∧
    RejectReason.code .badCommand = 0x05


/-- A frame is accepted whatever its reserved bytes are, its payload is extracted and the reserved bytes are carried
out unchanged (R63, R96, R97); that the frame as an instruction returns that result and writes no state is the model's
reading (log entry 7). -/
def Obligations.FrameYieldsItsPayload : Prop :=
  ∀ (rsv : Rsv) (index value : Byte) (s : State),
    frameDecode (frameBytes rsv index value) = .accepted index value rsv ∧
    exec (.frameActuatorCmd rsv index value) s =
      .next { s with ret := .decoded (.accepted index value rsv) }

/-- The frame as an instruction completes in every state, for every index, value and reserved bytes: `exec` answers the
same state with FD's result returned, and so does the step that issues a frame word, with the word and one turn used up
(log entries 5, 6 and 7). -/
def Obligations.FrameInstructionCompletes : Prop :=
  ∀ (s : State) (rsv : Rsv) (index value : Byte),
    exec (.frameActuatorCmd rsv index value) s = .next { s with ret := .decoded (.accepted index value rsv) } ∧
    (∀ ws, Issues s ⟨.frame16, encode (.frameActuatorCmd rsv index value)⟩ ws →
      step s = .next { useTurn s with port := ws, ret := .decoded (.accepted index value rsv) })

/-- DECODE returns FD's result for its buffer and writes no state, in every mode; the result is the same in every
state (R34, R98). -/
def Obligations.DecodeReturnsFrameResult : Prop :=
  ∀ (buf : List Byte) (s : State),
    exec (.decode buf) s = .next { s with ret := .decoded (frameDecode buf) }

/-- Changing any one byte of a valid frame's fixed fields rejects it, for the reason of the field that was changed (the
source's property, 95_test_vectors.md V2). -/
def Obligations.OneWrongByteRejectsFrame : Prop :=
  ∀ (rsv : Rsv) (index value x : Byte) (p : Nat),
    let buf := frameBytes rsv index value
    buf[p]? ≠ some x →
    (p = 0 → frameDecode (buf.set p x) = .rejected .badSentinel) ∧
    (p = 15 → frameDecode (buf.set p x) = .rejected .badTerminator) ∧
    (1 ≤ p → p < 5 → frameDecode (buf.set p x) = .rejected .badHeader) ∧
    (5 ≤ p → p < 7 → frameDecode (buf.set p x) = .rejected .badCommand)

/-! The register window. -/

/-- IC_STATUS reads as RFNE in bit 0, TX_ABRT in bit 1 and ACTIVITY in bit 2, with no effect, and a write of it faults
ACCESS (R24, R72). -/
def Obligations.StatusRegisterShowsTheFlags : Prop :=
  ∀ (s : State) (w : Word),
    (∃ v : Word, exec (.rd 0x08) s = .next { s with ret := .word v } ∧
      v.toNat = (if s.rxf = [] then 0 else 1) + (if s.txAbrt then 2 else 0) +
        (if s.xfer = .wrMatched ∨ s.xfer = .rdMatched then 4 else 0)) ∧
    exec (.wr 0x08 w) s = .next (raiseFault .access s)


/-- IC_DATA_CMD: a read with a byte waiting returns that byte in bits [7:0] and takes it from the FIFO; with none it
returns a draw and the FIFO is unchanged; a write faults ACCESS (R73). Bits that the rule leaves to a draw are any
value; one draw is taken (log entry 3). -/
def Obligations.DataRegisterPopsOldestByte : Prop :=
  ∀ (s : State) (w : Word),
    (∀ b q, s.rxf = b :: q → ∃ v : Word, v.extractLsb' 0 8 = b ∧
      exec (.rd 0x0C) s = .next { s with rxf := q, draws := s.draws + 1, ret := .word v }) ∧
    (s.rxf = [] → ∃ v : Word, exec (.rd 0x0C) s = .next { s with draws := s.draws + 1, ret := .word v }) ∧
    exec (.wr 0x0C w) s = .next (raiseFault .access s)


/-- A register access at an offset that is not a multiple of 4, or beyond the window, raises BAD_OFFSET and accesses
nothing; a read at each of the seven mapped offsets does not (R43). -/
def Obligations.UnmappedOffsetRaisesBadOffset : Prop :=
  ∀ (s : State) (off : Byte) (v : Word),
    ((off.toNat % 4 ≠ 0 ∨ 0x1C ≤ off.toNat) →
      exec (.rd off) s = .next (raiseFault .badOffset s) ∧
      exec (.wr off v) s = .next (raiseFault .badOffset s) ∧
      exec (.setBits off v) s = .next (raiseFault .badOffset s) ∧
      exec (.clrBits off v) s = .next (raiseFault .badOffset s) ∧
      exec (.tglBits off v) s = .next (raiseFault .badOffset s)) ∧
    (off.toNat % 4 = 0 → off.toNat < 0x1C → s.fault = none →
      ∀ i t, (i = .rd off ∨ i = .wr off v ∨ i = .setBits off v ∨ i = .clrBits off v ∨ i = .tglBits off v) →
        exec i s = .next t → t.fault ≠ some .badOffset)


/-- IC_ENABLE (R70): it reads as EN; a write goes case by case: reserved bits, enabling (unconfigured, equal pins,
allowed), disabling (during a transfer, allowed, with the flush where the parameter says so), and the value already
there; and where the bus invariant holds, a disabled controller has no active transfer. -/
def Obligations.EnableRegisterFollowsItsChecks : Prop :=
  ∀ (s : State) (v : Word),
    exec (.rd 0x00) s = .next { s with ret := .word (if s.en then 1 else 0) } ∧
    (2 ≤ v.toNat → exec (.wr 0x00 v) s = .next (raiseFault .reservedBits s)) ∧
    (v = 1 → s.en = false → s.cfgd ≠ ⟨true, true, true⟩ →
      exec (.wr 0x00 v) s = .next (raiseFault .unconfigured s)) ∧
    (v = 1 → s.en = false → s.cfgd = ⟨true, true, true⟩ → s.sdaSel = s.sclSel →
      exec (.wr 0x00 v) s = .next (raiseFault .configArg s)) ∧
    (v = 1 → s.en = false → s.cfgd = ⟨true, true, true⟩ → s.sdaSel ≠ s.sclSel →
      exec (.wr 0x00 v) s = .next { s with en := true, ret := .done }) ∧
    (v = 0 → s.en = true → (s.xfer = .wrMatched ∨ s.xfer = .rdMatched) →
      exec (.wr 0x00 v) s = .next (raiseFault .disableDuringTransfer s)) ∧
    (v = 0 → s.en = true → s.xfer ≠ .wrMatched → s.xfer ≠ .rdMatched →
      exec (.wr 0x00 v) s =
        .next { s with en := false, rxf := if s.cfg.rxFlushOnDisable then [] else s.rxf, ret := .done }) ∧
    (v = 1 → s.en = true → exec (.wr 0x00 v) s = .next { s with ret := .done }) ∧
    (v = 0 → s.en = false → exec (.wr 0x00 v) s = .next { s with ret := .done }) ∧
    (BusInvariant s → s.en = false → s.xfer = .idle ∨ s.xfer = .other)


/-- IC_SADDR (R71): it reads as the 10-bit field; a write goes case by case; and a filter above seven bits matches no
bus address. -/
def Obligations.SaddrRegisterFollowsItsChecks : Prop :=
  ∀ (s : State) (v : Word),
    exec (.rd 0x04) s = .next { s with ret := .word (s.saddr.zeroExtend 32) } ∧
    (0x400 ≤ v.toNat → exec (.wr 0x04 v) s = .next (raiseFault .reservedBits s)) ∧
    (v.toNat < 0x400 → s.en = true → exec (.wr 0x04 v) s = .next (raiseFault .writeWhileEnabled s)) ∧
    (v.toNat < 0x400 → s.en = false →
      exec (.wr 0x04 v) s =
        .next { s with saddr := v.extractLsb' 0 10, cfgd := { s.cfgd with saddr := true }, ret := .done }) ∧
    (128 ≤ s.saddr.toNat → ∀ addr dir, exec (.busStart addr dir) s = .next { s with xfer := .other })


/-- IO_SDA_SEL and IO_SCL_SEL (R75): each reads as its pin, and a write goes case by case. -/
def Obligations.PinRegistersFollowTheirChecks : Prop :=
  ∀ (s : State) (v : Word),
    exec (.rd 0x14) s = .next { s with ret := .word (s.sdaSel.zeroExtend 32) } ∧
    exec (.rd 0x18) s = .next { s with ret := .word (s.sclSel.zeroExtend 32) } ∧
    (0x100 ≤ v.toNat →
      exec (.wr 0x14 v) s = .next (raiseFault .reservedBits s) ∧
      exec (.wr 0x18 v) s = .next (raiseFault .reservedBits s)) ∧
    (v.toNat < 0x100 → s.en = true →
      exec (.wr 0x14 v) s = .next (raiseFault .writeWhileEnabled s) ∧
      exec (.wr 0x18 v) s = .next (raiseFault .writeWhileEnabled s)) ∧
    (v.toNat < 0x100 → s.en = false → v.extractLsb' 0 8 ∉ s.cfg.sdaPins →
      exec (.wr 0x14 v) s = .next (raiseFault .configArg s)) ∧
    (v.toNat < 0x100 → s.en = false → v.extractLsb' 0 8 ∉ s.cfg.sclPins →
      exec (.wr 0x18 v) s = .next (raiseFault .configArg s)) ∧
    (v.toNat < 0x100 → s.en = false → v.extractLsb' 0 8 ∈ s.cfg.sdaPins →
      exec (.wr 0x14 v) s =
        .next { s with sdaSel := v.extractLsb' 0 8, cfgd := { s.cfgd with sda := true }, ret := .done }) ∧
    (v.toNat < 0x100 → s.en = false → v.extractLsb' 0 8 ∈ s.cfg.sclPins →
      exec (.wr 0x18 v) s =
        .next { s with sclSel := v.extractLsb' 0 8, cfgd := { s.cfgd with scl := true }, ret := .done })


/-- IC_CLR_TX_ABRT (R74): a written 1 clears TX_ABRT, a 0 changes nothing, a reserved bit faults, and a read faults
ACCESS. -/
def Obligations.ClearAbortRegisterClearsTheFlag : Prop :=
  ∀ (s : State) (v : Word),
    (2 ≤ v.toNat → exec (.wr 0x10 v) s = .next (raiseFault .reservedBits s)) ∧
    (v = 1 → exec (.wr 0x10 v) s = .next { s with txAbrt := false, ret := .done }) ∧
    (v = 0 → exec (.wr 0x10 v) s = .next { s with ret := .done }) ∧
    exec (.rd 0x10) s = .next (raiseFault .access s)


/-- SET, CLR and TGL (R78, R81, R82, R83): an unmapped offset faults BAD_OFFSET, a register that is not read-write faults
ACCESS, and on a read-write register each does, in one step, what WR does with the value RD returns OR the mask, AND NOT
the mask, and XOR the mask. That CLR does so too for a mask with a reserved bit set is R82 followed over R64 (log entry
13, DEDUCED). -/
def Obligations.ReadModifyWriteIsWriteOfNewValue : Prop :=
  ∀ (s : State) (off : Byte) (m : Word),
    ((off.toNat % 4 ≠ 0 ∨ 0x1C ≤ off.toNat) →
      exec (.setBits off m) s = .next (raiseFault .badOffset s) ∧
      exec (.clrBits off m) s = .next (raiseFault .badOffset s) ∧
      exec (.tglBits off m) s = .next (raiseFault .badOffset s)) ∧
    ((off = 0x08 ∨ off = 0x0C ∨ off = 0x10) →
      exec (.setBits off m) s = .next (raiseFault .access s) ∧
      exec (.clrBits off m) s = .next (raiseFault .access s) ∧
      exec (.tglBits off m) s = .next (raiseFault .access s)) ∧
    ((off = 0x00 ∨ off = 0x04 ∨ off = 0x14 ∨ off = 0x18) →
      ∃ old, exec (.rd off) s = .next { s with ret := .word old } ∧
        exec (.setBits off m) s = exec (.wr off (old ||| m)) s ∧
        exec (.clrBits off m) s = exec (.wr off (old &&& ~~~m)) s ∧
        exec (.tglBits off m) s = exec (.wr off (old ^^^ m)) s)


/-- SET, CLR and TGL of the target-address filter while the controller is disabled: the field's new value, and the
register is marked written. A mask bit above the field faults SET and TGL and does not fault CLR (R81, R82, R83;
log entry 13). -/
def Obligations.ReadModifyWriteOfSaddrCompletes : Prop :=
  ∀ (s : State) (m : Word), s.en = false →
    (m.toNat < 0x400 →
      exec (.setBits 0x04 m) s =
        .next { s with saddr := s.saddr ||| m.extractLsb' 0 10, cfgd := { s.cfgd with saddr := true }, ret := .done } ∧
      exec (.tglBits 0x04 m) s =
        .next { s with saddr := s.saddr ^^^ m.extractLsb' 0 10, cfgd := { s.cfgd with saddr := true }, ret := .done }) ∧
    (0x400 ≤ m.toNat →
      exec (.setBits 0x04 m) s = .next (raiseFault .reservedBits s) ∧
      exec (.tglBits 0x04 m) s = .next (raiseFault .reservedBits s)) ∧
    exec (.clrBits 0x04 m) s =
      .next { s with saddr := s.saddr &&& ~~~(m.extractLsb' 0 10), cfgd := { s.cfgd with saddr := true }, ret := .done }

/-! The driver operations. -/

/-- CONFIGURE's checks in their order, each raising its Fault and changing nothing else (R84, R128). -/
def Obligations.ConfigureChecksItsArguments : Prop :=
  ∀ (s : State) (addr sda scl : Byte),
    (0x80 ≤ addr.toNat → exec (.configure addr sda scl) s = .next (raiseFault .badOperand s)) ∧
    (addr.toNat < 0x80 → (sda = scl ∨ sda ∉ s.cfg.sdaPins ∨ scl ∉ s.cfg.sclPins) →
      exec (.configure addr sda scl) s = .next (raiseFault .configArg s)) ∧
    (addr.toNat < 0x80 → sda ≠ scl → sda ∈ s.cfg.sdaPins → scl ∈ s.cfg.sclPins →
      (s.xfer = .wrMatched ∨ s.xfer = .rdMatched) →
      exec (.configure addr sda scl) s = .next (raiseFault .configDuringTransfer s))

/-- CONFIGURE: its first step disables the controller, and after six undisturbed steps the controller is enabled at the
address with the pins, all three registers are marked written, TX_ABRT is as it was, and the FIFO is flushed where the
controller was enabled and the parameter says so (R84). The loop state and the port are the model's (log entries 5 and
10). -/
def Obligations.ConfigureEnablesTheController : Prop :=
  ∀ (s : State) (addr sda scl : Byte) (rest : List Byte) (ws : List PortWord),
    addr.toNat < 0x80 → sda ≠ scl → sda ∈ s.cfg.sdaPins → scl ∈ s.cfg.sclPins →
    s.xfer ≠ .wrMatched → s.xfer ≠ .rdMatched →
    (∃ t, exec (.configure addr sda scl) s = .next t ∧
      t = { s with en := false, rxf := (if s.en = true ∧ s.cfg.rxFlushOnDisable = true then [] else s.rxf),
                   prog := .configure .clearSaddr addr sda scl }) ∧
    (Issues s ⟨.op, encode (.configure addr sda scl) ++ rest⟩ ws → Undisturbed s →
      runSteps 6 s =
        .next { s with
          en := true
          saddr := addr.zeroExtend 10
          sdaSel := sda
          sclSel := scl
          cfgd := ⟨true, true, true⟩
          rxf := if s.en = true ∧ s.cfg.rxFlushOnDisable = true then [] else s.rxf
          ret := .done
          port := remaining rest ws })

/-- CONFIGURE is idempotent: issued twice in a row with the same legal arguments and no active transfer, undisturbed, both
complete without a Fault, and the second leaves every register as the first left it (R84). -/
def Obligations.ConfigureIsIdempotent : Prop :=
  ∀ (s : State) (addr sda scl : Byte) (rest : List Byte) (ws : List PortWord),
    addr.toNat < 0x80 → sda ≠ scl → sda ∈ s.cfg.sdaPins → scl ∈ s.cfg.sclPins →
    s.xfer ≠ .wrMatched → s.xfer ≠ .rdMatched →
    Issues s ⟨.op, encode (.configure addr sda scl) ++ (encode (.configure addr sda scl) ++ rest)⟩ ws → Undisturbed s →
    ∃ t u, runSteps 6 s = .next t ∧ t.fault = none ∧ t.prog = .idle ∧
      runSteps 12 s = .next u ∧ u.fault = none ∧ u.prog = .idle ∧
      u.en = t.en ∧ u.saddr = t.saddr ∧ u.sdaSel = t.sdaSel ∧ u.sclSel = t.sclSel ∧ u.cfgd = t.cfgd ∧
      u.txAbrt = t.txAbrt ∧ u.xfer = t.xfer

/-- HAS_DATA returns whether a received byte is waiting, and changes nothing else; a later MASTER step makes a true
answer no less true; it is encoded as 0x21 (R85). -/
def Obligations.HasDataTestsTheFifo : Prop :=
  encode .hasData = [0x21] ∧ ∀ s : State,
    exec .hasData s = .next { s with ret := .flag (decide (s.rxf ≠ [])) } ∧
    (∀ e t, s.rxf ≠ [] → exec (BusEvent.toInstr e) s = .next t → t.rxf ≠ [])


/-- DRAIN: its first step returns at once with the FIFO empty, else takes the oldest byte; undisturbed, one step more
than there are bytes returns them all in arrival order and leaves the FIFO empty (R86). The draw counter, the port and the
loop state are the model's (log entries 3, 5 and 10). -/
def Obligations.DrainReturnsEveryByte : Prop :=
  ∀ (s : State) (rest : List Byte) (ws : List PortWord),
    (s.rxf = [] → exec .drain s = .next { s with prog := .idle, ret := .bytes [] }) ∧
    (∀ b q, s.rxf = b :: q →
      exec .drain s = .next { s with rxf := q, draws := s.draws + 1, prog := .drain [b] }) ∧
    (Issues s ⟨.op, encode .drain ++ rest⟩ ws → Undisturbed s →
      runSteps (s.rxf.length + 1) s =
        .next { s with
          rxf := []
          draws := s.draws + s.rxf.length
          ret := .bytes s.rxf
          port := remaining rest ws })

/-- An iteration of DRAIN is its expansion into register reads (R67, R86): the status read finds no byte and the iteration
takes none, or it finds one and the iteration takes the low 8 bits of the data read and leaves the state that read
leaves. -/
def Obligations.DrainReadsThroughTheRegisters : Prop :=
  ∀ s : State, ∃ v : Word, regRead 0x08 s = .ok (v, s) ∧
    (v.getLsbD 0 = false → drainRead s = none) ∧
    (v.getLsbD 0 = true →
      ∃ (w : Word) (t : State), regRead 0x0C s = .ok (w, t) ∧ drainRead s = some (w.extractLsb' 0 8, t))

/-- A byte the MASTER stores between two iterations of a DRAIN is included in what it returns (R86; log
entries 6 and 10). -/
def Obligations.DrainIncludesBytesStoredMeanwhile : Prop :=
  ∀ (s : State) (result : List Byte) (b : Byte) (es : List BusEvent),
    s.cfg.wf = true → s.fault = none → s.prog = .drain result →
    s.xfer = .wrMatched → s.txAbrt = false → s.rxf.length < s.cfg.rxFifoDepth →
    s.master = .byte b :: es → s.turns = [.master] → s.turnsAfter = .none →
    ∃ t, runSteps (s.rxf.length + 3) s = .next t ∧
      t.ret = .bytes (result ++ s.rxf ++ [b]) ∧ t.rxf = [] ∧ t.prog = .idle ∧ t.master = es ∧ t.fault = none

/-- DRAIN, and the DRAIN inside an I2C_STEP, against two MASTERs (R86, R150): with one that has finitely many steps left,
it returns whatever the turns are, within the bound given; with one that stores a byte between every two iterations
without end, as fast as DRAIN pops them, it never returns. Nothing is said of an endless MASTER that stores more slowly or
not at all (the turns and the MASTER's steps are log entry 6, the loop state log entry 10). -/
def Obligations.DrainEndsWithMasterNotUnderRefill : Prop :=
  (∀ s : State, s.cfg.wf = true → s.fault = none →
    ((∃ r, s.prog = .drain r) ∨ (∃ f r, s.prog = .i2cDrain f r)) → s.masterAfter = .none →
    ∃ n t, n ≤ 2 * s.master.length + s.rxf.length + 2 ∧ runSteps n s = .next t ∧ t.prog = .idle ∧ t.fault = none) ∧
  (∀ (s : State) (b : Byte), s.cfg.wf = true → s.fault = none → s.xfer = .wrMatched → s.txAbrt = false →
    s.rxf ≠ [] → s.rxf.length ≤ s.cfg.rxFifoDepth →
    s.master = [] → s.masterAfter = .again [.byte b] → s.turns = [] → s.turnsAfter = .again [.host, .master] →
    ∀ n,
      ((∃ r, s.prog = .drain r) → ∃ t r, runSteps n s = .next t ∧ t.prog = .drain r) ∧
      (∀ f, (∃ r, s.prog = .i2cDrain f r) → ∃ t r, runSteps n s = .next t ∧ t.prog = .i2cDrain f r))

/-- ACK_ABORT clears TX_ABRT and changes nothing else; a BUS_TX_ABORT after it sets the flag again; it is encoded as 0x23
(R87). -/
def Obligations.AckAbortClearsTheFlag : Prop :=
  encode .ackAbort = [0x23] ∧ ∀ s : State,
    exec .ackAbort s = .next { s with txAbrt := false, ret := .done } ∧
    (∀ t u, exec .ackAbort s = .next t → exec .busTxAbort t = .next u → u.txAbrt = true)


/-- PAIR under each policy (R88): a drain of two bytes is one command under all three, EXACT2 takes no other length,
FIRST2 takes the first two bytes of any longer one, and PAIRS takes every two bytes and drops an odd last one. -/
def Obligations.PairExtractionFollowsThePolicy : Prop :=
  ∀ seq : List Byte,
    (∀ p, ∀ index raw : Byte, pairCommands p [index, raw] = [⟨index, raw⟩]) ∧
    (seq.length ≠ 2 → pairCommands .exact2 seq = []) ∧
    (seq.length < 2 → pairCommands .first2 seq = []) ∧
    (∀ (index raw : Byte) (tl : List Byte), seq = index :: raw :: tl →
      pairCommands .first2 seq = [⟨index, raw⟩]) ∧
    (pairCommands .pairs seq).length = seq.length / 2 ∧
    (∀ k, k < seq.length / 2 →
      (pairCommands .pairs seq)[k]? = some ⟨seq.getD (2 * k) 0, seq.getD (2 * k + 1) 0⟩)

/-- The I2C pair as an instruction returns its one command under every policy, and writes no state (R88). -/
def Obligations.I2cPairYieldsItsCommand : Prop :=
  ∀ (index value : Byte) (s : State),
    exec (.i2cPair index value) s = .next { s with ret := .commands [⟨index, value⟩] }

/-! The value mapper. -/

/-- MAP (R100, R103, R104): MODE in FATAL, then MAP_INDEX for an index that does not exist; otherwise the pulse
`lo + floor(raw * (hi - lo) / 255)` of the range in effect, and under PER_ACTUATOR no pulse where that is 0. -/
def Obligations.MapReturnsScaledPulse : Prop :=
  ∀ (s : State) (idx raw : Byte) (r : Range),
    let p := r.min.toNat + raw.toNat * (r.max.toNat - r.min.toNat) / 255
    (s.mode = .fatal → exec (.mapRaw idx raw) s = .next (raiseFault .mode s)) ∧
    (s.mode ≠ .fatal → s.cfg.nAct ≤ idx.toNat → exec (.mapRaw idx raw) s = .next (raiseFault .mapIndex s)) ∧
    (s.mode ≠ .fatal → idx.toNat < s.cfg.nAct → r.wf = true → s.cfg.mapPolicy = .perActuator →
      s.ct[idx.toNat]? = some r →
      exec (.mapRaw idx raw) s =
        .next { s with ret := .mapped (if p = 0 then .noOp else .pulse (BitVec.ofNat 16 p)) }) ∧
    (s.mode ≠ .fatal → idx.toNat < s.cfg.nAct → r.wf = true → s.cfg.mapPolicy = .universal →
      r = ⟨s.cfg.umin, s.cfg.umax⟩ →
      exec (.mapRaw idx raw) s = .next { s with ret := .mapped (.pulse (BitVec.ofNat 16 p)) })


/-- The two properties of R107, of every MAP that returns: a pulse lies within the range in effect, 255 maps to `hi`, and
0 maps to `lo`, or under PER_ACTUATOR with `lo = 0` to no pulse. -/
def Obligations.MapResultStaysInRange : Prop :=
  ∀ (s : State) (idx raw : Byte) (r : Range), s.mode ≠ .fatal → idx.toNat < s.cfg.nAct → r.wf = true →
    ((s.cfg.mapPolicy = .perActuator ∧ s.ct[idx.toNat]? = some r) ∨
      (s.cfg.mapPolicy = .universal ∧ r = ⟨s.cfg.umin, s.cfg.umax⟩)) →
    ∃ m, exec (.mapRaw idx raw) s = .next { s with ret := .mapped m } ∧
      (∀ p, m = .pulse p → rangeHolds r p) ∧
      (raw = 255 → m = .pulse r.max) ∧
      (raw = 0 → (s.cfg.mapPolicy = .perActuator ∧ r.min = 0 → m = .noOp) ∧
        (¬(s.cfg.mapPolicy = .perActuator ∧ r.min = 0) → m = .pulse r.min))

/-- The map's arithmetic (R101, R102): for `lo < hi` the mapped value is `lo + floor(raw * span / 255)`, the clamp never
changes it, it never decreases as the raw byte grows, and it is exact where 255 divides the product. -/
def Obligations.MappedPulseNeverDecreases : Prop :=
  ∀ (lo hi : Pulse) (raw raw' : Byte), lo.toNat < hi.toNat →
    let p := mapPulse .floor lo.toNat hi.toNat raw.toNat
    p = lo.toNat + raw.toNat * (hi.toNat - lo.toNat) / 255 ∧
    lo.toNat ≤ p ∧ p ≤ hi.toNat ∧ clamp p lo.toNat hi.toNat = p ∧
    (raw = 0 → p = lo.toNat) ∧ (raw = 255 → p = hi.toNat) ∧
    (raw.toNat ≤ raw'.toNat → p ≤ mapPulse .floor lo.toNat hi.toNat raw'.toNat) ∧
    (raw.toNat * (hi.toNat - lo.toNat) % 255 = 0 →
      255 * (p - lo.toNat) = raw.toNat * (hi.toNat - lo.toNat))


/-- CAL_WR writes the reference actuator's range in CALIBRATING; in any other mode, for any other index and for a range
with `min ≥ max` it faults, in that order (R105, R128). -/
def Obligations.CalWrWritesOnlyTheReference : Prop :=
  ∀ (s : State) (idx : Byte) (min max : Pulse),
    (s.mode ≠ .calibrating → exec (.calWr idx min max) s = .next (raiseFault .calLocked s)) ∧
    (s.mode = .calibrating → idx.toNat ≠ s.cfg.refIndex →
      exec (.calWr idx min max) s = .next (raiseFault .calLocked s)) ∧
    (s.mode = .calibrating → idx.toNat = s.cfg.refIndex → max.toNat ≤ min.toNat →
      exec (.calWr idx min max) s = .next (raiseFault .calInvalid s)) ∧
    (s.mode = .calibrating → idx.toNat = s.cfg.refIndex → min.toNat < max.toNat →
      exec (.calWr idx min max) s = .next { s with ct := s.ct.set idx.toNat ⟨min, max⟩, ret := .done })

/-- CAL_RD returns the entry of an index below N_ACT outside FATAL, changing nothing else; otherwise it faults MODE, then
CAL_INDEX; it is encoded as 0x32 and the index (R106, R128). -/
def Obligations.CalRdReturnsTheEntry : Prop :=
  ∀ (s : State) (idx : Byte), encode (.calRd idx) = [0x32, idx] ∧
    (s.mode = .fatal → exec (.calRd idx) s = .next (raiseFault .mode s)) ∧
    (s.mode ≠ .fatal → s.cfg.nAct ≤ idx.toNat → exec (.calRd idx) s = .next (raiseFault .calIndex s)) ∧
    (∀ r, s.mode ≠ .fatal → idx.toNat < s.cfg.nAct → s.ct[idx.toNat]? = some r →
      exec (.calRd idx) s = .next { s with ret := .range r })

/-! The command path. -/

/-- SERIAL_STEP (R108, R110, R111): MODE outside SERVING, then BUS_SEL on the other bus; otherwise what each answer does.
Every outcome but ACCEPTED writes LAST_OUTCOME alone; ACCEPTED writes the pulse of the command's actuator too. -/
def Obligations.SerialStepTakesOneCommand : Prop :=
  ∀ s : State,
    (∀ answer, s.mode ≠ .serving → exec (.serialStep answer) s = .next (raiseFault .mode s)) ∧
    (∀ answer, s.mode = .serving → s.cfg.busSel = .i2c →
      exec (.serialStep answer) s = .next (raiseFault .busSel s)) ∧
    (s.mode = .serving → s.cfg.busSel = .serial →
      exec (.serialStep .err) s = .next { s with lastOutcome := 0x06, ret := .done } ∧
      (∀ buf reason, frameDecode buf = .rejected reason →
        exec (.serialStep (.ok buf)) s = .next { s with lastOutcome := RejectReason.code reason, ret := .done }) ∧
      (∀ buf index raw rsv, frameDecode buf = .accepted index raw rsv → s.cfg.nAct ≤ BitVec.toNat index →
        exec (.serialStep (.ok buf)) s = .next { s with lastOutcome := 0x07, ret := .done }) ∧
      (∀ buf index raw rsv, frameDecode buf = .accepted index raw rsv → BitVec.toNat index < s.cfg.nAct →
        mapValue s index raw = .noOp →
        exec (.serialStep (.ok buf)) s = .next { s with lastOutcome := 0x08, ret := .done }) ∧
      (∀ buf index raw rsv p, frameDecode buf = .accepted index raw rsv → BitVec.toNat index < s.cfg.nAct →
        mapValue s index raw = .pulse p →
        exec (.serialStep (.ok buf)) s =
          .next { s with
            lastOutcome := 0x10
            actOut := s.actOut.set (BitVec.toNat index) (some p)
            outHist := s.outHist ++ [(index, p)]
            ret := .done }))


/-- A frame on the serial bus sets its actuator (R55): with a calibrated range that does not start at 0, a SERIAL_STEP
whose answer is the frame of INDEX and VALUE writes the pulse scaled from VALUE to actuator INDEX, whatever the frame's
reserved bytes. -/
def Obligations.SerialFrameSetsItsActuator : Prop :=
  ∀ (s : State) (rsv : Rsv) (index value : Byte) (r : Range),
    s.mode = .serving → s.cfg.busSel = .serial → s.cfg.mapPolicy = .perActuator →
    index.toNat < s.cfg.nAct → s.ct[index.toNat]? = some r → r.wf = true → 1 ≤ r.min.toNat →
    exec (.serialStep (.ok (frameBytes rsv index value))) s =
      .next { s with
        lastOutcome := 0x10
        actOut := s.actOut.set index.toNat
          (some (BitVec.ofNat 16 (r.min.toNat + value.toNat * (r.max.toNat - r.min.toNat) / 255)))
        outHist := s.outHist ++
          [(index, BitVec.ofNat 16 (r.min.toNat + value.toNat * (r.max.toNat - r.min.toNat) / 255))]
        ret := .done }

/-- I2C_STEP (R112): MODE outside SERVING, then BUS_SEL on the other bus; otherwise its first step acknowledges a stale
abort, and undisturbed, three steps more than there are bytes acknowledge the abort, drain the FIFO, and report a read
fault, report no command, or process the drained commands in order. The draw counter, the
port and the loop state are the model's (log entries 3, 5 and 10). -/
def Obligations.I2cStepTakesTheDrainedCommands : Prop :=
  ∀ (s : State) (f : Bool) (rest : List Byte) (ws : List PortWord),
    (s.mode ≠ .serving → exec (.i2cStep f) s = .next (raiseFault .mode s)) ∧
    (s.mode = .serving → s.cfg.busSel = .serial → exec (.i2cStep f) s = .next (raiseFault .busSel s)) ∧
    (s.mode = .serving → s.cfg.busSel = .i2c →
      exec (.i2cStep f) s = .next { s with txAbrt := false, prog := .i2cDrain f [] } ∧
      (Issues s ⟨.op, encode (.i2cStep f) ++ rest⟩ ws → Undisturbed s →
        ∃ t, t = { s with
              txAbrt := false
              rxf := []
              draws := s.draws + s.rxf.length
              port := remaining rest ws } ∧
          (f = true →
            runSteps (s.rxf.length + 3) s =
              .next { t with lastOutcome := 0x06, ret := .done }) ∧
          (f = false → pairCommands s.cfg.pairPolicy s.rxf = [] →
            runSteps (s.rxf.length + 3) s =
              .next { t with lastOutcome := 0x09, ret := .done }) ∧
          (f = false → pairCommands s.cfg.pairPolicy s.rxf ≠ [] →
            runSteps (s.rxf.length + 3) s =
              .next { runCommands (pairCommands s.cfg.pairPolicy s.rxf) t with ret := .done })))

/-- Processing one command (R108, R110): an index that does not exist is dropped, a discarded map is reported, and
otherwise the pulse is written to `ACT_OUT[index]` alone and appended to the history (R31, R109); commands in a row are
processed in order, each as if alone (R113). -/
def Obligations.CommandsAreProcessedInOrder : Prop :=
  ∀ (s : State) (cmd : Command) (cmds : List Command),
    (s.cfg.nAct ≤ cmd.index.toNat → runCommand cmd s = { s with lastOutcome := 0x07 }) ∧
    (cmd.index.toNat < s.cfg.nAct → mapValue s cmd.index cmd.raw = .noOp →
      runCommand cmd s = { s with lastOutcome := 0x08 }) ∧
    (∀ p, cmd.index.toNat < s.cfg.nAct → mapValue s cmd.index cmd.raw = .pulse p →
      runCommand cmd s =
        { s with
          lastOutcome := 0x10
          actOut := s.actOut.set cmd.index.toNat (some p)
          outHist := s.outHist ++ [(cmd.index, p)] }) ∧
    runCommands (cmds ++ [cmd]) s = runCommand cmd (runCommands cmds s)


/-- No step writes ACT_OUT or OUT_HIST for an index that does not exist (R114). -/
def Obligations.NoPulseBeyondActuatorCount : Prop :=
  ∀ s t : State, step s = .next t →
    (∀ i, s.cfg.nAct ≤ i → t.actOut[i]? = s.actOut[i]?) ∧
    (∃ new, t.outHist = s.outHist ++ new ∧ ∀ e ∈ new, BitVec.toNat e.1 < s.cfg.nAct)

/-- Only the command-path steps write LAST_OUTCOME, ACT_OUT and OUT_HIST: no operation's meaning but SERIAL_STEP's, and
no later step but I2C_STEP's last (R30, R31). -/
def Obligations.OnlyCommandPathWritesOutputs : Prop :=
  ∀ s t : State,
    (∀ i, (∀ answer, i ≠ .serialStep answer) → exec i s = .next t →
      t.lastOutcome = s.lastOutcome ∧ t.actOut = s.actOut ∧ t.outHist = s.outHist) ∧
    ((∀ f seq, s.prog ≠ .i2cFinish f seq) → s.prog ≠ .idle → step s = .next t →
      t.lastOutcome = s.lastOutcome ∧ t.actOut = s.actOut ∧ t.outHist = s.outHist)

/-! The whole machine. -/

/-- No step writes MODE or a configuration value (R26, R27, R28). -/
def Obligations.StepKeepsModeAndConfiguration : Prop :=
  ∀ s t : State, step s = .next t → t.mode = s.mode ∧ t.cfg = s.cfg

/-- CAL_WR is the only operation that writes the calibration table: no other instruction's meaning does, and no later step
of an operation in progress (R25). -/
def Obligations.OnlyCalWrWritesTheTable : Prop :=
  (∀ (i : Instr) (s t : State), (∀ idx min max, i ≠ .calWr idx min max) → exec i s = .next t → t.ct = s.ct) ∧
  (∀ s t : State, s.prog ≠ .idle → step s = .next t → t.ct = s.ct)

/-- No step outside CALIBRATING changes the calibration table, and in it only the reference actuator's entry (R105). -/
def Obligations.StepChangesOnlyReferenceRange : Prop :=
  ∀ s t : State, step s = .next t →
    (s.mode ≠ .calibrating → t.ct = s.ct) ∧ (∀ i, i ≠ s.cfg.refIndex → t.ct[i]? = s.ct[i]?)

/-- FATAL (R125): a table whose length is not the actuator count puts the block there at reset, with the alarm on and
LAST_OUTCOME 0xFF; in it the command-path steps, MAP and CAL_RD fault MODE and CAL_WR faults CAL_LOCKED; and no step of
a run in it writes a pulse or leaves it. -/
def Obligations.FatalModeLocksTheBlock : Prop :=
  (∀ (c : Config) (d : ResetDraws), c.calTable.length ≠ c.nAct →
    (State.resetWith c d).mode = .fatal ∧ alarm (State.resetWith c d) = true ∧
      (State.resetWith c d).lastOutcome = 0xFF) ∧
  (∀ (s : State) (answer : SerialAnswer) (f : Bool) (idx raw : Byte) (min max : Pulse), s.mode = .fatal →
    exec (.serialStep answer) s = .next (raiseFault .mode s) ∧
    exec (.i2cStep f) s = .next (raiseFault .mode s) ∧
    exec (.mapRaw idx raw) s = .next (raiseFault .mode s) ∧
    exec (.calRd idx) s = .next (raiseFault .mode s) ∧
    exec (.calWr idx min max) s = .next (raiseFault .calLocked s)) ∧
  (∀ s t : State, OutputInvariant s → s.mode = .fatal → step s = .next t →
    t.mode = .fatal ∧ t.outHist = s.outHist ∧ t.actOut = s.actOut)


/-- A Fault (R127): an operation begun without one that ends with `FAULT` set has changed nothing else; a Fault sets
`FAULT` unless it is set already; and once it is set no agent has a step. -/
def Obligations.FaultHasNoOtherEffectAndIsFinal : Prop :=
  (∀ (i : Instr) (s t : State) (k : FaultKind), s.fault = none → exec i s = .next t → t.fault = some k →
    t = { s with fault := some k }) ∧
  (∀ (s : State) (k k' : FaultKind),
    (s.fault = none → raiseFault k s = { s with fault := some k }) ∧
    (s.fault = some k → raiseFault k' s = s) ∧
    (s.fault = some k → s.cfg.wf = true → step s = .fault (.halted k)))


/-- A configuration that is not well formed is refused by name and never run (R11); one that meets R11's conditions and
R9's ranges (log entry 2) is not refused, whatever the calibration table's length. -/
def Obligations.IllFormedConfigurationIsRefused : Prop :=
  (∀ s : State,
    ((∃ r ∈ s.cfg.calTable, BitVec.toNat r.max ≤ BitVec.toNat r.min) ∨ s.cfg.umax.toNat ≤ s.cfg.umin.toNat ∨
      s.cfg.nAct ≤ s.cfg.refIndex ∨ s.cfg.rxFifoDepth < 2 ∨
      (∃ p ∈ s.cfg.sdaPins, s.cfg.nPin ≤ BitVec.toNat p) ∨ (∃ p ∈ s.cfg.sclPins, s.cfg.nPin ≤ BitVec.toNat p)) →
    step s = .refused .illFormedConfig) ∧
  (∀ s : State,
    (∀ r ∈ s.cfg.calTable, BitVec.toNat r.min < BitVec.toNat r.max) → s.cfg.umin.toNat < s.cfg.umax.toNat →
    s.cfg.refIndex < s.cfg.nAct → 2 ≤ s.cfg.rxFifoDepth →
    (∀ p ∈ s.cfg.sdaPins, BitVec.toNat p < s.cfg.nPin) → (∀ p ∈ s.cfg.sclPins, BitVec.toNat p < s.cfg.nPin) →
    s.cfg.nAct ≤ 256 → 1 ≤ s.cfg.nPin → s.cfg.nPin ≤ 256 → ∀ r, step s ≠ .refused r)

/-! The MASTER. -/

/-- BUS_START: matched only while the controller is enabled and the filter holds the address, by its direction; any other
start gives OTHER (R116). -/
def Obligations.BusStartMatchesTheAddress : Prop :=
  ∀ (s : State) (addr : BitVec 7),
    (s.en = true → s.saddr.toNat = addr.toNat →
      exec (.busStart addr .write) s = .next { s with xfer := .wrMatched } ∧
      exec (.busStart addr .read) s = .next { s with xfer := .rdMatched }) ∧
    (∀ dir, s.en = false ∨ s.saddr.toNat ≠ addr.toNat →
      exec (.busStart addr dir) s = .next { s with xfer := .other })

/-- BUS_BYTE (R117): outside a write to this block it has no effect; while TX_ABRT is set the byte may be lost; where
there is room it is stored at the tail, and with the FIFO full it is lost under DROP_NEW and the MASTER is held on it
under HOLD_MASTER. The draw taken while TX_ABRT is set is counted (log entry 3). -/
def Obligations.BusByteIsStoredWhereThereIsRoom : Prop :=
  ∀ (s : State) (b : Byte),
    (s.xfer ≠ .wrMatched → exec (.busByte b) s = .next s) ∧
    (s.xfer = .wrMatched → s.txAbrt = false → s.rxf.length < s.cfg.rxFifoDepth →
      exec (.busByte b) s = .next { s with rxf := s.rxf ++ [b] }) ∧
    (s.xfer = .wrMatched → s.txAbrt = false → s.cfg.rxFifoDepth ≤ s.rxf.length → s.cfg.rxOverflow = .dropNew →
      exec (.busByte b) s = .next s) ∧
    (s.xfer = .wrMatched → s.txAbrt = false → s.cfg.rxFifoDepth ≤ s.rxf.length → s.cfg.rxOverflow = .holdMaster →
      exec (.busByte b) s = .next { s with master := .byte b :: s.master }) ∧
    (s.xfer = .wrMatched → s.txAbrt = true → s.rxf.length < s.cfg.rxFifoDepth →
      exec (.busByte b) s = .next { s with draws := s.draws + 1 } ∨
      exec (.busByte b) s = .next { s with draws := s.draws + 1, rxf := s.rxf ++ [b] }) ∧
    (s.xfer = .wrMatched → s.txAbrt = true → s.cfg.rxFifoDepth ≤ s.rxf.length → s.cfg.rxOverflow = .dropNew →
      exec (.busByte b) s = .next { s with draws := s.draws + 1 }) ∧
    (s.xfer = .wrMatched → s.txAbrt = true → s.cfg.rxFifoDepth ≤ s.rxf.length → s.cfg.rxOverflow = .holdMaster →
      exec (.busByte b) s = .next { s with draws := s.draws + 1 } ∨
      exec (.busByte b) s = .next { s with draws := s.draws + 1, master := .byte b :: s.master })


/-- Under HOLD_MASTER a byte the MASTER is held on is no step of its while the FIFO is full, and the HOST steps even on
the MASTER's turn; once the FIFO has room the MASTER's turn stores it (R117, V38; log entry 6). -/
def Obligations.HeldByteIsStoredOnceThereIsRoom : Prop :=
  ∀ (s : State) (b : Byte) (es : List BusEvent) (ts : List Agent),
    s.cfg.rxOverflow = .holdMaster → s.xfer = .wrMatched → s.txAbrt = false →
    s.cfg.wf = true → s.fault = none → s.master = .byte b :: es → s.turns = .master :: ts →
    (s.rxf.length = s.cfg.rxFifoDepth → hostCan s = true → step s = hostStep { s with turns := ts }) ∧
    (s.rxf.length = s.cfg.rxFifoDepth → hostCan s = false → step s = .fault .noStep) ∧
    (s.rxf.length < s.cfg.rxFifoDepth →
      step s = .next { s with rxf := s.rxf ++ [b], master := es, turns := ts })


/-- BUS_STOP ends the transaction and leaves the FIFO; BUS_TX_ABORT sets the flag, at any point of a run; they
are encoded as 0x82 and 0x83 (R118, R119). -/
def Obligations.BusStopAndAbortSetTheirState : Prop :=
  encode .busStop = [0x82] ∧ encode .busTxAbort = [0x83] ∧ ∀ s : State,
    exec .busStop s = .next { s with xfer := .idle } ∧ exec .busTxAbort s = .next { s with txAbrt := true }

/-- A MASTER step never faults, and reaches only the FIFO, the abort flag and the transfer state: every other element,
the HOST's registers and the outputs among them, is unchanged (R116, R121, R132). -/
def Obligations.MasterStepNeverFaults : Prop :=
  ∀ (e : BusEvent) (s : State), ∃ t, exec e.toInstr s = .next t ∧
    t = { s with rxf := t.rxf, txAbrt := t.txAbrt, xfer := t.xfer, draws := t.draws, master := t.master } ∧
    (∃ new, t.rxf = s.rxf ++ new)

/-! Steps, reset and the invariants. -/

/-- A step runs the decoded instruction: where the word issued next decodes to `i`, the step is `exec i` of the state
with the word's bytes and one turn used up, for every `i` of the HOST's and, with no event of the MASTER's pending, for
every bus event (R58; log entries 5 and 6). -/
def Obligations.StepRunsDecodedInstruction : Prop :=
  ∀ (s : State) (w : PortWord) (ws : List PortWord) (i : Instr) (rest : List Byte),
    Issues s w ws → decode w.format w.bytes = .ok i rest → (s.master = [] ∨ i.agent = .host) →
    step s = exec i { useTurn s with port := remaining rest ws }

/-- On the MASTER's turn an enabled pending event of its is the step, between any two steps of the HOST (R18, R48,
R121; log entry 6). -/
def Obligations.MasterStepsBetweenHostSteps : Prop :=
  ∀ (s : State) (e : BusEvent) (es : List BusEvent) (ts : List Agent),
    s.cfg.wf = true → s.fault = none → s.turns = .master :: ts → s.master = e :: es → busEnabled e s = true →
    step s = exec e.toInstr { s with master := es, turns := ts }

/-- After reset every element holds the value of R36, for every configuration and every draw; the mode and the first
outcome by R139 and R141, the table by R140. -/
def Obligations.ResetEstablishesInitialState : Prop :=
  ∀ (c : Config) (d : ResetDraws),
    let s := State.resetWith c d
    s.en = false ∧ s.saddr = d.saddr ∧ s.sdaSel = d.sdaSel ∧ s.sclSel = d.sclSel ∧ s.rxf = [] ∧
      s.txAbrt = d.txAbrt ∧ s.xfer = .idle ∧ s.cfgd = ⟨false, false, false⟩ ∧ s.outHist = [] ∧ s.fault = none ∧
      (∀ i, i < c.nAct → s.actOut[i]? = some none) ∧
      (c.calTable.length ≠ c.nAct → s.mode = .fatal ∧ s.lastOutcome = 0xFF ∧ alarm s = true) ∧
      (c.calTable.length = c.nAct →
        s.ct = c.calTable ∧ s.lastOutcome = 0x00 ∧ alarm s = false ∧
        (c.calSelect = true → s.mode = .calibrating) ∧ (c.calSelect = false → s.mode = .serving))

/-- Both invariants hold after reset, for every well-formed configuration and every draw. -/
def Obligations.ResetMeetsTheInvariants : Prop :=
  ∀ (c : Config) (d : ResetDraws), c.wf = true →
    BusInvariant (State.resetWith c d) ∧ OutputInvariant (State.resetWith c d)


/-- Every step keeps the bus controller's invariant: the FIFO bound, the enable's conditions, the pins, the transfer
state, and the progress of a CONFIGURE. -/
def Obligations.StepKeepsBusInvariant : Prop :=
  ∀ s t : State, BusInvariant s → step s = .next t → BusInvariant t

/-- Every step keeps the outputs' invariant: the fixed mode, the calibration table, and that every pulse ever written
went to an existing actuator, in SERVING, within its range. -/
def Obligations.StepKeepsOutputInvariant : Prop :=
  ∀ s t : State, OutputInvariant s → step s = .next t → OutputInvariant t

/-- The sub-steps of CONFIGURE after its first raise no Fault, whatever the MASTER does between them (R84). -/
def Obligations.ConfigureSubStepsNeverFault : Prop :=
  ∀ (s t : State) (next : ConfigureStep) (addr sda scl : Byte),
    BusInvariant s → s.prog = .configure next addr sda scl → step s = .next t → t.fault = none
end

