-- ==== Sys2Proof/Laws/Decode.lean ====
section
/-! SUPPORT. The encoder's fields read back by the decoder: little-endian words, buffers, the bus address byte, and a
frame's bytes. -/

namespace Sys2Proof

/-- A 16-bit operand's two bytes read back (R59). -/
@[simp] theorem pulseOfBytes_bytes (p : Pulse) : pulseOfBytes (p.extractLsb' 0 8) (p.extractLsb' 8 8) = p := by
  unfold pulseOfBytes
  ext i hi
  rw [← BitVec.getLsbD_eq_getElem, ← BitVec.getLsbD_eq_getElem, BitVec.getLsbD_append]
  by_cases h8 : i < 8
  · simp [h8]
  · have e : 8 + (i - 8) = i := by omega
    have e2 : i - 8 < 8 := by omega
    simp [h8, e, e2]

/-- A 32-bit operand's four bytes read back (R59). -/
@[simp] theorem wordOfBytes_bytes (v : Word) :
    wordOfBytes (v.extractLsb' 0 8) (v.extractLsb' 8 8) (v.extractLsb' 16 8) (v.extractLsb' 24 8) = v := by
  unfold wordOfBytes
  ext i hi
  rw [← BitVec.getLsbD_eq_getElem, ← BitVec.getLsbD_eq_getElem, BitVec.getLsbD_append, BitVec.getLsbD_append,
    BitVec.getLsbD_append]
  by_cases h8 : i < 8
  · simp [h8]
  by_cases h16 : i < 16
  · have e : 8 + (i - 8) = i := by omega
    have e2 : i - 8 < 8 := by omega
    simp [h8, e, e2]
  have e3 : ¬i - 8 < 8 := by omega
  by_cases h24 : i < 24
  · have e : 16 + (i - 8 - 8) = i := by omega
    have e2 : i - 8 - 8 < 8 := by omega
    simp [h8, e, e2, e3]
  · have e : 24 + (i - 8 - 8 - 8) = i := by omega
    have e2 : i - 8 - 8 - 8 < 8 := by omega
    have e4 : ¬i - 8 - 8 < 8 := by omega
    simp [h8, e, e2, e3, e4]

/-- Four bytes are the bytes of the word they form (R59). -/
theorem bytesOfWord_wordOfBytes (b0 b1 b2 b3 : Byte) : bytesOfWord (wordOfBytes b0 b1 b2 b3) = [b0, b1, b2, b3] := by
  unfold bytesOfWord wordOfBytes
  simp only [List.cons.injEq, and_true]
  refine ⟨?_, ?_, ?_, ?_⟩ <;>
    (ext i hi
     rw [← BitVec.getLsbD_eq_getElem, ← BitVec.getLsbD_eq_getElem]
     simp only [BitVec.getLsbD_extractLsb', BitVec.getLsbD_append, hi, decide_true, Bool.true_and])
  · simp [hi]
  · have e : ¬8 + i < 8 := by omega
    simp [e, hi]
  · have e : ¬16 + i < 8 := by omega
    have e2 : ¬16 + i - 8 < 8 := by omega
    have e3 : 16 + i - 8 - 8 = i := by omega
    simp [e, e2, e3, hi]
  · have e : ¬24 + i < 8 := by omega
    have e2 : ¬24 + i - 8 < 8 := by omega
    have e3 : ¬24 + i - 8 - 8 < 8 := by omega
    have e4 : 24 + i - 8 - 8 - 8 = i := by omega
    simp [e, e2, e3, e4]

/-- Two bytes are the bytes of the pulse they form (R59). -/
theorem bytesOfPulse_pulseOfBytes (b0 b1 : Byte) : bytesOfPulse (pulseOfBytes b0 b1) = [b0, b1] := by
  unfold bytesOfPulse pulseOfBytes
  simp only [List.cons.injEq, and_true]
  refine ⟨?_, ?_⟩ <;>
    (ext i hi
     rw [← BitVec.getLsbD_eq_getElem, ← BitVec.getLsbD_eq_getElem]
     simp only [BitVec.getLsbD_extractLsb', BitVec.getLsbD_append, hi, decide_true, Bool.true_and])
  · simp [hi]
  · have e : ¬8 + i < 8 := by omega
    simp [e]

/-- The bus address byte's two fields read back (R59). -/
theorem busAddressByte_fields (a : BitVec 7) (d : Dir) :
    (busAddressByte a d).extractLsb' 0 7 = a ∧ dirOfBit ((busAddressByte a d).getLsbD 7) = d := by
  cases d <;> revert a <;> decide

/-- A byte is the bus address byte of its two fields (R59). -/
theorem busAddressByte_of_fields (b : Byte) : busAddressByte (b.extractLsb' 0 7) (dirOfBit (b.getLsbD 7)) = b := by
  revert b
  decide

/-- Bit 7 of a byte is clear exactly below 0x80 (R62). -/
theorem bit7_eq_false_iff (b : Byte) : b.getLsbD 7 = false ↔ b.toNat ≤ 0x7F := by
  revert b
  decide

/-- A buffer operand reads back (R59). -/
theorem decodeBuffer_bytes (k : List Byte → Instr) {buf : List Byte} (rest : List Byte) (h : buf.length ≤ 255) :
    decodeBuffer k (bytesOfBuffer buf ++ rest) = .ok (k buf) rest := by
  simp [decodeBuffer, bytesOfBuffer, Nat.mod_eq_of_lt (show buf.length < 256 by omega)]

/-- A frame's bytes pass the fixed-field check, whatever its payload and reserved bytes (R55). -/
@[simp] theorem isFrame_frameBytes (r : Rsv) (i v : Byte) : isFrame (frameBytes r i v) = true := by
  simp [isFrame, frameBytes, frameMask, frameMatch]

/-- A list of 16 bytes, byte by byte. -/
theorem frame_cases {buf : List Byte} (h : buf.length = 16) :
    ∃ b0 b1 b2 b3 b4 b5 b6 b7 b8 b9 b10 b11 b12 b13 b14 b15,
      buf = [b0, b1, b2, b3, b4, b5, b6, b7, b8, b9, b10, b11, b12, b13, b14, b15] := by
  match buf, h with
  | [b0, b1, b2, b3, b4, b5, b6, b7, b8, b9, b10, b11, b12, b13, b14, b15], _ =>
    exact ⟨b0, b1, b2, b3, b4, b5, b6, b7, b8, b9, b10, b11, b12, b13, b14, b15, rfl⟩

end Sys2Proof
end

