-- ==== Sys2Proof/Laws/State.lean ====
section
/-! SUPPORT. One lemma per field for each named update of the state, so that no proof unfolds a record update. -/

namespace Sys2Proof.Machine

variable (s : State)

/-! `State.returning`. -/

@[simp] theorem returning_cfg (r : Returned) : (s.returning r).cfg = s.cfg := rfl
@[simp] theorem returning_en (r : Returned) : (s.returning r).en = s.en := rfl
@[simp] theorem returning_saddr (r : Returned) : (s.returning r).saddr = s.saddr := rfl
@[simp] theorem returning_sdaSel (r : Returned) : (s.returning r).sdaSel = s.sdaSel := rfl
@[simp] theorem returning_sclSel (r : Returned) : (s.returning r).sclSel = s.sclSel := rfl
@[simp] theorem returning_rxf (r : Returned) : (s.returning r).rxf = s.rxf := rfl
@[simp] theorem returning_txAbrt (r : Returned) : (s.returning r).txAbrt = s.txAbrt := rfl
@[simp] theorem returning_xfer (r : Returned) : (s.returning r).xfer = s.xfer := rfl
@[simp] theorem returning_cfgd (r : Returned) : (s.returning r).cfgd = s.cfgd := rfl
@[simp] theorem returning_ct (r : Returned) : (s.returning r).ct = s.ct := rfl
@[simp] theorem returning_mode (r : Returned) : (s.returning r).mode = s.mode := rfl
@[simp] theorem returning_lastOutcome (r : Returned) : (s.returning r).lastOutcome = s.lastOutcome := rfl
@[simp] theorem returning_actOut (r : Returned) : (s.returning r).actOut = s.actOut := rfl
@[simp] theorem returning_outHist (r : Returned) : (s.returning r).outHist = s.outHist := rfl
@[simp] theorem returning_fault (r : Returned) : (s.returning r).fault = s.fault := rfl
@[simp] theorem returning_ret (r : Returned) : (s.returning r).ret = r := rfl
@[simp] theorem returning_prog (r : Returned) : (s.returning r).prog = s.prog := rfl
@[simp] theorem returning_draws (r : Returned) : (s.returning r).draws = s.draws := rfl
@[simp] theorem returning_port (r : Returned) : (s.returning r).port = s.port := rfl
@[simp] theorem returning_master (r : Returned) : (s.returning r).master = s.master := rfl
@[simp] theorem returning_masterAfter (r : Returned) : (s.returning r).masterAfter = s.masterAfter := rfl
@[simp] theorem returning_turns (r : Returned) : (s.returning r).turns = s.turns := rfl
@[simp] theorem returning_turnsAfter (r : Returned) : (s.returning r).turnsAfter = s.turnsAfter := rfl

/-! `setOutcome`. -/

@[simp] theorem setOutcome_cfg (c : Byte) : (setOutcome c s).cfg = s.cfg := rfl
@[simp] theorem setOutcome_en (c : Byte) : (setOutcome c s).en = s.en := rfl
@[simp] theorem setOutcome_saddr (c : Byte) : (setOutcome c s).saddr = s.saddr := rfl
@[simp] theorem setOutcome_sdaSel (c : Byte) : (setOutcome c s).sdaSel = s.sdaSel := rfl
@[simp] theorem setOutcome_sclSel (c : Byte) : (setOutcome c s).sclSel = s.sclSel := rfl
@[simp] theorem setOutcome_rxf (c : Byte) : (setOutcome c s).rxf = s.rxf := rfl
@[simp] theorem setOutcome_txAbrt (c : Byte) : (setOutcome c s).txAbrt = s.txAbrt := rfl
@[simp] theorem setOutcome_xfer (c : Byte) : (setOutcome c s).xfer = s.xfer := rfl
@[simp] theorem setOutcome_cfgd (c : Byte) : (setOutcome c s).cfgd = s.cfgd := rfl
@[simp] theorem setOutcome_ct (c : Byte) : (setOutcome c s).ct = s.ct := rfl
@[simp] theorem setOutcome_mode (c : Byte) : (setOutcome c s).mode = s.mode := rfl
@[simp] theorem setOutcome_lastOutcome (c : Byte) : (setOutcome c s).lastOutcome = c := rfl
@[simp] theorem setOutcome_actOut (c : Byte) : (setOutcome c s).actOut = s.actOut := rfl
@[simp] theorem setOutcome_outHist (c : Byte) : (setOutcome c s).outHist = s.outHist := rfl
@[simp] theorem setOutcome_fault (c : Byte) : (setOutcome c s).fault = s.fault := rfl
@[simp] theorem setOutcome_ret (c : Byte) : (setOutcome c s).ret = s.ret := rfl
@[simp] theorem setOutcome_prog (c : Byte) : (setOutcome c s).prog = s.prog := rfl
@[simp] theorem setOutcome_draws (c : Byte) : (setOutcome c s).draws = s.draws := rfl
@[simp] theorem setOutcome_port (c : Byte) : (setOutcome c s).port = s.port := rfl
@[simp] theorem setOutcome_master (c : Byte) : (setOutcome c s).master = s.master := rfl
@[simp] theorem setOutcome_masterAfter (c : Byte) : (setOutcome c s).masterAfter = s.masterAfter := rfl
@[simp] theorem setOutcome_turns (c : Byte) : (setOutcome c s).turns = s.turns := rfl
@[simp] theorem setOutcome_turnsAfter (c : Byte) : (setOutcome c s).turnsAfter = s.turnsAfter := rfl

/-! `emitPulse`. -/

@[simp] theorem emitPulse_cfg (i : Byte) (p : Pulse) : (emitPulse i p s).cfg = s.cfg := rfl
@[simp] theorem emitPulse_en (i : Byte) (p : Pulse) : (emitPulse i p s).en = s.en := rfl
@[simp] theorem emitPulse_saddr (i : Byte) (p : Pulse) : (emitPulse i p s).saddr = s.saddr := rfl
@[simp] theorem emitPulse_sdaSel (i : Byte) (p : Pulse) : (emitPulse i p s).sdaSel = s.sdaSel := rfl
@[simp] theorem emitPulse_sclSel (i : Byte) (p : Pulse) : (emitPulse i p s).sclSel = s.sclSel := rfl
@[simp] theorem emitPulse_rxf (i : Byte) (p : Pulse) : (emitPulse i p s).rxf = s.rxf := rfl
@[simp] theorem emitPulse_txAbrt (i : Byte) (p : Pulse) : (emitPulse i p s).txAbrt = s.txAbrt := rfl
@[simp] theorem emitPulse_xfer (i : Byte) (p : Pulse) : (emitPulse i p s).xfer = s.xfer := rfl
@[simp] theorem emitPulse_cfgd (i : Byte) (p : Pulse) : (emitPulse i p s).cfgd = s.cfgd := rfl
@[simp] theorem emitPulse_ct (i : Byte) (p : Pulse) : (emitPulse i p s).ct = s.ct := rfl
@[simp] theorem emitPulse_mode (i : Byte) (p : Pulse) : (emitPulse i p s).mode = s.mode := rfl
@[simp] theorem emitPulse_lastOutcome (i : Byte) (p : Pulse) : (emitPulse i p s).lastOutcome = s.lastOutcome := rfl
@[simp] theorem emitPulse_actOut (i : Byte) (p : Pulse) : (emitPulse i p s).actOut = s.actOut.set i.toNat (some p) := rfl
@[simp] theorem emitPulse_outHist (i : Byte) (p : Pulse) : (emitPulse i p s).outHist = s.outHist ++ [(i, p)] := rfl
@[simp] theorem emitPulse_fault (i : Byte) (p : Pulse) : (emitPulse i p s).fault = s.fault := rfl
@[simp] theorem emitPulse_ret (i : Byte) (p : Pulse) : (emitPulse i p s).ret = s.ret := rfl
@[simp] theorem emitPulse_prog (i : Byte) (p : Pulse) : (emitPulse i p s).prog = s.prog := rfl
@[simp] theorem emitPulse_draws (i : Byte) (p : Pulse) : (emitPulse i p s).draws = s.draws := rfl
@[simp] theorem emitPulse_port (i : Byte) (p : Pulse) : (emitPulse i p s).port = s.port := rfl
@[simp] theorem emitPulse_master (i : Byte) (p : Pulse) : (emitPulse i p s).master = s.master := rfl
@[simp] theorem emitPulse_masterAfter (i : Byte) (p : Pulse) : (emitPulse i p s).masterAfter = s.masterAfter := rfl
@[simp] theorem emitPulse_turns (i : Byte) (p : Pulse) : (emitPulse i p s).turns = s.turns := rfl
@[simp] theorem emitPulse_turnsAfter (i : Byte) (p : Pulse) : (emitPulse i p s).turnsAfter = s.turnsAfter := rfl

/-! `pushRx`. -/

@[simp] theorem pushRx_cfg (b : Byte) : (pushRx b s).cfg = s.cfg := rfl
@[simp] theorem pushRx_en (b : Byte) : (pushRx b s).en = s.en := rfl
@[simp] theorem pushRx_saddr (b : Byte) : (pushRx b s).saddr = s.saddr := rfl
@[simp] theorem pushRx_sdaSel (b : Byte) : (pushRx b s).sdaSel = s.sdaSel := rfl
@[simp] theorem pushRx_sclSel (b : Byte) : (pushRx b s).sclSel = s.sclSel := rfl
@[simp] theorem pushRx_rxf (b : Byte) : (pushRx b s).rxf = s.rxf ++ [b] := rfl
@[simp] theorem pushRx_txAbrt (b : Byte) : (pushRx b s).txAbrt = s.txAbrt := rfl
@[simp] theorem pushRx_xfer (b : Byte) : (pushRx b s).xfer = s.xfer := rfl
@[simp] theorem pushRx_cfgd (b : Byte) : (pushRx b s).cfgd = s.cfgd := rfl
@[simp] theorem pushRx_ct (b : Byte) : (pushRx b s).ct = s.ct := rfl
@[simp] theorem pushRx_mode (b : Byte) : (pushRx b s).mode = s.mode := rfl
@[simp] theorem pushRx_lastOutcome (b : Byte) : (pushRx b s).lastOutcome = s.lastOutcome := rfl
@[simp] theorem pushRx_actOut (b : Byte) : (pushRx b s).actOut = s.actOut := rfl
@[simp] theorem pushRx_outHist (b : Byte) : (pushRx b s).outHist = s.outHist := rfl
@[simp] theorem pushRx_fault (b : Byte) : (pushRx b s).fault = s.fault := rfl
@[simp] theorem pushRx_ret (b : Byte) : (pushRx b s).ret = s.ret := rfl
@[simp] theorem pushRx_prog (b : Byte) : (pushRx b s).prog = s.prog := rfl
@[simp] theorem pushRx_draws (b : Byte) : (pushRx b s).draws = s.draws := rfl
@[simp] theorem pushRx_port (b : Byte) : (pushRx b s).port = s.port := rfl
@[simp] theorem pushRx_master (b : Byte) : (pushRx b s).master = s.master := rfl
@[simp] theorem pushRx_masterAfter (b : Byte) : (pushRx b s).masterAfter = s.masterAfter := rfl
@[simp] theorem pushRx_turns (b : Byte) : (pushRx b s).turns = s.turns := rfl
@[simp] theorem pushRx_turnsAfter (b : Byte) : (pushRx b s).turnsAfter = s.turnsAfter := rfl

/-! `flushRx`. -/

@[simp] theorem flushRx_cfg : (flushRx s).cfg = s.cfg := rfl
@[simp] theorem flushRx_en : (flushRx s).en = s.en := rfl
@[simp] theorem flushRx_saddr : (flushRx s).saddr = s.saddr := rfl
@[simp] theorem flushRx_sdaSel : (flushRx s).sdaSel = s.sdaSel := rfl
@[simp] theorem flushRx_sclSel : (flushRx s).sclSel = s.sclSel := rfl
@[simp] theorem flushRx_rxf : (flushRx s).rxf = [] := rfl
@[simp] theorem flushRx_txAbrt : (flushRx s).txAbrt = s.txAbrt := rfl
@[simp] theorem flushRx_xfer : (flushRx s).xfer = s.xfer := rfl
@[simp] theorem flushRx_cfgd : (flushRx s).cfgd = s.cfgd := rfl
@[simp] theorem flushRx_ct : (flushRx s).ct = s.ct := rfl
@[simp] theorem flushRx_mode : (flushRx s).mode = s.mode := rfl
@[simp] theorem flushRx_lastOutcome : (flushRx s).lastOutcome = s.lastOutcome := rfl
@[simp] theorem flushRx_actOut : (flushRx s).actOut = s.actOut := rfl
@[simp] theorem flushRx_outHist : (flushRx s).outHist = s.outHist := rfl
@[simp] theorem flushRx_fault : (flushRx s).fault = s.fault := rfl
@[simp] theorem flushRx_ret : (flushRx s).ret = s.ret := rfl
@[simp] theorem flushRx_prog : (flushRx s).prog = s.prog := rfl
@[simp] theorem flushRx_draws : (flushRx s).draws = s.draws := rfl
@[simp] theorem flushRx_port : (flushRx s).port = s.port := rfl
@[simp] theorem flushRx_master : (flushRx s).master = s.master := rfl
@[simp] theorem flushRx_masterAfter : (flushRx s).masterAfter = s.masterAfter := rfl
@[simp] theorem flushRx_turns : (flushRx s).turns = s.turns := rfl
@[simp] theorem flushRx_turnsAfter : (flushRx s).turnsAfter = s.turnsAfter := rfl

/-! `useTurn`. -/

@[simp] theorem useTurn_cfg : (useTurn s).cfg = s.cfg := rfl
@[simp] theorem useTurn_en : (useTurn s).en = s.en := rfl
@[simp] theorem useTurn_saddr : (useTurn s).saddr = s.saddr := rfl
@[simp] theorem useTurn_sdaSel : (useTurn s).sdaSel = s.sdaSel := rfl
@[simp] theorem useTurn_sclSel : (useTurn s).sclSel = s.sclSel := rfl
@[simp] theorem useTurn_rxf : (useTurn s).rxf = s.rxf := rfl
@[simp] theorem useTurn_txAbrt : (useTurn s).txAbrt = s.txAbrt := rfl
@[simp] theorem useTurn_xfer : (useTurn s).xfer = s.xfer := rfl
@[simp] theorem useTurn_cfgd : (useTurn s).cfgd = s.cfgd := rfl
@[simp] theorem useTurn_ct : (useTurn s).ct = s.ct := rfl
@[simp] theorem useTurn_mode : (useTurn s).mode = s.mode := rfl
@[simp] theorem useTurn_lastOutcome : (useTurn s).lastOutcome = s.lastOutcome := rfl
@[simp] theorem useTurn_actOut : (useTurn s).actOut = s.actOut := rfl
@[simp] theorem useTurn_outHist : (useTurn s).outHist = s.outHist := rfl
@[simp] theorem useTurn_fault : (useTurn s).fault = s.fault := rfl
@[simp] theorem useTurn_ret : (useTurn s).ret = s.ret := rfl
@[simp] theorem useTurn_prog : (useTurn s).prog = s.prog := rfl
@[simp] theorem useTurn_draws : (useTurn s).draws = s.draws := rfl
@[simp] theorem useTurn_port : (useTurn s).port = s.port := rfl
@[simp] theorem useTurn_master : (useTurn s).master = s.master := rfl
@[simp] theorem useTurn_masterAfter : (useTurn s).masterAfter = s.masterAfter := rfl
@[simp] theorem useTurn_turns : (useTurn s).turns = (tailOf s.turns s.turnsAfter).1 := rfl
@[simp] theorem useTurn_turnsAfter : (useTurn s).turnsAfter = (tailOf s.turns s.turnsAfter).2 := rfl

/-! `useEvent`. -/

@[simp] theorem useEvent_cfg : (useEvent s).cfg = s.cfg := rfl
@[simp] theorem useEvent_en : (useEvent s).en = s.en := rfl
@[simp] theorem useEvent_saddr : (useEvent s).saddr = s.saddr := rfl
@[simp] theorem useEvent_sdaSel : (useEvent s).sdaSel = s.sdaSel := rfl
@[simp] theorem useEvent_sclSel : (useEvent s).sclSel = s.sclSel := rfl
@[simp] theorem useEvent_rxf : (useEvent s).rxf = s.rxf := rfl
@[simp] theorem useEvent_txAbrt : (useEvent s).txAbrt = s.txAbrt := rfl
@[simp] theorem useEvent_xfer : (useEvent s).xfer = s.xfer := rfl
@[simp] theorem useEvent_cfgd : (useEvent s).cfgd = s.cfgd := rfl
@[simp] theorem useEvent_ct : (useEvent s).ct = s.ct := rfl
@[simp] theorem useEvent_mode : (useEvent s).mode = s.mode := rfl
@[simp] theorem useEvent_lastOutcome : (useEvent s).lastOutcome = s.lastOutcome := rfl
@[simp] theorem useEvent_actOut : (useEvent s).actOut = s.actOut := rfl
@[simp] theorem useEvent_outHist : (useEvent s).outHist = s.outHist := rfl
@[simp] theorem useEvent_fault : (useEvent s).fault = s.fault := rfl
@[simp] theorem useEvent_ret : (useEvent s).ret = s.ret := rfl
@[simp] theorem useEvent_prog : (useEvent s).prog = s.prog := rfl
@[simp] theorem useEvent_draws : (useEvent s).draws = s.draws := rfl
@[simp] theorem useEvent_port : (useEvent s).port = s.port := rfl
@[simp] theorem useEvent_master : (useEvent s).master = (tailOf s.master s.masterAfter).1 := rfl
@[simp] theorem useEvent_masterAfter : (useEvent s).masterAfter = (tailOf s.master s.masterAfter).2 := rfl
@[simp] theorem useEvent_turns : (useEvent s).turns = s.turns := rfl
@[simp] theorem useEvent_turnsAfter : (useEvent s).turnsAfter = s.turnsAfter := rfl

/-! The environment's choices. -/

@[simp] theorem headOf_cons {α : Type} (free : Nat → α) (a : α) (l : List α) (after : Endless α) :
    headOf free (a :: l) after = some a := rfl

@[simp] theorem headOf_none {α : Type} (free : Nat → α) : headOf free [] .none = none := rfl

@[simp] theorem tailOf_cons {α : Type} (a : α) (l : List α) (after : Endless α) :
    tailOf (a :: l) after = (l, after) := rfl

@[simp] theorem tailOf_none {α : Type} : tailOf ([] : List α) .none = ([], .none) := rfl

/-- With no turn named, none is used up. -/
theorem useTurn_of_none {s : State} (h : s.turns = []) (h' : s.turnsAfter = .none) : useTurn s = s := by
  cases s
  simp_all [useTurn]

/-- A listed turn is used up, and nothing else changes. -/
theorem useTurn_of_cons {s : State} {a : Agent} {l : List Agent} (h : s.turns = a :: l) :
    useTurn s = { s with turns := l } := by
  cases s
  simp_all [useTurn]

/-- A pending event is taken, and nothing else changes. -/
theorem useEvent_of_cons {s : State} {e : BusEvent} {l : List BusEvent} (h : s.master = e :: l) :
    useEvent s = { s with master := l } := by
  cases s
  simp_all [useEvent]

@[simp] theorem eventNow_useTurn : eventNow (useTurn s) = eventNow s := rfl

/-! `raiseFault`. -/

@[simp] theorem raiseFault_cfg (k : FaultKind) : (raiseFault k s).cfg = s.cfg := rfl
@[simp] theorem raiseFault_en (k : FaultKind) : (raiseFault k s).en = s.en := rfl
@[simp] theorem raiseFault_saddr (k : FaultKind) : (raiseFault k s).saddr = s.saddr := rfl
@[simp] theorem raiseFault_sdaSel (k : FaultKind) : (raiseFault k s).sdaSel = s.sdaSel := rfl
@[simp] theorem raiseFault_sclSel (k : FaultKind) : (raiseFault k s).sclSel = s.sclSel := rfl
@[simp] theorem raiseFault_rxf (k : FaultKind) : (raiseFault k s).rxf = s.rxf := rfl
@[simp] theorem raiseFault_txAbrt (k : FaultKind) : (raiseFault k s).txAbrt = s.txAbrt := rfl
@[simp] theorem raiseFault_xfer (k : FaultKind) : (raiseFault k s).xfer = s.xfer := rfl
@[simp] theorem raiseFault_cfgd (k : FaultKind) : (raiseFault k s).cfgd = s.cfgd := rfl
@[simp] theorem raiseFault_ct (k : FaultKind) : (raiseFault k s).ct = s.ct := rfl
@[simp] theorem raiseFault_mode (k : FaultKind) : (raiseFault k s).mode = s.mode := rfl
@[simp] theorem raiseFault_lastOutcome (k : FaultKind) : (raiseFault k s).lastOutcome = s.lastOutcome := rfl
@[simp] theorem raiseFault_actOut (k : FaultKind) : (raiseFault k s).actOut = s.actOut := rfl
@[simp] theorem raiseFault_outHist (k : FaultKind) : (raiseFault k s).outHist = s.outHist := rfl
@[simp] theorem raiseFault_ret (k : FaultKind) : (raiseFault k s).ret = s.ret := rfl
@[simp] theorem raiseFault_prog (k : FaultKind) : (raiseFault k s).prog = s.prog := rfl
@[simp] theorem raiseFault_draws (k : FaultKind) : (raiseFault k s).draws = s.draws := rfl
@[simp] theorem raiseFault_port (k : FaultKind) : (raiseFault k s).port = s.port := rfl
@[simp] theorem raiseFault_master (k : FaultKind) : (raiseFault k s).master = s.master := rfl
@[simp] theorem raiseFault_masterAfter (k : FaultKind) : (raiseFault k s).masterAfter = s.masterAfter := rfl
@[simp] theorem raiseFault_turns (k : FaultKind) : (raiseFault k s).turns = s.turns := rfl
@[simp] theorem raiseFault_turnsAfter (k : FaultKind) : (raiseFault k s).turnsAfter = s.turnsAfter := rfl

/-- A Fault sets `FAULT` where none is set (R127). -/
theorem raiseFault_fault_of_none {s : State} (h : s.fault = none) (k : FaultKind) :
    (raiseFault k s).fault = some k := by
  simp [raiseFault, h]

/-- The first Fault stays (R127). -/
theorem raiseFault_of_some {s : State} {k : FaultKind} (h : s.fault = some k) (k' : FaultKind) :
    raiseFault k' s = s := by
  cases s
  simp_all [raiseFault]

/-- A Fault changes `FAULT` alone (R127). -/
theorem raiseFault_of_none {s : State} (h : s.fault = none) (k : FaultKind) :
    raiseFault k s = { s with fault := some k } := by
  simp [raiseFault, h]

end Sys2Proof.Machine
end

