-- ==== Sys2Proof/Laws/Ops.lean ====
section
/-! SUPPORT. What each shared operation can do, said once: the register window, the FIFO, the frame decoder's pattern,
the map's bounds, and `process`. -/

namespace Sys2Proof.Machine

/-! The register window. -/

/-- A register stands at its offset (R68). -/
@[simp] theorem regAt_offsetOf (r : Reg) : regAt (offsetOf r) = some r := by
  cases r <;> rfl

/-- Only a register's own offset is mapped (R43, R68). -/
theorem offsetOf_of_regAt {off : Byte} {r : Reg} (h : regAt off = some r) : off = offsetOf r := by
  unfold regAt at h
  repeat' split at h
  all_goals first | (cases h; simp_all [offsetOf]) | cases h

/-- An offset is unmapped exactly when it is no multiple of 4 or lies beyond the window (R43). -/
theorem regAt_eq_none_iff (off : Byte) : regAt off = none ↔ off.toNat % 4 ≠ 0 ∨ 0x1C ≤ off.toNat := by
  revert off
  decide

/-- A read-write register reads without effect (R70, R71, R75). -/
theorem readReg_readWrite {r : Reg} (h : readWrite r = true) (s : State) : ∃ v, readReg r s = .ok (v, s) := by
  cases r <;> simp_all [readWrite, readReg]

/-- The one register whose read changes the state is IC_DATA_CMD, and it changes the FIFO and the draws alone (R45). -/
theorem readReg_ok {r : Reg} {s t : State} {v : Word} (h : readReg r s = .ok (v, t)) :
    t = { s with rxf := t.rxf, draws := t.draws } ∧
      (t = s ∨ r = .icDataCmd ∧ (t.rxf = s.rxf.tail ∧ t.draws = s.draws + 1)) := by
  cases r <;> simp only [readReg, Except.ok.injEq, Prod.mk.injEq, reduceCtorEq] at h
  case icDataCmd =>
    unfold readDataCmd at h
    split at h <;> (injection h with h₁ h₂; subst h₂; simp_all)
  all_goals (obtain ⟨-, rfl⟩ := h; exact ⟨rfl, .inl rfl⟩)

/-- What a successful register write can be (R70 to R75). -/
inductive WriteEffect (v : Word) (s : State) : State → Prop where
  | same : WriteEffect v s s
  | enable (h : s.en = false) (hc : s.cfgd.complete = true) (hp : s.sdaSel ≠ s.sclSel) :
      WriteEffect v s { s with en := true }
  | disable (h : s.en = true) (ha : activity s = false) :
      WriteEffect v s { s with en := false, rxf := if s.cfg.rxFlushOnDisable then [] else s.rxf }
  | saddr (h : s.en = false) :
      WriteEffect v s { s with saddr := saddrField v, cfgd := { s.cfgd with saddr := true } }
  | sda (h : s.en = false) (hp : byteField v ∈ s.cfg.sdaPins) :
      WriteEffect v s { s with sdaSel := byteField v, cfgd := { s.cfgd with sda := true } }
  | scl (h : s.en = false) (hp : byteField v ∈ s.cfg.sclPins) :
      WriteEffect v s { s with sclSel := byteField v, cfgd := { s.cfgd with scl := true } }
  | clearAbort : WriteEffect v s { s with txAbrt := false }

/-- A register write that succeeds is one of `WriteEffect`. -/
theorem writeReg_effect {r : Reg} {v : Word} {s t : State} (h : writeReg r v s = .ok t) : WriteEffect v s t := by
  cases r <;> simp only [writeReg] at h
  case icEnable =>
    unfold writeEnable at h
    split at h
    · cases h
    split at h
    · rename_i h1
      split at h
      · cases h
      split at h
      · cases h
      · injection h with h
        subst h
        simp only [Bool.and_eq_true, Bool.not_eq_true'] at h1
        exact .enable h1.2 (by simpa using ‹¬(!s.cfgd.complete) = true›) ‹_›
    · split at h
      · rename_i h2
        simp only [Bool.and_eq_true, Bool.not_eq_true'] at h2
        split at h
        · cases h
        · rename_i h3
          simp only [Bool.not_eq_true] at h3
          have e := WriteEffect.disable (v := v) h2.2 h3
          split at h <;> (injection h with h; subst h; simp_all [flushRx])
      · injection h with h
        subst h
        exact .same
  case icSaddr =>
    unfold writeSaddr at h
    split at h
    · cases h
    split at h
    · cases h
    · injection h with h
      subst h
      exact .saddr (by simpa using ‹¬s.en = true›)
  case icClrTxAbrt =>
    unfold writeClrTxAbrt at h
    split at h
    · cases h
    split at h <;> (injection h with h; subst h)
    · exact .clearAbort
    · exact .same
  case ioSdaSel =>
    unfold writeSdaSel at h
    split at h
    · cases h
    split at h
    · cases h
    split at h
    · cases h
    · injection h with h
      subst h
      exact .sda (by simpa using ‹¬s.en = true›) (by simpa using ‹¬(!s.cfg.sdaPins.contains (byteField v)) = true›)
  case ioSclSel =>
    unfold writeSclSel at h
    split at h
    · cases h
    split at h
    · cases h
    split at h
    · cases h
    · injection h with h
      subst h
      exact .scl (by simpa using ‹¬s.en = true›) (by simpa using ‹¬(!s.cfg.sclPins.contains (byteField v)) = true›)
  all_goals cases h

/-- `RegWrite` that succeeds is one of `WriteEffect` (R77). -/
theorem regWrite_effect {off : Byte} {v : Word} {s t : State} (h : regWrite off v s = .ok t) : WriteEffect v s t := by
  unfold regWrite at h
  split at h
  · cases h
  · exact writeReg_effect h

/-- SET, CLR or TGL that succeeds is one of `WriteEffect`, for the value it writes back (R81 to R83). -/
theorem regModify_effect {f : Word → Word → Word} {off : Byte} {m : Word} {s t : State}
    (h : regModify f off m s = .ok t) : ∃ v, WriteEffect v s t := by
  unfold regModify at h
  split at h
  · cases h
  split at h
  · cases h
  rename_i r _ hr
  obtain ⟨v, hv⟩ := readReg_readWrite (by simpa using hr : readWrite r = true) s
  rw [hv] at h
  exact ⟨_, writeReg_effect h⟩

/-- `CLR IC_ENABLE, 0x1` outside an active transfer disables the controller, and flushes the FIFO where it was enabled
and the parameter says so (R70, R84). -/
theorem clear_enable {s : State} (h : activity s = false) :
    regModify clearMask (offsetOf .icEnable) 0x1 s =
      .ok { s with en := false, rxf := if s.en = true ∧ s.cfg.rxFlushOnDisable = true then [] else s.rxf } := by
  have hr : reservedClear 1 (clearMask (zextBit s.en) 0x1) = true := by cases s.en <;> rfl
  have hz : bitField (clearMask (zextBit s.en) 0x1) = false := by cases s.en <;> rfl
  simp only [regModify, regAt_offsetOf, readWrite, readReg, writeReg, writeEnable, hr, hz, Bool.not_true,
    Bool.false_eq_true, if_false, Bool.false_and, Bool.not_false, Bool.true_and, h]
  cases hen : s.en
  · cases s
    simp_all
  · cases s.cfg.rxFlushOnDisable <;> simp [flushRx]

/-! The FIFO. -/

/-- The status word's bit 0 is RFNE (R72). -/
@[simp] theorem bitField_statusWord (s : State) : bitField (statusWord s) = rfne s := by
  unfold bitField statusWord
  cases rfne s <;> cases s.txAbrt <;> cases activity s <;> rfl

/-- The low byte of a word built over a byte is that byte. -/
theorem byteField_append (a : BitVec 24) (b : Byte) : byteField (a ++ b) = b := by
  unfold byteField
  ext i hi
  have h := BitVec.getLsbD_append (x := a) (y := b) (i := i)
  simp only [hi, if_true] at h
  simpa [BitVec.getElem_extractLsb', hi] using h

/-- A read of the data register with a byte waiting shows it in its low 8 bits (R73). -/
theorem readDataCmd_cons {s : State} {b : Byte} {q : List Byte} (h : s.rxf = b :: q) :
    byteField (readDataCmd s).1 = b ∧ (readDataCmd s).2 = { s with rxf := q, draws := s.draws + 1 } := by
  unfold readDataCmd
  rw [h]
  exact ⟨byteField_append _ _, rfl⟩

/-- One iteration of DRAIN with a byte waiting takes the oldest one (R86). -/
theorem drainRead_cons {s : State} {b : Byte} {q : List Byte} (h : s.rxf = b :: q) :
    drainRead s = some (b, { s with rxf := q, draws := s.draws + 1 }) := by
  simp [drainRead, h]

/-- DRAIN's status test with the FIFO empty finds nothing (R86). -/
theorem drainRead_nil {s : State} (h : s.rxf = []) : drainRead s = none := by
  simp [drainRead, h]

/-! The map. -/

/-- With `lo < hi` the clamp never changes the mapped pulse (R102). -/
theorem mapPulse_floor {lo hi raw : Nat} (h : lo < hi) (hr : raw ≤ 255) :
    mapPulse .floor lo hi raw = lo + raw * (hi - lo) / 255 ∧ raw * (hi - lo) / 255 ≤ hi - lo := by
  have hq : raw * (hi - lo) / 255 ≤ hi - lo := by
    apply Nat.div_le_of_le_mul
    exact Nat.mul_le_mul_right _ hr
  refine ⟨?_, hq⟩
  simp only [mapPulse, quotient, clamp]
  omega

/-! The command path. -/

/-- What processing one command does (R110). -/
theorem runCommand_cases (cmd : Command) (s : State) :
    (s.cfg.nAct ≤ cmd.index.toNat ∧ runCommand cmd s = setOutcome indexOutOfRange s) ∨
    (cmd.index.toNat < s.cfg.nAct ∧ mapValue s cmd.index cmd.raw = .noOp ∧
      runCommand cmd s = setOutcome mapNoop s) ∨
    (∃ p, cmd.index.toNat < s.cfg.nAct ∧ mapValue s cmd.index cmd.raw = .pulse p ∧
      runCommand cmd s = setOutcome accepted (emitPulse cmd.index p s)) := by
  unfold runCommand
  split
  · exact .inl ⟨‹_›, rfl⟩
  · have hlt : cmd.index.toNat < s.cfg.nAct := by omega
    cases hm : mapValue s cmd.index cmd.raw with
    | noOp => exact .inr (.inl ⟨hlt, rfl, rfl⟩)
    | pulse p => exact .inr (.inr ⟨p, hlt, rfl, rfl⟩)

/-- Processing a command writes the outputs alone (R109, R110). -/
theorem runCommand_frame (cmd : Command) (s : State) :
    runCommand cmd s =
      { s with
        lastOutcome := (runCommand cmd s).lastOutcome
        actOut := (runCommand cmd s).actOut
        outHist := (runCommand cmd s).outHist } := by
  obtain ⟨-, h⟩ | ⟨-, -, h⟩ | ⟨p, -, -, h⟩ := runCommand_cases cmd s <;> rw [h] <;> rfl

/-- Processing commands writes the outputs alone. -/
theorem runCommands_frame (cmds : List Command) (s : State) :
    runCommands cmds s =
      { s with
        lastOutcome := (runCommands cmds s).lastOutcome
        actOut := (runCommands cmds s).actOut
        outHist := (runCommands cmds s).outHist } := by
  induction cmds generalizing s with
  | nil => rfl
  | cons cmd cmds ih =>
    simp only [runCommands]
    rw [ih, runCommand_frame]

/-- What a property of states must meet to be kept by processing commands: it is kept by the three things `process` can
do (R110). -/
theorem runCommands_induction {P : State → Prop} (cmds : List Command) (s : State) (h0 : P s)
    (hdrop : ∀ cmd s, P s → s.cfg.nAct ≤ (Command.index cmd).toNat → P (setOutcome indexOutOfRange s))
    (hnoop : ∀ s, P s → P (setOutcome mapNoop s))
    (hemit : ∀ cmd s p, P s → BitVec.toNat (Command.index cmd) < s.cfg.nAct →
      mapValue s cmd.index cmd.raw = .pulse p → P (setOutcome accepted (emitPulse cmd.index p s))) :
    P (runCommands cmds s) := by
  induction cmds generalizing s with
  | nil => exact h0
  | cons cmd cmds ih =>
    apply ih
    obtain ⟨hi, h⟩ | ⟨-, -, h⟩ | ⟨p, hi, hm, h⟩ := runCommand_cases cmd s <;> rw [h]
    · exact hdrop cmd s h0 hi
    · exact hnoop s h0
    · exact hemit cmd s p h0 hi hm

end Sys2Proof.Machine
end

