-- ==== Sys2Proof/Laws/Exec.lean ====
section
/-! SUPPORT. What a step can do, said once: every meaning answers a next state, and which states each kind of step
answers. -/

namespace Sys2Proof.Machine

/-! Every meaning answers a next state: the block has no instruction that stops it. -/

theorem complete_next (s : State) (r : Except FaultKind State) : ∃ t, complete s r = .next t := by
  cases r <;> exact ⟨_, rfl⟩

theorem continueWith_next (s : State) (p : Progress) (r : Except FaultKind State) :
    ∃ t, continueWith s p r = .next t := by
  cases r <;> exact ⟨_, rfl⟩

theorem exec_next (i : Instr) (s : State) : ∃ t, exec i s = .next t := by
  cases i <;> simp only [exec]
  case rd => unfold execRd; split <;> exact ⟨_, rfl⟩
  case wr => exact complete_next _ _
  case setBits => exact complete_next _ _
  case clrBits => exact complete_next _ _
  case tglBits => exact complete_next _ _
  case configure => unfold execConfigure; repeat' split
                    all_goals first | exact continueWith_next _ _ _ | exact ⟨_, rfl⟩
  case drain => unfold execDrain drainStep; split <;> exact ⟨_, rfl⟩
  case ackAbort => exact complete_next _ _
  case mapRaw => unfold execMapRaw; repeat' split
                 all_goals exact ⟨_, rfl⟩
  case calWr => unfold execCalWr; repeat' split
                all_goals exact ⟨_, rfl⟩
  case calRd => unfold execCalRd; repeat' split
                all_goals exact ⟨_, rfl⟩
  case serialStep => unfold execSerialStep; repeat' split
                     all_goals exact ⟨_, rfl⟩
  case i2cStep => unfold execI2cStep; repeat' split
                  all_goals first | exact continueWith_next _ _ _ | exact ⟨_, rfl⟩
  case busStart => unfold execBusStart; split <;> exact ⟨_, rfl⟩
  case busByte => unfold execBusByte; repeat' split
                  all_goals exact ⟨_, rfl⟩
  all_goals exact ⟨_, rfl⟩

/-- What a register operation without a value answers: its effect, or its Fault. -/
theorem complete_cases {s t : State} {r : Except FaultKind State} (h : complete s r = .next t) :
    (∃ u, r = .ok u ∧ t = u.returning .done) ∨ ∃ k, r = .error k ∧ t = raiseFault k s := by
  cases r with
  | ok u => injection h with h; exact .inl ⟨u, rfl, h.symm⟩
  | error k => injection h with h; exact .inr ⟨k, rfl, h.symm⟩

/-- What a sub-step of a multi-step operation answers: its effect, or its Fault. -/
theorem continueWith_cases {s t : State} {p : Progress} {r : Except FaultKind State}
    (h : continueWith s p r = .next t) :
    (∃ u, r = .ok u ∧ t = { u with prog := p }) ∨ ∃ k, r = .error k ∧ t = raiseFault k s := by
  cases r with
  | ok u => injection h with h; exact .inl ⟨u, rfl, h.symm⟩
  | error k => injection h with h; exact .inr ⟨k, rfl, h.symm⟩

/-- What one iteration of a DRAIN finds: nothing, or the oldest byte, which it takes (R86). -/
theorem drainRead_cases (s : State) :
    (s.rxf = [] ∧ drainRead s = none) ∨
      ∃ b q, s.rxf = b :: q ∧ drainRead s = some (b, { s with rxf := q, draws := s.draws + 1 }) := by
  cases h : s.rxf with
  | nil => exact .inl ⟨rfl, drainRead_nil h⟩
  | cons b q => exact .inr ⟨b, q, rfl, drainRead_cons h⟩

/-- ACK_ABORT's register write clears the flag and cannot fault (R87). -/
@[simp] theorem ackAbort_ok (s : State) : ackAbort s = .ok { s with txAbrt := false } := by
  simp [ackAbort, regWrite, writeReg, writeClrTxAbrt, reservedClear, bitField]

/-- What HOST operations of one step and MASTER events can do to the machine: one constructor a kind of effect. -/
inductive Effect (s : State) : State → Prop where
  | fault (k : FaultKind) : Effect s (raiseFault k s)
  | value (r : Returned) : Effect s (s.returning r)
  | emptyRead (r : Returned) : Effect s { s with draws := s.draws + 1, ret := r }
  | read (b : Byte) (q : List Byte) (h : s.rxf = b :: q) (r : Returned) (p : Progress)
      (hp : p = s.prog ∨ ∃ bs, p = .drain bs) :
      Effect s { s with rxf := q, draws := s.draws + 1, ret := r, prog := p }
  | drained (r : Returned) : Effect s { s with ret := r, prog := .idle }
  | write (v : Word) (u : State) (h : WriteEffect v s u) : Effect s (u.returning .done)
  | configure (v : Word) (u : State) (h : WriteEffect v s u) (addr sda scl : Byte) (he : u.en = false)
      (ha : addr.toNat ≤ 0x7F) (hne : sda ≠ scl) (hsda : sda ∈ s.cfg.sdaPins) (hscl : scl ∈ s.cfg.sclPins) :
      Effect s { u with prog := .configure .clearSaddr addr sda scl }
  | calWr (idx : Byte) (r : Range) (hm : s.mode = .calibrating) (hi : idx.toNat = s.cfg.refIndex)
      (hr : r.wf = true) : Effect s { s with ct := s.ct.set idx.toNat r, ret := .done }
  | answer (a : SerialAnswer) (hm : s.mode = .serving) : Effect s ((takeAnswer a s).returning .done)
  | i2cStep (f : Bool) (hm : s.mode = .serving) (hb : s.cfg.busSel = .i2c) :
      Effect s { s with txAbrt := false, prog := .i2cDrain f [] }
  | busStart (x : Xfer) (h : x.active = true → s.en = true ∧ s.saddr.toNat < 128) : Effect s { s with xfer := x }
  | busAbort : Effect s { s with txAbrt := true }
  | byteLost (n : Nat) : Effect s { s with draws := n }
  | byteStored (n : Nat) (b : Byte) (h : s.rxf.length < s.cfg.rxFifoDepth) :
      Effect s { s with draws := n, rxf := s.rxf ++ [b] }
  | byteHeld (n : Nat) (b : Byte) : Effect s { s with draws := n, master := .byte b :: s.master }

theorem complete_effect {s t : State} {r : Except FaultKind State} (hr : ∀ u, r = .ok u → ∃ v, WriteEffect v s u)
    (h : complete s r = .next t) : Effect s t := by
  obtain ⟨u, hu, rfl⟩ | ⟨k, -, rfl⟩ := complete_cases h
  · obtain ⟨v, hv⟩ := hr u hu
    exact .write v u hv
  · exact .fault k

theorem takeByte_effect (lost : Bool) (b : Byte) (n : Nat) (s : State) :
    Effect s (takeByte lost b { s with draws := n }) := by
  unfold takeByte
  split
  · exact .byteLost n
  unfold receiveByte
  split
  · rename_i h
    exact .byteStored n b (by simpa [rxFull] using h)
  · split
    · exact .byteLost n
    · exact .byteHeld n b

/-- The effect of every meaning is one of `Effect`. -/
theorem exec_effect {i : Instr} {s t : State} (h : exec i s = .next t) : Effect s t := by
  cases i <;> simp only [exec] at h
  case frameActuatorCmd => injection h with h; subst h; exact .value _
  case i2cPair => injection h with h; subst h; exact .value _
  case decode => injection h with h; subst h; exact .value _
  case rd off =>
    unfold execRd at h
    split at h <;> (injection h with h; subst h)
    · rename_i v u hu
      unfold regRead at hu
      split at hu
      · cases hu
      rename_i r _
      cases r <;> simp only [readReg, Except.ok.injEq, Prod.mk.injEq, reduceCtorEq] at hu
      case icDataCmd =>
        unfold readDataCmd at hu
        split at hu <;> (injection hu with h₁ h₂; subst h₂)
        · exact .read _ _ ‹_› _ _ (.inl rfl)
        · exact .emptyRead _
      all_goals (obtain ⟨-, rfl⟩ := hu; exact .value _)
    · exact .fault _
  case wr => exact complete_effect (fun u hu => ⟨_, regWrite_effect hu⟩) h
  case setBits => exact complete_effect (fun u hu => regModify_effect hu) h
  case clrBits => exact complete_effect (fun u hu => regModify_effect hu) h
  case tglBits => exact complete_effect (fun u hu => regModify_effect hu) h
  case ackAbort => exact complete_effect (fun u hu => ⟨_, regWrite_effect hu⟩) h
  case hasData => injection h with h; subst h; exact .value _
  case configure addr sda scl =>
    unfold execConfigure at h
    split at h
    · injection h with h; subst h; exact .fault _
    split at h
    · injection h with h; subst h; exact .fault _
    split at h
    · injection h with h; subst h; exact .fault _
    split at h
    · injection h with h; subst h; exact .fault _
    rename_i hpins hact
    obtain ⟨u, hu, rfl⟩ | ⟨k, -, rfl⟩ := continueWith_cases h
    · obtain ⟨v, hv⟩ := regModify_effect hu
      simp only [Bool.or_eq_true, Bool.not_eq_true', not_or, Bool.not_eq_false, List.contains_iff_mem] at hpins
      refine .configure v u hv addr sda scl ?_ (by omega) ‹_› hpins.1 hpins.2
      rw [clear_enable (by simpa using hact)] at hu
      injection hu with hu
      rw [← hu]
    · exact .fault k
  case drain =>
    unfold execDrain drainStep at h
    obtain ⟨hq, hd⟩ | ⟨b, q, hq, hd⟩ := drainRead_cases s <;> rw [hd] at h <;> (injection h with h; subst h)
    · exact .drained _
    · exact .read b q hq _ _ (.inr ⟨_, rfl⟩)
  case mapRaw =>
    unfold execMapRaw at h
    repeat' split at h
    all_goals (injection h with h; subst h)
    exacts [.fault _, .fault _, .value _]
  case calWr idx mn mx =>
    unfold execCalWr at h
    split at h
    · injection h with h; subst h; exact .fault _
    split at h
    · injection h with h; subst h; exact .fault _
    split at h
    · injection h with h; subst h; exact .fault _
    · injection h with h; subst h
      exact .calWr idx ⟨mn, mx⟩ (by simp_all) (by simp_all) (by simp_all)
  case calRd =>
    unfold execCalRd at h
    repeat' split at h
    all_goals (injection h with h; subst h)
    exacts [.fault _, .fault _, .value _]
  case serialStep =>
    unfold execSerialStep at h
    repeat' split at h
    all_goals (injection h with h; subst h)
    exacts [.fault _, .fault _, .answer _ (by simp_all)]
  case i2cStep =>
    unfold execI2cStep at h
    repeat' split at h
    all_goals (first | (injection h with h; subst h; exact .fault _) | skip)
    rw [ackAbort_ok] at h
    injection h with h; subst h
    refine .i2cStep _ (by simp_all) ?_
    cases hb : s.cfg.busSel <;> simp_all
  case busStart addr dir =>
    unfold execBusStart at h
    split at h <;> (injection h with h; subst h)
    · rename_i hm
      refine .busStart _ fun _ => ⟨hm.1, ?_⟩
      rw [hm.2]
      simp [filterOf]
      have := addr.isLt
      omega
    · exact .busStart _ fun h => by simp [Xfer.active] at h
  case busByte b =>
    unfold execBusByte at h
    split at h
    · injection h with h; subst h; exact .byteLost s.draws
    split at h <;> (injection h with h; subst h)
    · exact takeByte_effect _ _ _ _
    · exact takeByte_effect false b s.draws s
  case busStop => injection h with h; subst h; exact .busStart _ fun h => by simp [Xfer.active] at h
  case busTxAbort => injection h with h; subst h; exact .busAbort

/-- What a step can be (R11, R18, R127): a well-formed configuration, no Fault, and one enabled agent's step. -/
theorem step_cases {s t : State} (h : step s = .next t) :
    s.cfg.wf = true ∧ s.fault = none ∧
      ((nextAgent s = some .host ∧ hostStep (useTurn s) = .next t) ∨
        ∃ e, nextAgent s = some .master ∧ eventNow s = some e ∧
          exec e.toInstr (useEvent (useTurn s)) = .next t) := by
  unfold step at h
  split at h
  · cases h
  rename_i hc
  split at h
  · cases h
  rename_i hf
  split at h
  · cases h
  rename_i a ha
  refine ⟨by simpa using hc, hf, ?_⟩
  cases a with
  | host => exact .inl ⟨ha, h⟩
  | master =>
    simp only [agentStep, masterStep, eventNow_useTurn] at h
    split at h
    · cases h
    · exact .inr ⟨_, ha, ‹_›, h⟩

/-- The MASTER steps only where its next event is enabled (R117). -/
theorem nextAgent_master {s : State} (h : nextAgent s = some .master) :
    ∃ e, eventNow s = some e ∧ busEnabled e s = true := by
  have hm : masterCan s = true := by
    unfold nextAgent at h
    repeat' split at h
    all_goals simp_all
  unfold masterCan at hm
  cases he : eventNow s with
  | none => simp [he] at hm
  | some e => exact ⟨e, rfl, by simpa [he] using hm⟩

/-- An enabled bus event reaches neither the HOST's loop state nor the MASTER's later events, and stores at most one byte
(R116 to R119, R121). -/
theorem busEvent_enabled_frame {s t : State} {e : BusEvent} (he : busEnabled e s = true)
    (h : exec e.toInstr s = .next t) :
    t.cfg = s.cfg ∧ t.fault = s.fault ∧ t.prog = s.prog ∧ t.master = s.master ∧ t.masterAfter = s.masterAfter ∧
      t.rxf.length ≤ s.rxf.length + 1 := by
  have hb (lost : Bool) (b : Byte) (n : Nat) (hl : lost = false → masterHeld s = false) (hx : s.xfer = .wrMatched)
      (h : takeByte lost b { s with draws := n } = t) :
      t.cfg = s.cfg ∧ t.fault = s.fault ∧ t.prog = s.prog ∧ t.master = s.master ∧ t.masterAfter = s.masterAfter ∧
        t.rxf.length ≤ s.rxf.length + 1 := by
    subst h
    unfold takeByte receiveByte
    repeat' split
    · simp
    · simp [pushRx]
    · simp
    · have := hl (by simpa using ‹¬lost = true›)
      simp_all [masterHeld, rxFull]
  cases e <;> simp only [BusEvent.toInstr, exec] at h
  case start a d =>
    unfold execBusStart at h
    split at h <;> (injection h with h; subst h; simp)
  case stop => injection h with h; subst h; simp
  case txAbort => injection h with h; subst h; simp
  case byte b =>
    unfold execBusByte at h
    split at h
    · injection h with h; subst h; simp
    rename_i hx
    split at h <;> injection h with h
    · exact hb _ b _ (fun hl => by simpa [busEnabled, hl] using he) (by simpa using hx) h
    · exact hb false b s.draws (fun _ => by simp_all [busEnabled]) (by simpa using hx) h

/-- An operation in progress always leaves an agent with a step. -/
theorem nextAgent_busy {s : State} (h : s.prog ≠ .idle) : ∃ a, nextAgent s = some a := by
  have hh : hostCan s = true := by simp [hostCan, h]
  unfold nextAgent
  repeat' split
  all_goals simp_all

/-- What issuing a word can be (R58, R61, R62): an instruction's effect, a bus event that waits, or what the bytes that
are no instruction do. -/
theorem issueStep_cases {s t : State} (h : issueStep s = .next t) :
    ∃ ws, (∃ i, exec i { s with port := ws } = .next t) ∨
      (∃ e, t = { s with port := ws, master := s.master ++ [e] }) ∨
      (∃ k, t = raiseFault k { s with port := ws }) ∨
      (∃ r, t = { s with port := ws }.returning r) := by
  unfold issueStep at h
  split at h
  · cases h
  rename_i w ws _
  split at h
  · rename_i i rest _
    refine ⟨remaining rest ws, ?_⟩
    unfold runIssued at h
    split at h
    · exact .inl ⟨i, h⟩
    · split at h
      · exact .inl ⟨i, h⟩
      · injection h with h
        exact .inr (.inl ⟨_, h.symm⟩)
  · refine ⟨ws, ?_⟩
    unfold runRejected at h
    split at h
    · injection h with h; exact .inr (.inr (.inl ⟨_, h.symm⟩))
    · injection h with h; exact .inr (.inr (.inl ⟨_, h.symm⟩))
    · injection h with h; exact .inr (.inr (.inr ⟨_, h.symm⟩))
    · injection h with h; exact .inr (.inr (.inr ⟨_, h.symm⟩))
    · cases h

end Sys2Proof.Machine
end

