-- ==== Sys2Proof/Laws/Driver.lean ====
section
/-! SUPPORT. The register operations CONFIGURE is made of, each said once (spec 41_i2c_driver.md R84), the register
fields of a word, and what the later steps of the multi-step operations can do. -/

namespace Sys2Proof.Machine

/-! Register fields. -/

/-- `v[31:n] = 0` says that the value is below `2^n` (R64). -/
theorem reservedClear_eq {n : Nat} (v : Word) : reservedClear n v = decide (v.toNat < 2 ^ n) := by
  have h3 := Nat.two_pow_pos n
  simp only [reservedClear, decide_eq_decide]
  constructor
  · intro h
    have h := congrArg BitVec.toNat h
    simp only [BitVec.toNat_ushiftRight, Nat.shiftRight_eq_div_pow] at h
    have h : v.toNat / 2 ^ n = 0 := h
    rw [Nat.div_eq_zero_iff] at h
    omega
  · intro h
    apply BitVec.eq_of_toNat_eq
    simp only [BitVec.toNat_ushiftRight, Nat.shiftRight_eq_div_pow]
    exact Nat.div_eq_of_lt h

/-- A byte operand fits a pin select's field and is what is written (R75). -/
@[simp] theorem byteField_zextByte (b : Byte) : byteField (zextByte b) = b := by
  revert b
  decide

@[simp] theorem reservedClear_zextByte (b : Byte) : reservedClear 8 (zextByte b) = true := by
  revert b
  decide

/-- Clearing ten bits of the filter leaves nothing (R82). -/
theorem clearMask_saddr (a : BitVec 10) : clearMask (zextSaddr a) 0x3FF = 0 := by
  have h : a.toNat &&& (~~~(0x3FF : Word)).toNat = 0 := by
    have e : (~~~(0x3FF : Word)).toNat = 2 ^ 10 * 4194303 := by decide
    rw [e]
    apply Nat.eq_of_testBit_eq
    intro i
    rw [Nat.testBit_and, Nat.zero_testBit]
    by_cases hi : i < 10
    · rw [Nat.testBit_two_pow_mul]
      simp [Nat.not_le.mpr hi]
    · rw [Nat.testBit_lt_two_pow (Nat.lt_of_lt_of_le a.isLt (Nat.pow_le_pow_right (by omega) (Nat.not_lt.mp hi)))]
      rfl
  apply BitVec.eq_of_toNat_eq
  have hz : (a.zeroExtend 32).toNat = a.toNat := by
    simp
    have := a.isLt
    omega
  simp only [clearMask, zextSaddr, BitVec.toNat_and, hz, h]
  rfl

/-- `CLR IC_SADDR, 0x3FF` while disabled (R84). -/
theorem clear_saddr {s : State} (he : s.en = false) :
    regModify clearMask (offsetOf .icSaddr) 0x3FF s =
      .ok { s with saddr := 0, cfgd := { s.cfgd with saddr := true } } := by
  have h1 : reservedClear 10 (clearMask (zextSaddr s.saddr) 0x3FF) = true := by rw [clearMask_saddr]; rfl
  have h2 : saddrField (clearMask (zextSaddr s.saddr) 0x3FF) = 0 := by rw [clearMask_saddr]; rfl
  simp only [regModify, regAt_offsetOf, readWrite, readReg, writeReg, writeSaddr, h1, h2, he, Bool.not_true,
    Bool.false_eq_true, if_false]

/-- `SET IC_SADDR, zext_32(addr)` of a cleared filter while disabled (R84). -/
theorem set_saddr {s : State} (he : s.en = false) (h0 : s.saddr = 0) (a : Byte) :
    regModify setMask (offsetOf .icSaddr) (zextByte a) s =
      .ok { s with saddr := a.zeroExtend 10, cfgd := { s.cfgd with saddr := true } } := by
  have h2 : reservedClear 10 (setMask (zextSaddr 0) (zextByte a)) = true := by revert a; decide
  have h3 : saddrField (setMask (zextSaddr 0) (zextByte a)) = a.zeroExtend 10 := by revert a; decide
  simp only [regModify, regAt_offsetOf, readWrite, readReg, writeReg, writeSaddr, h0, h2, h3, he, Bool.not_true,
    Bool.false_eq_true, if_false]

/-- `WR IO_SDA_SEL, zext_32(sda)` of an allowed pin while disabled (R84). -/
theorem write_sda {s : State} (he : s.en = false) {sda : Byte} (hp : sda ∈ s.cfg.sdaPins) :
    regWrite (offsetOf .ioSdaSel) (zextByte sda) s =
      .ok { s with sdaSel := sda, cfgd := { s.cfgd with sda := true } } := by
  simp [regWrite, writeReg, writeSdaSel, he, hp]

/-- `WR IO_SCL_SEL, zext_32(scl)` of an allowed pin while disabled (R84). -/
theorem write_scl {s : State} (he : s.en = false) {scl : Byte} (hp : scl ∈ s.cfg.sclPins) :
    regWrite (offsetOf .ioSclSel) (zextByte scl) s =
      .ok { s with sclSel := scl, cfgd := { s.cfgd with scl := true } } := by
  simp [regWrite, writeReg, writeSclSel, he, hp]

/-- `SET IC_ENABLE, 0x1` of a disabled and fully configured controller (R84). -/
theorem set_enable {s : State} (he : s.en = false) (hc : s.cfgd.complete = true) (hp : s.sdaSel ≠ s.sclSel) :
    regModify setMask (offsetOf .icEnable) 0x1 s = .ok { s with en := true } := by
  have h1 : reservedClear 1 (setMask (zextBit false) 0x1) = true := by decide
  have h2 : bitField (setMask (zextBit false) 0x1) = true := by decide
  simp only [regModify, regAt_offsetOf, readWrite, readReg, writeReg, writeEnable, h1, h2, he, hc, hp, Bool.not_true,
    Bool.not_false, Bool.and_true, Bool.false_eq_true, if_false, if_true]

/-! What the command path's steps can do. -/

/-- A serial answer's command writes the outputs alone (R109, R111). -/
theorem takeAnswer_frame (a : SerialAnswer) (s : State) :
    ∃ c out hist, takeAnswer a s = { s with lastOutcome := c, actOut := out, outHist := hist } := by
  unfold takeAnswer
  split
  · exact ⟨_, _, _, rfl⟩
  split
  · exact ⟨_, _, _, rfl⟩
  · exact ⟨_, _, _, runCommand_frame _ _⟩

/-- Drained commands write the outputs alone (R109, R112). -/
theorem takeDrained_frame (f : Bool) (seq : List Byte) (s : State) :
    ∃ c out hist, takeDrained f seq s = { s with lastOutcome := c, actOut := out, outHist := hist } := by
  unfold takeDrained
  split
  · exact ⟨_, _, _, rfl⟩
  split
  · exact ⟨_, _, _, rfl⟩
  · exact ⟨_, _, _, runCommands_frame _ _⟩

/-- What a property of states must meet to be kept by a serial answer: it is kept by writing any outcome code, and by
a pulse with its outcome (R110, R111). -/
theorem takeAnswer_induction {P : State → Prop} (a : SerialAnswer) (s : State) (h0 : P s)
    (hcode : ∀ c s, c ∈ outcomeCodes → P s → P (setOutcome c s))
    (hemit : ∀ (cmd : Command) s p, P s → cmd.index.toNat < s.cfg.nAct → mapValue s cmd.index cmd.raw = .pulse p →
      P (setOutcome accepted (emitPulse cmd.index p s))) : P (takeAnswer a s) := by
  unfold takeAnswer
  split
  · exact hcode _ _ (by decide) h0
  split
  · rename_i r _
    exact hcode _ _ (by cases r <;> decide) h0
  · exact runCommands_induction [_] s h0 (fun _ s h _ => hcode _ s (by decide) h)
      (fun s h => hcode _ s (by decide) h) hemit

/-- The same for drained commands (R110, R112). -/
theorem takeDrained_induction {P : State → Prop} (f : Bool) (seq : List Byte) (s : State) (h0 : P s)
    (hcode : ∀ c s, c ∈ outcomeCodes → P s → P (setOutcome c s))
    (hemit : ∀ (cmd : Command) s p, P s → cmd.index.toNat < s.cfg.nAct → mapValue s cmd.index cmd.raw = .pulse p →
      P (setOutcome accepted (emitPulse cmd.index p s))) : P (takeDrained f seq s) := by
  unfold takeDrained
  split
  · exact hcode _ _ (by decide) h0
  split
  · exact hcode _ _ (by decide) h0
  · exact runCommands_induction _ s h0 (fun _ s h _ => hcode _ s (by decide) h)
      (fun s h => hcode _ s (by decide) h) hemit

/-- What a HOST step can be: a bus event that waits, the effect of an issued word, or a later step of the operation in
progress. -/
theorem hostStep_cases {s t : State} (h : hostStep s = .next t) :
    (∃ ws es, t = { s with port := ws, master := es }) ∨
    (∃ ws, Effect { s with port := ws } t) ∨
    (∃ next addr sda scl, s.prog = .configure next addr sda scl ∧ configureStep next addr sda scl s = .next t) ∨
    (∃ r, s.prog = .drain r ∧ drainStep r s = .next t) ∨
    (∃ f r, s.prog = .i2cDrain f r ∧ i2cDrainStep f r s = .next t) ∨
    (∃ f r, s.prog = .i2cFinish f r ∧ i2cFinishStep f r s = .next t) := by
  unfold hostStep at h
  split at h
  · obtain ⟨ws, ⟨i, h⟩ | ⟨e, rfl⟩ | ⟨k, rfl⟩ | ⟨k, rfl⟩⟩ := issueStep_cases h
    · exact .inr (.inl ⟨ws, exec_effect h⟩)
    · exact .inl ⟨_, _, rfl⟩
    · exact .inr (.inl ⟨ws, .fault k⟩)
    · exact .inr (.inl ⟨ws, .value k⟩)
  · exact .inr (.inr (.inl ⟨_, _, _, _, ‹_›, h⟩))
  · exact .inr (.inr (.inr (.inl ⟨_, ‹_›, h⟩)))
  · exact .inr (.inr (.inr (.inr (.inl ⟨_, _, ‹_›, h⟩))))
  · exact .inr (.inr (.inr (.inr (.inr ⟨_, _, ‹_›, h⟩))))

end Sys2Proof.Machine
end

