-- ==== Sys2Proof/Laws/PerInstr.lean ====
section
/-! SUPPORT. The statements made of every instruction, one lemma a constructor. -/

namespace Sys2Proof.Laws.EncodeSize

/-- An instruction's encoding has the length that R54, R57 and the `length` column of R60 give it. -/
def Statement (i : Instr) : Prop :=
  (encode i).length = i.size

theorem frameActuatorCmd (rsv : Rsv) (index : Byte) (value : Byte) : Statement (.frameActuatorCmd rsv index value) := rfl

theorem i2cPair (index : Byte) (value : Byte) : Statement (.i2cPair index value) := rfl

theorem decode (buf : List Byte) : Statement (.decode buf) := by
  simp [Statement, encode, bytesOfBuffer, Instr.size]
  omega

theorem rd (off : Byte) : Statement (.rd off) := rfl

theorem wr (off : Byte) (v : Word) : Statement (.wr off v) := rfl

theorem setBits (off : Byte) (m : Word) : Statement (.setBits off m) := rfl

theorem clrBits (off : Byte) (m : Word) : Statement (.clrBits off m) := rfl

theorem tglBits (off : Byte) (m : Word) : Statement (.tglBits off m) := rfl

theorem configure (addr : Byte) (sda : Byte) (scl : Byte) : Statement (.configure addr sda scl) := rfl

theorem hasData : Statement .hasData := rfl

theorem drain : Statement .drain := rfl

theorem ackAbort : Statement .ackAbort := rfl

theorem mapRaw (idx : Byte) (raw : Byte) : Statement (.mapRaw idx raw) := rfl

theorem calWr (idx : Byte) (min : Pulse) (max : Pulse) : Statement (.calWr idx min max) := rfl

theorem calRd (idx : Byte) : Statement (.calRd idx) := rfl

theorem serialStep (answer : SerialAnswer) : Statement (.serialStep answer) := by
  cases answer with
  | ok buf =>
    simp [Statement, encode, bytesOfAnswer, bytesOfBuffer, Instr.size]
    omega
  | err => rfl

theorem i2cStep (f : Bool) : Statement (.i2cStep f) := rfl

theorem busStart (addr : BitVec 7) (dir : Dir) : Statement (.busStart addr dir) := rfl

theorem busByte (b : Byte) : Statement (.busByte b) := rfl

theorem busStop : Statement .busStop := rfl

theorem busTxAbort : Statement .busTxAbort := rfl

end Sys2Proof.Laws.EncodeSize
end

