-- ==== Sys2Proof/Laws/Run.lean ====
section
/-! SUPPORT. Steps in a row: one step of a run, a step of an operation in progress, and a step that issues an
operation. -/

namespace Sys2Proof.Machine

/-- The first step of a run. -/
theorem runSteps_succ {s t : State} (h : step s = .next t) (n : Nat) : runSteps (n + 1) s = runSteps n t := by
  simp [runSteps, h]

/-- A run in two parts. -/
theorem runSteps_add {m : Nat} {s t : State} (h : runSteps m s = .next t) (n : Nat) :
    runSteps (m + n) s = runSteps n t := by
  induction m generalizing s with
  | zero => injection h with h; subst h; rw [Nat.zero_add]
  | succ m ih =>
    rw [Nat.succ_add]
    cases hs : step s with
    | next u =>
      rw [runSteps_succ hs] at h ⊢
      exact ih h
    | fault f => simp [runSteps, hs] at h
    | refused r => simp [runSteps, hs] at h

/-- With no turn named, an operation in progress goes on (R18, R20). -/
theorem step_busy {s : State} (hc : s.cfg.wf = true) (hf : s.fault = none) (hp : s.prog ≠ .idle)
    (ht : Undisturbed s) : step s = hostStep s := by
  simp [step, hc, hf, nextAgent, turnNow, ht.1, ht.2, hostCan, hp, agentStep, useTurn_of_none ht.1 ht.2]

/-- With no turn named, the issued operation runs (R58). -/
theorem step_issue {s : State} {i : Instr} {bs rest : List Byte} {ws : List PortWord} (hu : Undisturbed s)
    (hi : Issues s ⟨.op, bs⟩ ws) (hd : decode .op bs = .ok i rest) (ha : i.busEvent = none) :
    step s = exec i { s with port := remaining rest ws } := by
  obtain ⟨hc, hf, hi, ht, hw⟩ := hi
  have hne : bs ≠ [] := by
    rintro rfl
    simp [decode, decodeOp] at hd
  simp only [step, hc, hf, ht, agentStep, hostStep, useTurn_of_none hu.1 hu.2, hi, issueStep, hw, issued, hne, and_false,
    if_false, hd, Bool.not_true, Bool.false_eq_true, runIssued, ha]

/-- A DRAIN in progress, undisturbed, returns what it has read and everything waiting (R86). -/
theorem drain_run (q : List Byte) (s : State) (r : List Byte) (hc : s.cfg.wf = true) (hf : s.fault = none)
    (hp : s.prog = .drain r) (ht : Undisturbed s) (hq : s.rxf = q) :
    runSteps (q.length + 1) s =
      .next { s with rxf := [], draws := s.draws + q.length, prog := .idle, ret := .bytes (r ++ q) } := by
  induction q generalizing s r with
  | nil =>
    have h1 : step s = .next { s with rxf := [], draws := s.draws + 0, prog := .idle, ret := .bytes (r ++ []) } := by
      rw [step_busy hc hf (by simp [hp]) ht]
      simp only [hostStep, hp, drainStep, drainRead_nil hq]
      cases s
      simp_all [State.returning]
    rw [List.length_nil, Nat.zero_add, runSteps_succ h1]
    rfl
  | cons b q ih =>
    have h1 : step s = .next { s with rxf := q, draws := s.draws + 1, prog := .drain (r ++ [b]) } := by
      rw [step_busy hc hf (by simp [hp]) ht]
      simp only [hostStep, hp, drainStep, drainRead_cons hq]
    have h2 := ih { s with rxf := q, draws := s.draws + 1, prog := .drain (r ++ [b]) } (r ++ [b]) hc hf rfl ht rfl
    rw [List.length_cons, runSteps_succ h1, h2]
    simp only [List.append_assoc, List.singleton_append, Nat.add_assoc, Nat.add_comm 1]

/-- An I2C_STEP in its DRAIN, undisturbed, drains everything waiting and then takes its commands (R112). -/
theorem i2cDrain_run (f : Bool) (q : List Byte) (s : State) (r : List Byte) (hc : s.cfg.wf = true)
    (hf : s.fault = none) (hp : s.prog = .i2cDrain f r) (ht : Undisturbed s) (hq : s.rxf = q) :
    runSteps (q.length + 2) s =
      .next ({ takeDrained f (r ++ q) { s with rxf := [], draws := s.draws + q.length, prog := .i2cFinish f (r ++ q) }
        with prog := .idle }.returning .done) := by
  induction q generalizing s r with
  | nil =>
    have h1 : step s = .next { s with rxf := [], draws := s.draws + 0, prog := .i2cFinish f (r ++ []) } := by
      rw [step_busy hc hf (by simp [hp]) ht]
      simp only [hostStep, hp, i2cDrainStep, drainRead_nil hq]
      cases s
      simp_all
    have h2 : step { s with rxf := [], draws := s.draws + 0, prog := .i2cFinish f (r ++ []) } = _ :=
      step_busy hc hf (fun h => by cases h) ht
    rw [List.length_nil, runSteps_succ h1, runSteps_succ h2]
    rfl
  | cons b q ih =>
    have h1 : step s = .next { s with rxf := q, draws := s.draws + 1, prog := .i2cDrain f (r ++ [b]) } := by
      rw [step_busy hc hf (by simp [hp]) ht]
      simp only [hostStep, hp, i2cDrainStep, drainRead_cons hq]
    have h2 := ih { s with rxf := q, draws := s.draws + 1, prog := .i2cDrain f (r ++ [b]) } (r ++ [b]) hc hf rfl ht rfl
    rw [List.length_cons, Nat.add_right_comm, runSteps_succ h1, h2]
    simp only [List.append_assoc, List.singleton_append, Nat.add_assoc, Nat.add_comm 1]

end Sys2Proof.Machine
end

