-- ==== Sys2Proof/Tests/Slice0.lean ====
section
/-! SUPPORT. The model's own tests. Expected results are those of spec 95_test_vectors.md (V1 to V47, P1 to P6) and of
the encodings of 30_encoding.md; each docstring names its source. The witnesses after them show, for each statement with
hypotheses, concrete states and operands that meet them. -/

namespace Sys2Proof.Tests

open Sys2Proof.Machine

/-! Small states. -/

/-- The next state an outcome holds. -/
def after : Host.Outcome State Fault Refusal → Option State
  | .next t => some t
  | .fault _ => none
  | .refused _ => none

/-- The Fault an outcome's next state holds. -/
def faultOf (o : Host.Outcome State Fault Refusal) : Option FaultKind :=
  (after o).bind State.fault

/-- 95's frame `G`. -/
def frameG : List Byte :=
  [0xFF, 0x04, 0x0C, 0x08, 0x0E, 0x05, 0x08, 0, 0, 0, 0, 0, 0, 0x05, 0xC8, 0x0A]

/-- After `CONFIGURE 8, 4, 5`, with the receive FIFO and the transfer given. -/
def listening (rxf : List Byte) (x : Xfer) : State :=
  { State.reset with
    en := true
    saddr := 8
    sdaSel := 4
    sclSel := 5
    cfgd := ⟨true, true, true⟩
    rxf := rxf
    xfer := x }

/-- The same on the I2C command bus, with a pair policy. -/
def i2cBus (p : PairPolicy) (rxf : List Byte) : State :=
  { listening rxf .idle with cfg := { Config.bench with busSel := .i2c, pairPolicy := p } }

/-- After reset with `CAL_SELECT`. -/
def calibrating : State :=
  State.resetWith { Config.bench with calSelect := true } ResetDraws.zero

/-- After reset with `L = 11`, `N_ACT = 12` (V6). -/
def fatal : State :=
  State.resetWith { Config.bench with calTable := List.replicate 11 ⟨1000, 2000⟩ } ResetDraws.zero

/-- After reset with one calibration range for every actuator. -/
def ranged (lo hi : Pulse) : State :=
  State.resetWith { Config.bench with calTable := List.replicate 12 ⟨lo, hi⟩ } ResetDraws.zero

/-- With bytes on the operation port. -/
def placed (s : State) (bs : List Byte) : State :=
  { s with port := [⟨.op, bs⟩] }

/-! Well-formedness: one ill-formed term for each check. -/

theorem wellFormed_decode (buf : List Byte) : (Instr.decode buf).wellFormed = decide (buf.length ≤ 255) := rfl

theorem wellFormed_serialStep (buf : List Byte) :
    (Instr.serialStep (.ok buf)).wellFormed = decide (buf.length ≤ 255) := rfl

theorem test_buffer_of_256_bytes_refused : (Instr.decode (List.replicate 256 0)).wellFormed = false := by
  rw [wellFormed_decode, List.length_replicate]
  decide

theorem test_answer_of_256_bytes_refused :
    (Instr.serialStep (.ok (List.replicate 256 0))).wellFormed = false := by
  rw [wellFormed_serialStep, List.length_replicate]
  decide

theorem test_configure_address_0x80_refused : (Instr.configure 0x80 4 5).wellFormed = false := by decide

theorem test_config_range_refused :
    ({ Config.bench with calTable := [⟨2000, 2000⟩] } : Config).wf = false := by decide

theorem test_config_universal_range_refused : ({ Config.bench with umax := 1000 } : Config).wf = false := by decide

theorem test_config_reference_refused : ({ Config.bench with refIndex := 12 } : Config).wf = false := by decide

theorem test_config_fifo_of_one_refused : ({ Config.bench with rxFifoDepth := 1 } : Config).wf = false := by decide

theorem test_config_sda_pin_refused : ({ Config.bench with sdaPins := [16] } : Config).wf = false := by decide

theorem test_config_scl_pin_refused : ({ Config.bench with sclPins := [16] } : Config).wf = false := by decide

theorem test_config_actuator_count_refused :
    ({ Config.bench with nAct := 257 } : Config).wf = false ∧ ({ Config.bench with nAct := 0 } : Config).wf = false := by
  decide

theorem test_config_pin_count_refused :
    ({ Config.bench with nPin := 257 } : Config).wf = false ∧
      ({ Config.bench with nPin := 0, sdaPins := [], sclPins := [] } : Config).wf = false := by decide

theorem test_bench_config_accepted : Config.bench.wf = true := by decide

/-! Decoding: a word of each row, written out from 30_encoding.md R54, R57 and R60. -/

/-- V1's buffer. -/
theorem test_decode_frame : decode .frame16 frameG = .ok (.frameActuatorCmd ⟨0, 0, 0, 0, 0, 0⟩ 5 200) [] := by decide

/-- V11's buffer: the reserved bytes are carried. -/
theorem test_decode_frame_reserved :
    decode .frame16 [0xFF, 0x04, 0x0C, 0x08, 0x0E, 0x05, 0x08, 0xAA, 0xBB, 0xCC, 0xDD, 0xEE, 0x11, 0x00, 0xFF, 0x0A] =
      .ok (.frameActuatorCmd ⟨0xAA, 0xBB, 0xCC, 0xDD, 0xEE, 0x11⟩ 0 255) [] := by decide

theorem test_decode_pair : decode .pair2 [0x03, 0x80] = .ok (.i2cPair 3 128) [] := by decide

theorem test_decode_decode : decode .op [0x01, 0x02, 0xFF, 0x04] = .ok (.decode [0xFF, 0x04]) [] := by decide

theorem test_decode_rd : decode .op [0x10, 0x08] = .ok (.rd 0x08) [] := by decide

theorem test_decode_wr : decode .op [0x11, 0x18, 0x05, 0x02, 0x03, 0x04] = .ok (.wr 0x18 0x04030205) [] := by decide

theorem test_decode_set : decode .op [0x12, 0x04, 0x08, 0x00, 0x00, 0x80] = .ok (.setBits 0x04 0x80000008) [] := by
  decide

theorem test_decode_clr : decode .op [0x13, 0x04, 0xFF, 0x03, 0x00, 0x00] = .ok (.clrBits 0x04 0x3FF) [] := by decide

theorem test_decode_tgl : decode .op [0x14, 0x00, 0x01, 0x00, 0x00, 0x00] = .ok (.tglBits 0x00 0x1) [] := by decide

theorem test_decode_configure : decode .op [0x20, 0x08, 0x04, 0x05] = .ok (.configure 8 4 5) [] := by decide

theorem test_decode_has_data : decode .op [0x21] = .ok .hasData [] := by decide

theorem test_decode_drain : decode .op [0x22] = .ok .drain [] := by decide

theorem test_decode_ack_abort : decode .op [0x23, 0x80, 0x08] = .ok .ackAbort [0x80, 0x08] := by decide

theorem test_decode_map : decode .op [0x30, 0x00, 0x80] = .ok (.mapRaw 0 128) [] := by decide

theorem test_decode_cal_wr : decode .op [0x31, 0x00, 0x84, 0x03, 0x34, 0x08] = .ok (.calWr 0 900 2100) [] := by decide

theorem test_decode_cal_rd : decode .op [0x32, 0x0C] = .ok (.calRd 12) [] := by decide

theorem test_decode_serial_step :
    decode .op ([0x40, 0x00, 0x10] ++ frameG) = .ok (.serialStep (.ok frameG)) [] ∧
      decode .op [0x40, 0x01] = .ok (.serialStep .err) [] := by decide

theorem test_decode_i2c_step :
    decode .op [0x41, 0x00] = .ok (.i2cStep false) [] ∧ decode .op [0x41, 0x01] = .ok (.i2cStep true) [] := by decide

theorem test_decode_bus_start :
    decode .op [0x80, 0x08] = .ok (.busStart 8 .write) [] ∧ decode .op [0x80, 0x88] = .ok (.busStart 8 .read) [] := by
  decide

theorem test_decode_bus_byte : decode .op [0x81, 0x03] = .ok (.busByte 3) [] := by decide

theorem test_decode_bus_stop : decode .op [0x82] = .ok .busStop [] := by decide

theorem test_decode_bus_tx_abort : decode .op [0x83] = .ok .busTxAbort [] := by decide

/-- V46, and the bytes that end early of V13, V24 and V47. -/
theorem test_decode_rejects :
    decode .op [0x84] = .reject .badOpcode ∧ decode .op [0x00] = .reject .badOpcode ∧
      decode .op [0x01, 0x10, 0xFF, 0x04] = .reject .badOperand ∧ decode .op [0x41, 0x02] = .reject .badOperand ∧
      decode .op [0x40, 0x02] = .reject .badOperand ∧ decode .op [0x11, 0x00, 0x01, 0x00] = .reject .badOperand ∧
      decode .op [0x20, 0x80, 0x04, 0x05] = .reject .badOperand := by decide

/-! Words as the table numbers them, and the step that runs them. -/

theorem test_table_word_has_data : decodeTableWord 8 0x21 = some .hasData := by decide

theorem test_table_word_wr : decodeTableWord 8 0x11 = some (.wr 0 0) := by decide

theorem test_table_word_serial_step : decodeTableWord 8 0x40 = some (.serialStep (.ok [])) := by decide

theorem test_table_word_pair : decodeTableWord 16 0x8003 = some (.i2cPair 3 128) := by decide

/-- The frame row's own match value, byte 0 first. -/
theorem test_table_word_frame :
    decodeTableWord 128 0xFF040C080E050800000000000000000A =
      some (.frameActuatorCmd ⟨0, 0, 0, 0, 0, 0⟩ 0 0) := by decide

theorem test_fetch_word_runs :
    (after (step (State.reset.withFetchWord 8 0x21))).map State.ret = some (.flag false) := by decide

theorem test_fetch_frame_runs :
    (after (step (State.reset.withFetchWord 128 0xFF040C080E050800000000000000000A))).map State.ret =
      some (.decoded (.accepted 0 0 ⟨0, 0, 0, 0, 0, 0⟩)) := by decide

/-- From reset with nothing placed the machine waits (R138; log entry 5). -/
theorem test_reset_waits : step State.reset = .fault .noStep := by rfl

/-! One step of each instruction. -/

/-- V1. -/
theorem test_frame_accepted :
    (after (exec (.frameActuatorCmd ⟨0, 0, 0, 0, 0, 0⟩ 5 200) State.reset)).map State.ret =
      some (.decoded (.accepted 5 200 ⟨0, 0, 0, 0, 0, 0⟩)) := by decide

/-- V36's pair. -/
theorem test_pair_command :
    (after (exec (.i2cPair 3 128) State.reset)).map State.ret = some (.commands [⟨3, 128⟩]) := by decide

/-- V2, V3 and V10: the reasons in their order. -/
theorem test_decode_reasons :
    frameDecode (frameG.set 0 0xFE) = .rejected .badSentinel ∧ frameDecode (frameG.set 15 0x0B) = .rejected .badTerminator ∧
      frameDecode (frameG.set 4 0x0F) = .rejected .badHeader ∧ frameDecode (frameG.set 6 0x09) = .rejected .badCommand ∧
      frameDecode (frameG ++ [0x0A]) = .rejected .sizeMismatch ∧
      frameDecode ((frameG.set 15 0).set 1 0) = .rejected .badTerminator := by decide

/-- V13: `01 00`. -/
theorem test_decode_empty :
    (after (exec (.decode []) State.reset)).map State.ret = some (.decoded (.rejected .sizeMismatch)) := by decide

/-- V37: `RD IC_STATUS` while RD_MATCHED. -/
theorem test_rd_status :
    (after (exec (.rd 0x08) (listening [] .rdMatched))).map State.ret = some (.word 0x00000004) := by decide

/-- V31: `RD IC_DATA_CMD` pops the oldest byte. -/
theorem test_rd_data_pops :
    (after (exec (.rd 0x0C) (listening [0x5A, 0x33] .idle))).map State.rxf = some [0x33] := by decide

/-- V28: the write that enables after the three registers, and the value with a reserved bit. -/
theorem test_wr_enable :
    (after (exec (.wr 0x00 1) { listening [] .idle with en := false })).map State.en = some true ∧
      faultOf (exec (.wr 0x00 0x3) State.reset) = some .reservedBits := by decide

/-- V29: reserved bits are checked before the enable. -/
theorem test_wr_saddr_order : faultOf (exec (.wr 0x04 0x400) (listening [] .idle)) = some .reservedBits := by decide

/-- P3 step 2. -/
theorem test_set_saddr :
    (after (exec (.setBits 0x04 0x8) State.reset)).map State.saddr = some 0x008 := by decide

/-- V29: SET with every bit of the mask. -/
theorem test_set_reserved : faultOf (exec (.setBits 0x04 0xFFFFFFFF) State.reset) = some .reservedBits := by decide

/-- V29: CLR with every bit of the mask. -/
theorem test_clr_saddr :
    (after (exec (.clrBits 0x04 0xFFFFFFFF) { State.reset with saddr := 0x155 })).map (fun t => (t.saddr, t.fault)) =
      some (0, none) := by decide

/-- V28: CLR IC_ENABLE in a transfer. -/
theorem test_clr_enable_transfer :
    faultOf (exec (.clrBits 0x00 0x1) (listening [] .wrMatched)) = some .disableDuringTransfer := by decide

/-- V29: TGL. -/
theorem test_tgl_saddr :
    (after (exec (.tglBits 0x04 0x1) { State.reset with saddr := 0x008 })).map State.saddr = some 0x009 := by decide

/-- V27: TGL of a write-only register. -/
theorem test_tgl_access : faultOf (exec (.tglBits 0x10 0x1) State.reset) = some .access := by decide

/-- V32: the checks of CONFIGURE. -/
theorem test_configure_arguments :
    faultOf (exec (.configure 8 4 4) State.reset) = some .configArg ∧
      faultOf (exec (.configure 8 16 5) State.reset) = some .configArg ∧
      faultOf (exec (.configure 8 4 5) (listening [] .wrMatched)) = some .configDuringTransfer := by decide

/-- R84: the last sub-step enables the controller. -/
theorem test_configure_enables :
    (after (step { listening [] .idle with en := false, prog := .configure .enable 8 4 5 })).map
      (fun t => (t.en, t.prog)) = some (true, .idle) := by decide

/-- V33. -/
theorem test_has_data :
    (after (exec .hasData (listening [] .idle))).map State.ret = some (.flag false) ∧
      (after (exec .hasData (listening [0x00] .idle))).map State.ret = some (.flag true) := by decide

/-- V5. -/
theorem test_drain_empty :
    (after (exec .drain (listening [] .idle))).map (fun t => (t.ret, t.rxf)) = some (.bytes [], []) := by decide

/-- V34: the iteration that returns, after three bytes. -/
theorem test_drain_returns :
    (after (step { listening [] .idle with prog := .drain [1, 2, 3] })).map (fun t => (t.ret, t.prog)) =
      some (.bytes [1, 2, 3], .idle) := by decide

/-- V35. -/
theorem test_ack_abort :
    (after (exec .ackAbort { State.reset with txAbrt := true })).map State.txAbrt = some false := by decide

/-- V14: raw 200, and V16: raw 2 in the range (0, 100). -/
theorem test_map :
    (after (exec (.mapRaw 0 200) State.reset)).map State.ret = some (.mapped (.pulse 1784)) ∧
      (after (exec (.mapRaw 0 2) (ranged 0 100))).map State.ret = some (.mapped .noOp) := by decide

/-- V20. -/
theorem test_map_faults :
    faultOf (exec (.mapRaw 12 0) State.reset) = some .mapIndex ∧
      faultOf (exec (.mapRaw 200 0) fatal) = some .mode := by decide

/-- V40. -/
theorem test_cal_wr :
    (after (exec (.calWr 0 900 2100) calibrating)).map (fun t => t.ct[0]?) = some (some ⟨900, 2100⟩) := by decide

/-- V41, V42 and V43. -/
theorem test_cal_wr_faults :
    faultOf (exec (.calWr 1 900 2100) calibrating) = some .calLocked ∧
      faultOf (exec (.calWr 0 1500 1500) calibrating) = some .calInvalid ∧
      faultOf (exec (.calWr 0 900 2100) State.reset) = some .calLocked := by decide

/-- V44. -/
theorem test_cal_rd :
    (after (exec (.calRd 0) State.reset)).map State.ret = some (.range ⟨1000, 2000⟩) ∧
      faultOf (exec (.calRd 12) State.reset) = some .calIndex := by decide

/-- V21: OK G. -/
theorem test_serial_step_pulse :
    (after (exec (.serialStep (.ok frameG)) State.reset)).map
      (fun t => (t.lastOutcome, t.outHist, t.actOut[5]?)) = some (0x10, [(5, 1784)], some (some 1784)) := by decide

/-- V7, and V21: ERR. -/
theorem test_serial_step_no_pulse :
    (after (exec (.serialStep (.ok (frameG.set 13 0x0C))) State.reset)).map (fun t => (t.lastOutcome, t.outHist)) =
        some (0x07, []) ∧
      (after (exec (.serialStep .err) State.reset)).map (fun t => (t.lastOutcome, t.outHist)) = some (0x06, []) := by
  decide

/-- V22. -/
theorem test_i2c_step_bus : faultOf (exec (.i2cStep false) State.reset) = some .busSel := by decide

/-- V23: six drained bytes under PAIRS. -/
theorem test_i2c_step_pairs :
    (after (step { i2cBus .pairs [] with prog := .i2cFinish false [0x01, 0xFF, 0x0C, 0x00, 0x02, 0x00] })).map
      (fun t => (t.lastOutcome, t.outHist)) = some (0x10, [(1, 2000), (2, 1000)]) := by decide

/-- V37. -/
theorem test_bus_start :
    (after (exec (.busStart 8 .write) (listening [] .idle))).map State.xfer = some .wrMatched ∧
      (after (exec (.busStart 8 .read) (listening [] .idle))).map State.xfer = some .rdMatched ∧
      (after (exec (.busStart 9 .write) (listening [] .idle))).map State.xfer = some .other := by decide

/-- V37 and V28: a disabled controller matches nothing. -/
theorem test_bus_start_disabled :
    (after (exec (.busStart 8 .write) { listening [] .idle with en := false })).map State.xfer = some .other := by
  decide

/-- V38, DROP_NEW with a depth of 4: the fourth byte fits and a fifth is lost. -/
theorem test_bus_byte :
    (after (exec (.busByte 4) (listening [1, 2, 3] .wrMatched))).map State.rxf = some [1, 2, 3, 4] ∧
      (after (exec (.busByte 5) (listening [1, 2, 3, 4] .wrMatched))).map State.rxf = some [1, 2, 3, 4] := by decide

/-- V38, HOLD_MASTER with a depth of 2: the MASTER is held on the third byte. -/
theorem test_bus_byte_held :
    (after (exec (.busByte 3) { listening [1, 2] .wrMatched with
      cfg := { Config.bench with rxFifoDepth := 2, rxOverflow := .holdMaster } })).map
      (fun t => (t.rxf, t.master)) = some ([1, 2], [.byte 3]) := by decide

/-- P1 step 6. -/
theorem test_bus_stop :
    (after (exec .busStop (listening [3, 0x80] .wrMatched))).map (fun t => (t.xfer, t.rxf)) =
      some (.idle, [3, 0x80]) := by decide

/-- V39. -/
theorem test_bus_tx_abort : (after (exec .busTxAbort State.reset)).map statusWord = some 0x00000002 := by decide

/-- V45 and V6. -/
theorem test_reset_modes :
    State.reset.mode = .serving ∧ calibrating.mode = .calibrating ∧ fatal.mode = .fatal ∧
      fatal.lastOutcome = 0xFF ∧ alarm fatal = true ∧ alarm State.reset = false := by decide

/-- R127: nothing runs after a Fault. -/
theorem test_fault_is_final :
    step { placed State.reset [0x21] with fault := some .access } = .fault (.halted .access) := by rfl

/-! Witnesses: concrete states and operands that meet the hypotheses of each statement, clause by clause. -/

/-- Bytes on the port of a machine at rest are issued next. -/
theorem issues_placed {s : State} {bs : List Byte}
    (h : (s.cfg.wf && decide (s.fault = none) && decide (s.prog = .idle) && decide (s.turns = [])
      && decide (s.turnsAfter = .none) && decide (bs ≠ [])) = true) : Issues (placed s bs) ⟨.op, bs⟩ [] := by
  simp only [Bool.and_eq_true, decide_eq_true_eq] at h
  obtain ⟨⟨⟨⟨⟨hc, hf⟩, hp⟩, ht⟩, hta⟩, hb⟩ := h
  exact ⟨hc, hf, hp, by simp [nextAgent, turnNow, placed, ht, hta, hostCan, issued, hb], rfl⟩

/-- The bus invariant of a machine with no operation in progress, by its six other parts. -/
theorem busInvariant_of_idle {s : State} (hp : s.prog = .idle)
    (h : s.rxf.length ≤ s.cfg.rxFifoDepth ∧ (s.en = true → s.cfgd.complete = true ∧ s.sdaSel ≠ s.sclSel) ∧
      (s.cfgd.sda = true → s.sdaSel ∈ s.cfg.sdaPins) ∧ (s.cfgd.scl = true → s.sclSel ∈ s.cfg.sclPins) ∧
      (activity s = true → s.en = true) ∧ (activity s = true → s.saddr.toNat < 128)) : BusInvariant s :=
  ⟨h.1, h.2.1, h.2.2.1, h.2.2.2.1, h.2.2.2.2.1, h.2.2.2.2.2, by simp [configureHolds, hp]⟩

theorem witness_DecodeInvertsEncode :
    (Instr.decode (List.replicate 255 0)).wellFormed = true ∧ (Instr.decode []).format = .op ∧
      (Instr.configure 0x7F 0 255).wellFormed = true ∧ (Instr.busStart 0x7F .read).wellFormed = true ∧
      (Instr.frameActuatorCmd ⟨0, 0, 0, 0, 0, 0⟩ 255 255).wellFormed = true := by
  rw [wellFormed_decode, List.length_replicate]
  decide

theorem witness_EncodeInvertsDecode :
    decode .frame16 frameG = .ok (.frameActuatorCmd ⟨0, 0, 0, 0, 0, 0⟩ 5 200) [] ∧
      decode .pair2 [0xFF, 0x00] = .ok (.i2cPair 255 0) [] ∧
      decode .op [0x01, 0x00, 0x21] = .ok (.decode []) [0x21] := by decide

theorem witness_ReservedOpcodeRaisesBadOpcode :
    (∀ opc ∈ ([0x00, 0x02, 0x0F, 0x15, 0x1F, 0x24, 0x2F, 0x33, 0x3F, 0x42, 0x7F, 0x84, 0xFF] : List Byte),
      Issues (placed State.reset [opc]) ⟨.op, [opc]⟩ [] ∧
        (opc.toNat = 0 ∨ (0x02 ≤ opc.toNat ∧ opc.toNat ≤ 0x0F) ∨ (0x15 ≤ opc.toNat ∧ opc.toNat ≤ 0x1F) ∨
          (0x24 ≤ opc.toNat ∧ opc.toNat ≤ 0x2F) ∨ (0x33 ≤ opc.toNat ∧ opc.toNat ≤ 0x3F) ∨
          (0x42 ≤ opc.toNat ∧ opc.toNat ≤ 0x7F) ∨ 0x84 ≤ opc.toNat)) ∧
      faultOf (step (placed State.reset [0x84])) = some .badOpcode :=
  ⟨fun opc h => ⟨issues_placed rfl, by revert opc; decide⟩, rfl⟩

theorem witness_MalformedOperandsRaiseBadOperand :
    (Issues (placed State.reset [0x01, 0x02, 0xFF]) ⟨.op, [0x01, 0x02, 0xFF]⟩ [] ∧
      (Instr.decode [0xFF, 0x04]).format = .op ∧ (Instr.decode [0xFF, 0x04]).wellFormed = true ∧
      3 < (Instr.decode [0xFF, 0x04]).size ∧ [0x01, 0x02, 0xFF] = (encode (.decode [0xFF, 0x04])).take 3) ∧
    (Issues (placed State.reset [0x40, 0x02]) ⟨.op, [0x40, 0x02]⟩ [] ∧ (0x02 : Byte) ≠ 0x00 ∧ (0x02 : Byte) ≠ 0x01) ∧
    (Issues (placed State.reset [0x41, 0x02]) ⟨.op, [0x41, 0x02]⟩ [] ∧ (0x02 : Byte) ≠ 0x00 ∧ (0x02 : Byte) ≠ 0x01) ∧
    (Issues (placed State.reset [0x20, 0x80, 0x04, 0x05]) ⟨.op, [0x20, 0x80, 0x04, 0x05]⟩ [] ∧
      0x80 ≤ BitVec.toNat (0x80 : Byte)) :=
  ⟨⟨issues_placed rfl, by decide⟩, ⟨issues_placed rfl, by decide⟩, ⟨issues_placed rfl, by decide⟩,
    ⟨issues_placed rfl, by decide⟩⟩

theorem witness_FrameInstructionCompletes :
    ∃ s : State, Issues s ⟨.frame16, encode (.frameActuatorCmd ⟨1, 2, 3, 4, 5, 6⟩ 255 0)⟩ [] :=
  ⟨{ State.reset with port := [⟨.frame16, encode (.frameActuatorCmd ⟨1, 2, 3, 4, 5, 6⟩ 255 0)⟩] },
    by decide, rfl, rfl, by decide, rfl⟩

theorem witness_OneWrongByteRejectsFrame :
    ∀ p ∈ [0, 15, 1, 4, 5, 6], (frameBytes ⟨0, 0, 0, 0, 0, 0⟩ 5 200)[p]? ≠ some 0x00 := by decide

theorem witness_DataRegisterPopsOldestByte :
    (listening [0x5A, 0x33] .idle).rxf = 0x5A :: [0x33] ∧ State.reset.rxf = [] := by decide

theorem witness_UnmappedOffsetRaisesBadOffset :
    BitVec.toNat (0x01 : Byte) % 4 ≠ 0 ∧ 0x1C ≤ BitVec.toNat (0x1C : Byte) ∧
      (BitVec.toNat (0x18 : Byte) % 4 = 0 ∧ BitVec.toNat (0x18 : Byte) < 0x1C ∧ State.reset.fault = none ∧
        ∃ t, exec (.rd 0x18) State.reset = .next t) :=
  ⟨by decide, by decide, by decide, by decide, by decide, _, rfl⟩

theorem witness_EnableRegisterFollowsItsChecks :
    2 ≤ BitVec.toNat (2 : Word) ∧
    (State.reset.en = false ∧ State.reset.cfgd ≠ ⟨true, true, true⟩) ∧
    (∃ s : State, s.en = false ∧ s.cfgd = ⟨true, true, true⟩ ∧ s.sdaSel = s.sclSel) ∧
    (∃ s : State, s.en = false ∧ s.cfgd = ⟨true, true, true⟩ ∧ s.sdaSel ≠ s.sclSel) ∧
    ((listening [] .wrMatched).en = true ∧ (listening [] .wrMatched).xfer = .wrMatched) ∧
    ((listening [] .other).en = true ∧ (listening [] .other).xfer ≠ .wrMatched ∧
      (listening [] .other).xfer ≠ .rdMatched) ∧
    (BusInvariant State.reset ∧ State.reset.en = false) :=
  ⟨by decide, by decide, ⟨{ listening [] .idle with en := false, sclSel := 4 }, by decide⟩,
    ⟨{ listening [] .idle with en := false }, by decide⟩, by decide, by decide,
    ⟨busInvariant_of_idle rfl (by decide), by decide⟩⟩

theorem witness_SaddrRegisterFollowsItsChecks :
    0x400 ≤ BitVec.toNat (0x400 : Word) ∧
    (BitVec.toNat (0x3FF : Word) < 0x400 ∧ (listening [] .idle).en = true ∧ State.reset.en = false) ∧
    128 ≤ ({ State.reset with saddr := 0x80 } : State).saddr.toNat := by decide

theorem witness_PinRegistersFollowTheirChecks :
    0x100 ≤ BitVec.toNat (0x100 : Word) ∧
    (BitVec.toNat (0xFF : Word) < 0x100 ∧ (listening [] .idle).en = true) ∧
    (BitVec.toNat (16 : Word) < 0x100 ∧ State.reset.en = false ∧
      (16 : Word).extractLsb' 0 8 ∉ State.reset.cfg.sdaPins ∧ (16 : Word).extractLsb' 0 8 ∉ State.reset.cfg.sclPins) ∧
    ((15 : Word).extractLsb' 0 8 ∈ State.reset.cfg.sdaPins ∧ (15 : Word).extractLsb' 0 8 ∈ State.reset.cfg.sclPins) := by
  decide

theorem witness_ClearAbortRegisterClearsTheFlag : 2 ≤ BitVec.toNat (3 : Word) := by decide

theorem witness_ReadModifyWriteIsWriteOfNewValue :
    (BitVec.toNat (0x02 : Byte) % 4 ≠ 0 ∧ 0x1C ≤ BitVec.toNat (0x1C : Byte)) ∧
      (∃ off : Byte, off = 0x08 ∨ off = 0x0C ∨ off = 0x10) ∧
      (∃ off : Byte, off = 0x00 ∨ off = 0x04 ∨ off = 0x14 ∨ off = 0x18) :=
  ⟨by decide, ⟨0x08, .inl rfl⟩, ⟨0x00, .inl rfl⟩⟩

theorem witness_ReadModifyWriteOfSaddrCompletes :
    State.reset.en = false ∧ BitVec.toNat (0x3FF : Word) < 0x400 ∧ 0x400 ≤ BitVec.toNat (0x400 : Word) := by decide

theorem witness_ConfigureChecksItsArguments :
    0x80 ≤ BitVec.toNat (0x80 : Byte) ∧
    (BitVec.toNat (0x7F : Byte) < 0x80 ∧ (16 : Byte) ∉ State.reset.cfg.sdaPins ∧ (16 : Byte) ∉ State.reset.cfg.sclPins) ∧
    ((4 : Byte) ≠ 5 ∧ (4 : Byte) ∈ (listening [] .wrMatched).cfg.sdaPins ∧
      (5 : Byte) ∈ (listening [] .wrMatched).cfg.sclPins ∧ (listening [] .wrMatched).xfer = .wrMatched) := by decide

theorem witness_ConfigureEnablesTheController :
    (BitVec.toNat (0x7F : Byte) < 0x80 ∧ (4 : Byte) ≠ 5 ∧ (4 : Byte) ∈ State.reset.cfg.sdaPins ∧
      (5 : Byte) ∈ State.reset.cfg.sclPins ∧ State.reset.xfer ≠ .wrMatched ∧ State.reset.xfer ≠ .rdMatched) ∧
    Issues (placed State.reset (encode (.configure 0x7F 4 5) ++ [])) ⟨.op, encode (.configure 0x7F 4 5) ++ []⟩ [] ∧
    Undisturbed (placed State.reset (encode (.configure 0x7F 4 5) ++ [])) :=
  ⟨by decide, issues_placed rfl, rfl, rfl⟩

theorem witness_ConfigureIsIdempotent :
    let bs := encode (.configure 0x7F 4 5) ++ (encode (.configure 0x7F 4 5) ++ [])
    (BitVec.toNat (0x7F : Byte) < 0x80 ∧ (4 : Byte) ≠ 5 ∧ (4 : Byte) ∈ State.reset.cfg.sdaPins ∧
      (5 : Byte) ∈ State.reset.cfg.sclPins ∧ State.reset.xfer ≠ .wrMatched ∧ State.reset.xfer ≠ .rdMatched) ∧
    Issues (placed State.reset bs) ⟨.op, bs⟩ [] ∧ Undisturbed (placed State.reset bs) :=
  ⟨by decide, issues_placed rfl, rfl, rfl⟩

theorem witness_HasDataTestsTheFifo :
    (listening [0] .wrMatched).rxf ≠ [] ∧ ∃ t, exec (BusEvent.toInstr .stop) (listening [0] .wrMatched) = .next t :=
  ⟨by decide, _, rfl⟩

theorem witness_DrainReturnsEveryByte :
    State.reset.rxf = [] ∧ (listening [1, 2] .idle).rxf = 1 :: [2] ∧
      Issues (placed (listening [1, 2] .idle) (encode .drain ++ [])) ⟨.op, encode .drain ++ []⟩ [] ∧
      Undisturbed (placed (listening [1, 2] .idle) (encode .drain ++ [])) :=
  ⟨by decide, by decide, issues_placed rfl, rfl, rfl⟩

theorem witness_DrainReadsThroughTheRegisters :
    (statusWord State.reset).getLsbD 0 = false ∧ (statusWord (listening [1] .idle)).getLsbD 0 = true := by decide

/-- V34's second case. -/
theorem witness_DrainIncludesBytesStoredMeanwhile :
    ∃ s : State, s.cfg.wf = true ∧ s.fault = none ∧ s.prog = .drain [1] ∧ s.xfer = .wrMatched ∧ s.txAbrt = false ∧
      s.rxf.length < s.cfg.rxFifoDepth ∧ s.master = .byte 2 :: [] ∧ s.turns = [.master] ∧ s.turnsAfter = .none :=
  ⟨{ listening [] .wrMatched with prog := .drain [1], master := [.byte 2], turns := [.master] }, by decide⟩

/-- A DRAIN against a MASTER that stores the byte 7 between every two iterations without end (R150). -/
def flooded (p : Progress) : State :=
  { listening [1] .wrMatched with
    prog := p
    masterAfter := .again [.byte 7]
    turnsAfter := .again [.host, .master] }

theorem witness_DrainEndsWithMasterNotUnderRefill :
    (∃ s : State, s.cfg.wf = true ∧ s.fault = none ∧ s.prog = .drain [] ∧ s.masterAfter = .none ∧
      s.turnsAfter = .again [.master] ∧ s.master.length = 1) ∧
    (∃ s : State, s.cfg.wf = true ∧ s.fault = none ∧ s.prog = .i2cDrain false [] ∧ s.masterAfter = .none) ∧
    (∀ p ∈ [Progress.drain [], .i2cDrain true []], (flooded p).cfg.wf = true ∧ (flooded p).fault = none ∧
      (flooded p).xfer = .wrMatched ∧ (flooded p).txAbrt = false ∧ (flooded p).rxf ≠ [] ∧
      (flooded p).rxf.length ≤ (flooded p).cfg.rxFifoDepth ∧ (flooded p).master = [] ∧
      (flooded p).masterAfter = .again [.byte 7] ∧ (flooded p).turns = [] ∧
      (flooded p).turnsAfter = .again [.host, .master] ∧ (flooded p).prog = p) :=
  ⟨⟨{ listening [1] .wrMatched with prog := .drain [], master := [.byte 2], turnsAfter := .again [.master] }, by decide⟩,
    ⟨{ i2cBus .exact2 [1] with prog := .i2cDrain false [] }, by decide⟩, by decide⟩

/-- R121 and R150: after the HOST's iteration the unending MASTER has the turn. -/
theorem test_flooded_turn :
    (after (step (flooded (.drain [])))).map (fun t => (t.rxf, t.prog, turnNow t)) =
      some ([], .drain [1], some .master) := by decide

/-- R117: the MASTER's step stores its byte, and it goes on with the same one. -/
theorem test_flooded_store :
    (after (step { flooded (.drain [1]) with rxf := [], turns := [.master] })).map
      (fun t => (t.rxf, eventNow t, turnNow t)) = some ([7], some (.byte 7), some .host) := by decide

theorem witness_AckAbortClearsTheFlag :
    ∃ t u, exec .ackAbort State.reset = .next t ∧ exec .busTxAbort t = .next u :=
  ⟨_, _, rfl, rfl⟩

theorem witness_PairExtractionFollowsThePolicy :
    ([1, 2, 3] : List Byte).length ≠ 2 ∧ ([7] : List Byte).length < 2 ∧
      1 < ([1, 2, 3, 4] : List Byte).length / 2 := by decide

theorem witness_MapReturnsScaledPulse :
    fatal.mode = .fatal ∧
    (State.reset.mode ≠ .fatal ∧ State.reset.cfg.nAct ≤ BitVec.toNat (12 : Byte)) ∧
    (BitVec.toNat (11 : Byte) < State.reset.cfg.nAct ∧ (Range.mk 1000 2000).wf = true ∧
      State.reset.cfg.mapPolicy = .perActuator ∧ State.reset.ct[BitVec.toNat (11 : Byte)]? = some ⟨1000, 2000⟩) ∧
    (∃ s : State, s.mode ≠ .fatal ∧ BitVec.toNat (11 : Byte) < s.cfg.nAct ∧ s.cfg.mapPolicy = .universal ∧
      Range.mk 1000 2000 = ⟨s.cfg.umin, s.cfg.umax⟩) :=
  ⟨by decide, by decide, by decide,
    { State.reset with cfg := { Config.bench with mapPolicy := .universal } }, by decide⟩

theorem witness_MapResultStaysInRange :
    (State.reset.mode ≠ .fatal ∧ BitVec.toNat (11 : Byte) < State.reset.cfg.nAct ∧ (Range.mk 1000 2000).wf = true ∧
      State.reset.cfg.mapPolicy = .perActuator ∧ State.reset.ct[BitVec.toNat (11 : Byte)]? = some ⟨1000, 2000⟩) ∧
    ((ranged 0 100).cfg.mapPolicy = .perActuator ∧ (ranged 0 100).ct[0]? = some ⟨0, 100⟩ ∧
      (Range.mk 0 100).wf = true) ∧
    (∃ s : State, s.mode ≠ .fatal ∧ s.cfg.mapPolicy = .universal ∧ Range.mk 1000 2000 = ⟨s.cfg.umin, s.cfg.umax⟩) :=
  ⟨by decide, by decide, { State.reset with cfg := { Config.bench with mapPolicy := .universal } }, by decide⟩

theorem witness_MappedPulseNeverDecreases :
    BitVec.toNat (1000 : Pulse) < BitVec.toNat (1001 : Pulse) ∧ BitVec.toNat (0 : Byte) ≤ BitVec.toNat (255 : Byte) ∧
      BitVec.toNat (51 : Byte) * (BitVec.toNat (2000 : Pulse) - BitVec.toNat (1000 : Pulse)) % 255 = 0 := by decide

theorem witness_CalWrWritesOnlyTheReference :
    State.reset.mode ≠ .calibrating ∧
    (calibrating.mode = .calibrating ∧ BitVec.toNat (1 : Byte) ≠ calibrating.cfg.refIndex) ∧
    (BitVec.toNat (0 : Byte) = calibrating.cfg.refIndex ∧ BitVec.toNat (1500 : Pulse) ≤ BitVec.toNat (1500 : Pulse)) ∧
    BitVec.toNat (900 : Pulse) < BitVec.toNat (901 : Pulse) := by decide

theorem witness_CalRdReturnsTheEntry :
    fatal.mode = .fatal ∧ (State.reset.mode ≠ .fatal ∧ State.reset.cfg.nAct ≤ BitVec.toNat (12 : Byte)) ∧
      (BitVec.toNat (11 : Byte) < State.reset.cfg.nAct ∧
        State.reset.ct[BitVec.toNat (11 : Byte)]? = some ⟨1000, 2000⟩) := by decide

theorem witness_SerialStepTakesOneCommand :
    calibrating.mode ≠ .serving ∧
    ((i2cBus .exact2 []).mode = .serving ∧ (i2cBus .exact2 []).cfg.busSel = .i2c) ∧
    (State.reset.mode = .serving ∧ State.reset.cfg.busSel = .serial ∧ frameDecode [] = .rejected .sizeMismatch) ∧
    (frameDecode (frameG.set 13 12) = .accepted 12 200 ⟨0, 0, 0, 0, 0, 0⟩ ∧
      State.reset.cfg.nAct ≤ BitVec.toNat (12 : Byte)) ∧
    ((ranged 0 100).mode = .serving ∧ frameDecode (frameG.set 14 1) = .accepted 5 1 ⟨0, 0, 0, 0, 0, 0⟩ ∧
      BitVec.toNat (5 : Byte) < (ranged 0 100).cfg.nAct ∧ mapValue (ranged 0 100) 5 1 = .noOp) ∧
    (frameDecode (frameG.set 13 11) = .accepted 11 200 ⟨0, 0, 0, 0, 0, 0⟩ ∧
      BitVec.toNat (11 : Byte) < State.reset.cfg.nAct ∧ mapValue State.reset 11 200 = .pulse 1784) := by decide

theorem witness_SerialFrameSetsItsActuator :
    State.reset.mode = .serving ∧ State.reset.cfg.busSel = .serial ∧ State.reset.cfg.mapPolicy = .perActuator ∧
      BitVec.toNat (11 : Byte) < State.reset.cfg.nAct ∧
      State.reset.ct[BitVec.toNat (11 : Byte)]? = some ⟨1000, 2000⟩ ∧ (Range.mk 1000 2000).wf = true ∧
      1 ≤ (Range.mk 1000 2000).min.toNat := by decide

theorem witness_I2cStepTakesTheDrainedCommands :
    calibrating.mode ≠ .serving ∧ (State.reset.mode = .serving ∧ State.reset.cfg.busSel = .serial) ∧
    ((i2cBus .exact2 [3, 128]).mode = .serving ∧ (i2cBus .exact2 [3, 128]).cfg.busSel = .i2c ∧
      pairCommands .exact2 [3, 128] ≠ [] ∧ pairCommands .exact2 [7] = []) ∧
    (∀ f : Bool, ∀ rxf ∈ ([[3, 128], [7]] : List (List Byte)),
      Issues (placed (i2cBus .exact2 rxf) (encode (.i2cStep f) ++ [])) ⟨.op, encode (.i2cStep f) ++ []⟩ [] ∧
        Undisturbed (placed (i2cBus .exact2 rxf) (encode (.i2cStep f) ++ []))) :=
  ⟨by decide, by decide, by decide, fun _ _ _ => ⟨issues_placed rfl, rfl, rfl⟩⟩

theorem witness_CommandsAreProcessedInOrder :
    State.reset.cfg.nAct ≤ BitVec.toNat (12 : Byte) ∧
    (BitVec.toNat (11 : Byte) < (ranged 0 100).cfg.nAct ∧ mapValue (ranged 0 100) 11 0 = .noOp) ∧
    (BitVec.toNat (11 : Byte) < State.reset.cfg.nAct ∧ mapValue State.reset 11 255 = .pulse 2000) := by decide

theorem witness_NoPulseBeyondActuatorCount :
    (∃ t, step (placed State.reset ([0x40, 0x00, 0x10] ++ frameG)) = .next t ∧ t.outHist = [(5, 1784)]) ∧
      State.reset.cfg.nAct ≤ 12 :=
  ⟨⟨_, rfl, rfl⟩, by decide⟩

theorem witness_OnlyCommandPathWritesOutputs :
    (∃ t, exec .hasData State.reset = .next t) ∧
    (∃ s t : State, (∀ f seq, s.prog ≠ .i2cFinish f seq) ∧ s.prog ≠ .idle ∧ step s = .next t) :=
  ⟨⟨_, rfl⟩, { listening [1] .idle with prog := .drain [] }, _, fun _ _ h => (by cases h), fun h => (by cases h), rfl⟩

theorem witness_StepKeepsModeAndConfiguration :
    ∃ t, step (placed calibrating [0x31, 0x00, 0x84, 0x03, 0x34, 0x08]) = .next t :=
  ⟨_, rfl⟩

theorem witness_OnlyCalWrWritesTheTable :
    ((∀ idx min max, Instr.calRd 0 ≠ .calWr idx min max) ∧ ∃ t, exec (.calRd 0) calibrating = .next t) ∧
    (∃ s t : State, s.mode = .calibrating ∧ s.prog ≠ .idle ∧ step s = .next t) :=
  ⟨⟨fun _ _ _ h => (by cases h), _, rfl⟩, { calibrating with prog := .drain [] }, _, rfl, fun h => (by cases h), rfl⟩

theorem witness_StepChangesOnlyReferenceRange :
    (∃ t, step (placed State.reset [0x32, 0x00]) = .next t ∧ State.reset.mode ≠ .calibrating) ∧
    (∃ t, step (placed calibrating [0x31, 0x00, 0x84, 0x03, 0x34, 0x08]) = .next t ∧
      t.ct[0]? = some ⟨900, 2100⟩ ∧ 1 ≠ calibrating.cfg.refIndex) :=
  ⟨⟨_, rfl, by decide⟩, ⟨_, rfl, by decide, by decide⟩⟩

theorem witness_FatalModeLocksTheBlock :
    (List.replicate 11 (Range.mk 1000 2000)).length ≠ Config.bench.nAct ∧ fatal.mode = .fatal ∧
      OutputInvariant (placed fatal [0x10, 0x00]) ∧ ∃ t, step (placed fatal [0x10, 0x00]) = .next t := by
  refine ⟨by decide, by decide, ?_, _, rfl⟩
  constructor
  case stepServing =>
    intro f bs h
    rcases h with h | h <;> cases h
  case ctOthers => intro h; exact absurd rfl h
  case actLatest =>
    intro i hi
    exact List.getElem?_replicate_of_lt hi
  case histIndex => intro e h; cases h
  case histRange => intro e h; cases h
  all_goals decide

theorem witness_FaultHasNoOtherEffectAndIsFinal :
    (∃ t, State.reset.fault = none ∧ exec (.rd 0x02) State.reset = .next t ∧ t.fault = some .badOffset) ∧
      (({ State.reset with fault := some .access } : State).fault = some .access ∧ State.reset.cfg.wf = true) :=
  ⟨⟨_, rfl, rfl, rfl⟩, by decide, by decide⟩

theorem witness_IllFormedConfigurationIsRefused :
    (∃ r ∈ [Range.mk 2000 2000], BitVec.toNat r.max ≤ BitVec.toNat r.min) ∧
      ({ Config.bench with umax := 1000 } : Config).umax.toNat ≤ ({ Config.bench with umax := 1000 } : Config).umin.toNat ∧
      Config.bench.nAct ≤ ({ Config.bench with refIndex := 12 } : Config).refIndex ∧
      ({ Config.bench with rxFifoDepth := 1 } : Config).rxFifoDepth < 2 ∧
      (∃ p ∈ ([16] : List Byte), Config.bench.nPin ≤ BitVec.toNat p) ∧
      step { State.reset with cfg := { Config.bench with rxFifoDepth := 1 } } = .refused .illFormedConfig ∧
      ((∀ r ∈ fatal.cfg.calTable, BitVec.toNat r.min < BitVec.toNat r.max) ∧ fatal.cfg.umin.toNat < fatal.cfg.umax.toNat ∧
        fatal.cfg.refIndex < fatal.cfg.nAct ∧ 2 ≤ fatal.cfg.rxFifoDepth ∧
        (∀ p ∈ fatal.cfg.sdaPins, BitVec.toNat p < fatal.cfg.nPin) ∧
        (∀ p ∈ fatal.cfg.sclPins, BitVec.toNat p < fatal.cfg.nPin) ∧ fatal.cfg.nAct ≤ 256 ∧ 1 ≤ fatal.cfg.nPin ∧
        fatal.cfg.nPin ≤ 256) :=
  ⟨⟨_, .head _, by decide⟩, by decide, by decide, by decide, ⟨16, .head _, by decide⟩, rfl, by decide⟩

theorem witness_BusStartMatchesTheAddress :
    ((listening [] .idle).en = true ∧ (listening [] .idle).saddr.toNat = BitVec.toNat (8 : BitVec 7)) ∧
      State.reset.en = false ∧ (listening [] .idle).saddr.toNat ≠ BitVec.toNat (9 : BitVec 7) := by decide

/-- The same state with HOLD_MASTER, a depth of 2 and the abort flag given. -/
def holding (a : Bool) (rxf : List Byte) : State :=
  { listening rxf .wrMatched with
    cfg := { Config.bench with rxFifoDepth := 2, rxOverflow := .holdMaster }
    txAbrt := a }

theorem witness_BusByteIsStoredWhereThereIsRoom :
    State.reset.xfer ≠ .wrMatched ∧
    ((listening [1, 2, 3] .wrMatched).xfer = .wrMatched ∧ (listening [1, 2, 3] .wrMatched).txAbrt = false ∧
      (listening [1, 2, 3] .wrMatched).rxf.length < (listening [1, 2, 3] .wrMatched).cfg.rxFifoDepth) ∧
    ((listening [1, 2, 3, 4] .wrMatched).cfg.rxFifoDepth ≤ (listening [1, 2, 3, 4] .wrMatched).rxf.length ∧
      (listening [1, 2, 3, 4] .wrMatched).cfg.rxOverflow = .dropNew) ∧
    ((holding false [1, 2]).cfg.rxFifoDepth ≤ (holding false [1, 2]).rxf.length ∧
      (holding false [1, 2]).cfg.rxOverflow = .holdMaster ∧ (holding false [1, 2]).txAbrt = false) ∧
    ((holding true [1]).xfer = .wrMatched ∧ (holding true [1]).txAbrt = true ∧
      (holding true [1]).rxf.length < (holding true [1]).cfg.rxFifoDepth) ∧
    ((holding true [1, 2]).txAbrt = true ∧ (holding true [1, 2]).cfg.rxFifoDepth ≤ (holding true [1, 2]).rxf.length ∧
      (holding true [1, 2]).cfg.rxOverflow = .holdMaster) ∧
    (∃ s : State, s.xfer = .wrMatched ∧ s.txAbrt = true ∧ s.cfg.rxFifoDepth ≤ s.rxf.length ∧
      s.cfg.rxOverflow = .dropNew) :=
  ⟨by decide, by decide, by decide, by decide, by decide, by decide,
    { listening [1, 2, 3, 4] .wrMatched with txAbrt := true }, by decide⟩

/-- V38: held at two bytes, with and without a HOST step to take, and let go at one. -/
theorem witness_HeldByteIsStoredOnceThereIsRoom :
    ∀ rxf ∈ ([[1, 2], [2]] : List (List Byte)), ∀ port ∈ [[], [PortWord.mk .op [0x10, 0x0C]]],
      let s := { holding false rxf with port := port, master := [.byte 3], turns := [.master] }
      (s.cfg.rxOverflow = .holdMaster ∧ s.xfer = .wrMatched ∧ s.txAbrt = false ∧ s.cfg.wf = true ∧ s.fault = none ∧
        s.master = .byte 3 :: [] ∧ s.turns = .master :: []) ∧
      ((rxf = [1, 2] → s.rxf.length = s.cfg.rxFifoDepth) ∧ (rxf = [2] → s.rxf.length < s.cfg.rxFifoDepth)) ∧
      ((port = [] → hostCan s = false) ∧ (port ≠ [] → hostCan s = true)) := by decide

theorem witness_StepRunsDecodedInstruction :
    Issues (placed State.reset [0x10, 0x08, 0x21]) ⟨.op, [0x10, 0x08, 0x21]⟩ [] ∧
      decode .op [0x10, 0x08, 0x21] = .ok (.rd 0x08) [0x21] ∧ (Instr.rd 0x08).agent = .host ∧
      Issues (placed State.reset [0x82]) ⟨.op, [0x82]⟩ [] ∧ decode .op [0x82] = .ok .busStop [] ∧
      (placed State.reset [0x82]).master = [] :=
  ⟨issues_placed rfl, by decide, by decide, issues_placed rfl, by decide, by decide⟩

theorem witness_MasterStepsBetweenHostSteps :
    ∃ s : State, s.cfg.wf = true ∧ s.fault = none ∧ s.turns = .master :: [] ∧ s.master = .stop :: [] ∧
      busEnabled .stop s = true ∧ s.prog = .drain [1] :=
  ⟨{ listening [2] .wrMatched with prog := .drain [1], master := [.stop], turns := [.master] }, by decide⟩

theorem witness_ResetEstablishesInitialState :
    BitVec.toNat (11 : Byte) < Config.bench.nAct ∧ (List.replicate 11 (Range.mk 1000 2000)).length ≠ Config.bench.nAct ∧
      Config.bench.calTable.length = Config.bench.nAct ∧ Config.bench.calSelect = false ∧
      ({ Config.bench with calSelect := true } : Config).calSelect = true := by decide

theorem witness_ResetMeetsTheInvariants :
    Config.bench.wf = true ∧ ({ Config.bench with nAct := 256, calTable := [] } : Config).wf = true := by decide

theorem witness_StepKeepsBusInvariant :
    BusInvariant (placed State.reset [0x21]) ∧ ∃ t, step (placed State.reset [0x21]) = .next t :=
  ⟨busInvariant_of_idle rfl (by decide), _, rfl⟩

theorem witness_StepKeepsOutputInvariant :
    OutputInvariant (placed State.reset ([0x40, 0x00, 0x10] ++ frameG)) ∧
      ∃ t, step (placed State.reset ([0x40, 0x00, 0x10] ++ frameG)) = .next t ∧ t.outHist ≠ [] := by
  refine ⟨?_, _, rfl, by decide⟩
  constructor
  case stepServing =>
    intro f bs h
    rcases h with h | h <;> cases h
  case ctOthers => intro _ i _; rfl
  case actLatest =>
    intro i hi
    exact List.getElem?_replicate_of_lt hi
  case histIndex => intro e h; cases h
  case histRange => intro e h; cases h
  all_goals decide

theorem witness_ConfigureSubStepsNeverFault :
    ∃ s t : State, BusInvariant s ∧ s.prog = .configure .writeSda 8 4 5 ∧ step s = .next t :=
  ⟨{ State.reset with saddr := 8, cfgd := ⟨true, false, false⟩, prog := .configure .writeSda 8 4 5 }, _,
    ⟨by decide, by decide, by decide, by decide, by decide, by decide, by decide, by decide, by decide, by decide,
      by decide, rfl, rfl⟩, rfl, rfl⟩

end Sys2Proof.Tests
end

section
/-! PROOFS. When the step refuses (spec 00_scope.md R9, R11): a configuration is well formed exactly when it meets the
conditions, no agent's step refuses, and so the step refuses the ill-formed configurations alone. -/

namespace Sys2Proof.Machine

/-- The conditions of R11 and R9's ranges, read off `Config.wf`. -/
theorem config_wf_iff (c : Config) :
    c.wf = true ↔
      (∀ r ∈ c.calTable, r.min.toNat < r.max.toNat) ∧ c.umin.toNat < c.umax.toNat ∧ c.refIndex < c.nAct ∧
        2 ≤ c.rxFifoDepth ∧ (∀ p ∈ c.sdaPins, p.toNat < c.nPin) ∧ (∀ p ∈ c.sclPins, p.toNat < c.nPin) ∧
        1 ≤ c.nAct ∧ c.nAct ≤ 256 ∧ 1 ≤ c.nPin ∧ c.nPin ≤ 256 := by
  simp only [Config.wf, Range.wf, Bool.and_eq_true, List.all_eq_true, decide_eq_true_eq, and_assoc]

/-! Every later step of an operation in progress answers a next state. -/

theorem configureStep_next (next : ConfigureStep) (addr sda scl : Byte) (s : State) :
    ∃ t, configureStep next addr sda scl s = .next t := by
  cases next with
  | clearSaddr => exact continueWith_next _ _ _
  | setSaddr => exact continueWith_next _ _ _
  | writeSda => exact continueWith_next _ _ _
  | writeScl => exact continueWith_next _ _ _
  | enable =>
    simp only [configureStep]
    cases regModify setMask (offsetOf .icEnable) 0x1 s with
    | ok u => exact ⟨_, rfl⟩
    | error k => exact ⟨_, rfl⟩

theorem drainStep_next (result : List Byte) (s : State) : ∃ t, drainStep result s = .next t := by
  unfold drainStep
  split
  · exact ⟨_, rfl⟩
  · exact ⟨_, rfl⟩

theorem i2cDrainStep_next (f : Bool) (result : List Byte) (s : State) :
    ∃ t, i2cDrainStep f result s = .next t := by
  unfold i2cDrainStep
  split
  · exact ⟨_, rfl⟩
  · exact ⟨_, rfl⟩

/-- An issued instruction answers a next state, whether it runs or waits (log entry 6). -/
theorem runIssued_next (i : Instr) (s : State) : ∃ t, runIssued i s = .next t := by
  unfold runIssued
  split
  · exact exec_next i s
  · split
    · exact exec_next i s
    · exact ⟨_, rfl⟩

/-! No agent's step refuses. -/

theorem ne_refused_of_next {o : Host.Outcome State Fault Refusal} (h : ∃ t, o = .next t) (r : Refusal) :
    o ≠ .refused r := by
  obtain ⟨t, rfl⟩ := h
  nofun

theorem runRejected_ne_refused (q : Reject) (w : PortWord) (s : State) (r : Refusal) :
    runRejected q w s ≠ .refused r := by
  cases q <;> nofun

theorem issueStep_ne_refused (s : State) (r : Refusal) : issueStep s ≠ .refused r := by
  unfold issueStep
  split
  · nofun
  · split
    · exact ne_refused_of_next (runIssued_next _ _) r
    · exact runRejected_ne_refused _ _ _ r

theorem hostStep_ne_refused (s : State) (r : Refusal) : hostStep s ≠ .refused r := by
  unfold hostStep
  split
  · exact issueStep_ne_refused s r
  · exact ne_refused_of_next (configureStep_next _ _ _ _ s) r
  · exact ne_refused_of_next (drainStep_next _ s) r
  · exact ne_refused_of_next (i2cDrainStep_next _ _ s) r
  · exact ne_refused_of_next ⟨_, rfl⟩ r

theorem masterStep_ne_refused (s : State) (r : Refusal) : masterStep s ≠ .refused r := by
  unfold masterStep
  split
  · nofun
  · exact ne_refused_of_next (exec_next _ _) r

theorem agentStep_ne_refused (a : Agent) (s : State) (r : Refusal) : agentStep a s ≠ .refused r := by
  cases a with
  | host => exact hostStep_ne_refused s r
  | master => exact masterStep_ne_refused s r

/-- The step refuses by one name alone, and exactly where the configuration is not well formed (R11). -/
theorem step_eq_refused_iff (s : State) (r : Refusal) :
    step s = .refused r ↔ s.cfg.wf = false ∧ r = .illFormedConfig := by
  cases hc : s.cfg.wf with
  | false => simp [step, hc, eq_comm]
  | true =>
    have hne : step s ≠ .refused r := by
      simp only [step, hc, Bool.not_true, Bool.false_eq_true, if_false]
      split
      · nofun
      · split
        · nofun
        · exact agentStep_ne_refused _ _ r
    simp [hne]

/-- Settles O48: each condition's failure contradicts `config_wf_iff`, all of them together give it, and the step
refuses by `step_eq_refused_iff`. -/
theorem illFormedConfigurationIsRefused : Obligations.IllFormedConfigurationIsRefused := by
  refine ⟨fun s hbad => (step_eq_refused_iff s _).mpr ⟨?_, rfl⟩, ?_⟩
  · rw [← Bool.not_eq_true, config_wf_iff]
    rintro ⟨hcal, huniv, href, hdepth, hsda, hscl, -⟩
    obtain ⟨r, hr, h⟩ | h | h | h | ⟨p, hp, h⟩ | ⟨p, hp, h⟩ := hbad
    · exact absurd (hcal r hr) (by omega)
    · omega
    · omega
    · omega
    · exact absurd (hsda p hp) (by omega)
    · exact absurd (hscl p hp) (by omega)
  · intro s hcal huniv href hdepth hsda hscl hact hpin hpin' r hstep
    have hwf : s.cfg.wf = true :=
      (config_wf_iff s.cfg).mpr ⟨hcal, huniv, href, hdepth, hsda, hscl, by omega, hact, hpin, hpin'⟩
    obtain ⟨hbad, -⟩ := (step_eq_refused_iff s r).mp hstep
    simp [hwf] at hbad

end Sys2Proof.Machine
end

section
/-! PROOFS. The steps as the state's invariants need them (spec 10_state.md R18, R20): the environment's inputs are set
apart, a step is one of four kinds, a later step of an operation in progress has one of five effects, and what a step
may change of the command path's state is named. -/

namespace Sys2Proof.Machine

/-- What a state holds of the agents' inputs: the words to be issued, the MASTER's events and the turns. None of it is
an element of the block (log entries 5 and 6). -/
structure Inputs where
  port : List PortWord
  master : List BusEvent
  masterAfter : Endless BusEvent
  turns : List Agent
  turnsAfter : Endless Agent

/-- The same block with other inputs. -/
def State.withInputs (s : State) (i : Inputs) : State :=
  { s with
    port := i.port
    master := i.master
    masterAfter := i.masterAfter
    turns := i.turns
    turnsAfter := i.turnsAfter }

/-- What a step can be: the block is that of `s` with some inputs used up, and a bus event joins the waiting ones, an
operation begins, the MASTER steps, or the operation in progress goes on. -/
inductive StepKind (s : State) : State → Prop where
  | waits (i : Inputs) : StepKind s (s.withInputs i)
  | issues {t : State} (i : Inputs) (hp : (s.withInputs i).prog = .idle) (h : Effect (s.withInputs i) t) : StepKind s t
  | master {t : State} (i : Inputs) (e : BusEvent) (h : exec e.toInstr (s.withInputs i) = .next t) : StepKind s t
  | continues {t : State} (i : Inputs) (hp : (s.withInputs i).prog ≠ .idle)
      (h : hostStep (s.withInputs i) = .next t) : StepKind s t

theorem hostStep_of_idle {s : State} (h : s.prog = .idle) : hostStep s = issueStep s := by
  simp [hostStep, h]

/-- A step that issues a word, by what the word does. -/
theorem StepKind.of_issueStep {s t : State} (i : Inputs) (hp : s.prog = .idle)
    (h : issueStep (s.withInputs i) = .next t) : StepKind s t := by
  obtain ⟨ws, ⟨j, h⟩ | ⟨e, rfl⟩ | ⟨k, rfl⟩ | ⟨r, rfl⟩⟩ := issueStep_cases h
  · exact .issues { i with port := ws } hp (exec_effect h)
  · exact .waits { i with port := ws, master := i.master ++ [e] }
  · exact .issues { i with port := ws } hp (.fault k)
  · exact .issues { i with port := ws } hp (.value r)

theorem step_kind {s t : State} (h : step s = .next t) : StepKind s t := by
  obtain ⟨-, -, ⟨-, h⟩ | ⟨e, -, -, h⟩⟩ := step_cases h
  · let i : Inputs := ⟨s.port, s.master, s.masterAfter, (useTurn s).turns, (useTurn s).turnsAfter⟩
    by_cases hp : s.prog = .idle
    · rw [hostStep_of_idle (s := useTurn s) hp] at h
      exact .of_issueStep i hp h
    · exact .continues i hp h
  · exact .master ⟨s.port, (useEvent s).master, (useEvent s).masterAfter, (useTurn s).turns, (useTurn s).turnsAfter⟩ e h

/-! The later steps of an operation in progress. -/

/-- What a sub-step of CONFIGURE can do: a Fault, or a register write with the loop state moved on (R84). -/
def ConfigureEffect (s t : State) : Prop :=
  (∃ k, t = raiseFault k s) ∨
  ∃ v u p r, WriteEffect v s u ∧ (p = .idle ∨ ∃ next addr sda scl, p = .configure next addr sda scl) ∧
    t = { u with prog := p, ret := r }

/-- A sub-step of CONFIGURE before the last one. -/
theorem continueWith_configureEffect {s t : State} {next : ConfigureStep} {addr sda scl : Byte}
    {r : Except FaultKind State} (hr : ∀ u, r = .ok u → ∃ v, WriteEffect v s u)
    (h : continueWith s (.configure next addr sda scl) r = .next t) : ConfigureEffect s t := by
  obtain ⟨u, hu, rfl⟩ | ⟨k, -, rfl⟩ := continueWith_cases h
  · obtain ⟨v, hv⟩ := hr u hu
    exact .inr ⟨v, u, _, _, hv, .inr ⟨next, addr, sda, scl, rfl⟩, rfl⟩
  · exact .inl ⟨k, rfl⟩

/-- The last sub-step of CONFIGURE. -/
theorem endConfigure_configureEffect {s t : State} {r : Except FaultKind State}
    (hr : ∀ u, r = .ok u → ∃ v, WriteEffect v s u) (h : endConfigure s r = .next t) : ConfigureEffect s t := by
  cases r with
  | ok u =>
    injection h with h
    obtain ⟨v, hv⟩ := hr u rfl
    exact .inr ⟨v, u, .idle, .done, hv, .inl rfl, h.symm⟩
  | error k =>
    injection h with h
    exact .inl ⟨k, h.symm⟩

theorem configureStep_effect {s t : State} {next : ConfigureStep} {addr sda scl : Byte}
    (h : configureStep next addr sda scl s = .next t) : ConfigureEffect s t := by
  cases next with
  | clearSaddr => exact continueWith_configureEffect (fun _ hu => regModify_effect hu) h
  | setSaddr => exact continueWith_configureEffect (fun _ hu => regModify_effect hu) h
  | writeSda => exact continueWith_configureEffect (fun _ hu => ⟨_, regWrite_effect hu⟩) h
  | writeScl => exact continueWith_configureEffect (fun _ hu => ⟨_, regWrite_effect hu⟩) h
  | enable => exact endConfigure_configureEffect (fun _ hu => regModify_effect hu) h

/-- What a later step of an operation in progress can do to the machine. -/
inductive LaterEffect (s : State) : State → Prop where
  | configure {t : State} {next : ConfigureStep} {addr sda scl : Byte} (hp : s.prog = .configure next addr sda scl)
      (h : configureStep next addr sda scl s = .next t) : LaterEffect s t
  | read (b : Byte) (q : List Byte) (h : s.rxf = b :: q) (p : Progress)
      (hp : (∃ bs, p = .drain bs) ∨ ∃ f bs, s.prog = .i2cDrain f bs ∧ p = .i2cDrain f (bs ++ [b])) :
      LaterEffect s { s with rxf := q, draws := s.draws + 1, prog := p }
  | drained (r : Returned) : LaterEffect s { s with prog := .idle, ret := r }
  | i2cDrained (f : Bool) (bs : List Byte) (hp : s.prog = .i2cDrain f bs) :
      LaterEffect s { s with prog := .i2cFinish f bs }
  | i2cFinish (f : Bool) (bs : List Byte) (hp : s.prog = .i2cFinish f bs) :
      LaterEffect s ({ takeDrained f bs s with prog := .idle }.returning .done)

theorem hostStep_laterEffect {s t : State} (hp : s.prog ≠ .idle) (h : hostStep s = .next t) : LaterEffect s t := by
  unfold hostStep at h
  split at h
  · contradiction
  · exact .configure ‹_› h
  · unfold drainStep at h
    obtain ⟨-, hd⟩ | ⟨b, q, hq, hd⟩ := drainRead_cases s <;> rw [hd] at h <;> (injection h with h; subst h)
    · exact .drained _
    · exact .read b q hq _ (.inl ⟨_, rfl⟩)
  · rename_i f bs hp
    unfold i2cDrainStep at h
    obtain ⟨-, hd⟩ | ⟨b, q, hq, hd⟩ := drainRead_cases s <;> rw [hd] at h <;> (injection h with h; subst h)
    · exact .i2cDrained f bs hp
    · exact .read b q hq _ (.inr ⟨f, bs, hp, rfl⟩)
  · rename_i f bs hp
    injection h with h
    subst h
    exact .i2cFinish f bs hp

/-! The MASTER's steps. -/

/-- A bus event reaches the FIFO, the abort flag, the transfer, the draws and a held byte alone (R121, R132). -/
theorem busEvent_frame {e : BusEvent} {s t : State} (h : exec e.toInstr s = .next t) :
    t = { s with rxf := t.rxf, txAbrt := t.txAbrt, xfer := t.xfer, draws := t.draws, master := t.master } := by
  have hbyte (lost : Bool) (b : Byte) (n : Nat) :
      ∃ q m, takeByte lost b { s with draws := n } = { s with rxf := q, draws := n, master := m } := by
    unfold takeByte receiveByte
    repeat' split
    all_goals exact ⟨_, _, rfl⟩
  cases e <;> simp only [BusEvent.toInstr, exec] at h
  case start addr dir =>
    unfold execBusStart at h
    split at h <;> (injection h with h; subst h; rfl)
  case stop => injection h with h; subst h; rfl
  case txAbort => injection h with h; subst h; rfl
  case byte b =>
    unfold execBusByte at h
    split at h
    · injection h with h; subst h; rfl
    split at h <;> injection h with h
    · obtain ⟨q, m, hq⟩ := hbyte (Config.drawByteLost s.draws) b (s.draws + 1)
      rw [← h, hq]
    · obtain ⟨q, m, hq⟩ := hbyte false b s.draws
      rw [← h, hq]

/-! What a step keeps of the command path's state. -/

/-- `t` has the configuration, the mode, the calibration table and the outputs of `s`. -/
structure KeepsCommandState (s t : State) : Prop where
  cfg : t.cfg = s.cfg
  mode : t.mode = s.mode
  ct : t.ct = s.ct
  lastOutcome : t.lastOutcome = s.lastOutcome
  actOut : t.actOut = s.actOut
  outHist : t.outHist = s.outHist

theorem raiseFault_keepsCommandState (k : FaultKind) (s : State) : KeepsCommandState s (raiseFault k s) :=
  ⟨rfl, rfl, rfl, rfl, rfl, rfl⟩

theorem returning_keepsCommandState (r : Returned) (s : State) : KeepsCommandState s (s.returning r) :=
  ⟨rfl, rfl, rfl, rfl, rfl, rfl⟩

/-- A register write reaches the controller's registers and the FIFO alone (R69). -/
theorem WriteEffect.frame {v : Word} {s u : State} (h : WriteEffect v s u) :
    u = { s with
      en := u.en, saddr := u.saddr, sdaSel := u.sdaSel, sclSel := u.sclSel, rxf := u.rxf, txAbrt := u.txAbrt
      cfgd := u.cfgd } := by
  cases h <;> rfl

theorem WriteEffect.keepsCommandState {v : Word} {s u : State} (h : WriteEffect v s u) : KeepsCommandState s u := by
  rw [h.frame]
  exact ⟨rfl, rfl, rfl, rfl, rfl, rfl⟩

theorem WriteEffect.prog_eq {v : Word} {s u : State} (h : WriteEffect v s u) : u.prog = s.prog := by
  rw [h.frame]

theorem ConfigureEffect.keepsCommandState {s t : State} (h : ConfigureEffect s t) : KeepsCommandState s t := by
  obtain ⟨k, rfl⟩ | ⟨v, u, p, r, hw, -, rfl⟩ := h
  · exact raiseFault_keepsCommandState k s
  · exact { hw.keepsCommandState with }

theorem busEvent_keepsCommandState {e : BusEvent} {s t : State} (h : exec e.toInstr s = .next t) :
    KeepsCommandState s t := by
  rw [busEvent_frame h]
  exact ⟨rfl, rfl, rfl, rfl, rfl, rfl⟩

/-- A step of one effect keeps the command path's state, but for CAL_WR's entry and a serial answer's command. -/
theorem Effect.commandState {s t : State} (h : Effect s t) :
    KeepsCommandState s t ∨
    (∃ (idx : Byte) (r : Range), s.mode = .calibrating ∧ idx.toNat = s.cfg.refIndex ∧ r.wf = true ∧
      t = { s with ct := s.ct.set idx.toNat r, ret := .done }) ∨
    (∃ a, s.mode = .serving ∧ t = (takeAnswer a s).returning .done) := by
  cases h with
  | calWr idx r hm hi hr => exact .inr (.inl ⟨idx, r, hm, hi, hr, rfl⟩)
  | answer a hm => exact .inr (.inr ⟨a, hm, rfl⟩)
  | write v u hw => exact .inl { hw.keepsCommandState with }
  | configure v u hw => exact .inl { hw.keepsCommandState with }
  | _ => exact .inl ⟨rfl, rfl, rfl, rfl, rfl, rfl⟩

/-- A later step of an operation in progress keeps the command path's state, but for I2C_STEP's last one. -/
theorem LaterEffect.commandState {s t : State} (h : LaterEffect s t) :
    KeepsCommandState s t ∨
    (∃ f bs, s.prog = .i2cFinish f bs ∧ t = { takeDrained f bs s with prog := .idle }.returning .done) := by
  cases h with
  | i2cFinish f bs hp => exact .inr ⟨f, bs, hp, rfl⟩
  | configure hp h => exact .inl (configureStep_effect h).keepsCommandState
  | _ => exact .inl ⟨rfl, rfl, rfl, rfl, rfl, rfl⟩

end Sys2Proof.Machine
end

section
/-! PROOFS. The bus controller's invariant (spec 10_state.md R21, R22; 40_i2c_registers.md R70, R71, R75;
45_bus_events.md R116). It has two halves, each kept by every step without the other: what holds of the controller's
elements, and how far a CONFIGURE in progress has come. -/

namespace Sys2Proof.Machine

/-- `BusInvariant` without its clause about a CONFIGURE in progress. -/
def ControllerHolds (s : State) : Prop :=
  s.rxf.length ≤ s.cfg.rxFifoDepth ∧
    (s.en = true → s.cfgd.complete = true ∧ s.sdaSel ≠ s.sclSel) ∧
    (s.cfgd.sda = true → s.sdaSel ∈ s.cfg.sdaPins) ∧
    (s.cfgd.scl = true → s.sclSel ∈ s.cfg.sclPins) ∧
    (activity s = true → s.en = true) ∧
    (activity s = true → s.saddr.toNat < 128)

theorem busInvariant_iff (s : State) : BusInvariant s ↔ ControllerHolds s ∧ configureHolds s :=
  ⟨fun ⟨hfifo, hen, hsda, hscl, hact, haddr, hconf⟩ => ⟨⟨hfifo, hen, hsda, hscl, hact, haddr⟩, hconf⟩,
    fun ⟨⟨hfifo, hen, hsda, hscl, hact, haddr⟩, hconf⟩ => ⟨hfifo, hen, hsda, hscl, hact, haddr, hconf⟩⟩

/-! The controller's elements. -/

/-- Every register write keeps what holds of the controller: the ones that could break it need `EN = 0`, where no
transfer is active (R70, R71, R75). -/
theorem WriteEffect.controllerHolds {v : Word} {s u : State} (h : WriteEffect v s u) (hs : ControllerHolds s) :
    ControllerHolds u := by
  obtain ⟨hfifo, hen, hsda, hscl, hact, haddr⟩ := hs
  have disabled {p : Prop} (he : s.en = false) (he' : s.en = true) : p := absurd (he'.symm.trans he) nofun
  cases h with
  | same => exact ⟨hfifo, hen, hsda, hscl, hact, haddr⟩
  | enable he hc hp => exact ⟨hfifo, fun _ => ⟨hc, hp⟩, hsda, hscl, fun _ => rfl, haddr⟩
  | disable he ha =>
    refine ⟨?_, nofun, hsda, hscl, fun ha' => absurd (ha'.symm.trans ha) nofun, haddr⟩
    dsimp only
    split
    · exact Nat.zero_le _
    · exact hfifo
  | saddr he => exact ⟨hfifo, disabled he, hsda, hscl, hact, fun ha => disabled he (hact ha)⟩
  | sda he hp => exact ⟨hfifo, disabled he, fun _ => hp, hscl, hact, haddr⟩
  | scl he hp => exact ⟨hfifo, disabled he, hsda, fun _ => hp, hact, haddr⟩
  | clearAbort => exact ⟨hfifo, hen, hsda, hscl, hact, haddr⟩

/-- Taking the oldest byte keeps what holds of the controller (R22). -/
theorem controllerHolds_pop {s : State} {b : Byte} {q : List Byte} (hq : s.rxf = b :: q) (hs : ControllerHolds s) :
    ControllerHolds { s with rxf := q } := by
  obtain ⟨hfifo, hrest⟩ := hs
  refine ⟨?_, hrest⟩
  rw [hq, List.length_cons] at hfifo
  exact Nat.le_of_succ_le hfifo

/-- Storing a byte where there is room keeps what holds of the controller (R22, R117). -/
theorem controllerHolds_push {s : State} (b : Byte) (hroom : s.rxf.length < s.cfg.rxFifoDepth)
    (hs : ControllerHolds s) : ControllerHolds { s with rxf := s.rxf ++ [b] } := by
  obtain ⟨-, hrest⟩ := hs
  refine ⟨?_, hrest⟩
  simpa using hroom

theorem Effect.controllerHolds {s t : State} (h : Effect s t) (hs : ControllerHolds s) : ControllerHolds t := by
  cases h with
  | read b q hq => exact controllerHolds_pop hq hs
  | write v u hw => exact hw.controllerHolds hs
  | configure v u hw => exact hw.controllerHolds hs
  | answer a =>
    obtain ⟨c, out, hist, ha⟩ := takeAnswer_frame a s
    rw [ha]
    exact hs
  | busStart x hx =>
    obtain ⟨hfifo, hen, hsda, hscl, -, -⟩ := hs
    exact ⟨hfifo, hen, hsda, hscl, fun ha => (hx ha).1, fun ha => (hx ha).2⟩
  | byteStored n b hroom => exact controllerHolds_push b hroom hs
  | _ => exact hs

theorem LaterEffect.controllerHolds {s t : State} (h : LaterEffect s t) (hs : ControllerHolds s) :
    ControllerHolds t := by
  cases h with
  | configure hp h =>
    obtain ⟨k, rfl⟩ | ⟨v, u, p, r, hw, -, rfl⟩ := configureStep_effect h
    · exact hs
    · exact hw.controllerHolds hs
  | read b q hq => exact controllerHolds_pop hq hs
  | i2cFinish f bs =>
    obtain ⟨c, out, hist, hd⟩ := takeDrained_frame f bs s
    rw [hd]
    exact hs
  | _ => exact hs

theorem step_keeps_controllerHolds {s t : State} (h : step s = .next t) (hs : ControllerHolds s) :
    ControllerHolds t := by
  cases step_kind h with
  | waits i => exact hs
  | issues i hp he => exact he.controllerHolds hs
  | master i e he => exact (exec_effect he).controllerHolds hs
  | continues i hp hl => exact (hostStep_laterEffect hp hl).controllerHolds hs

/-! A CONFIGURE in progress. -/

theorem configureHolds_of_prog {s : State} (h : ∀ next addr sda scl, s.prog ≠ .configure next addr sda scl) :
    configureHolds s := by
  unfold configureHolds
  split
  · exact absurd ‹_› (h _ _ _ _)
  · trivial

/-- An operation that begins leaves no CONFIGURE in progress but its own, after its first sub-step (R84). -/
theorem Effect.configureHolds_of_idle {s t : State} (h : Effect s t) (hi : s.prog = .idle) : configureHolds t := by
  cases h with
  | configure v u hw addr sda scl he ha hne hsda hscl =>
    obtain ⟨hcfg, -, -, -, -, -⟩ := hw.keepsCommandState
    exact ⟨he, ha, hne, hcfg ▸ hsda, hcfg ▸ hscl, trivial⟩
  | read b q hq r p hp =>
    apply configureHolds_of_prog
    obtain rfl | ⟨bs, rfl⟩ := hp
    · simp [hi]
    · nofun
  | drained | i2cStep => exact configureHolds_of_prog nofun
  | write v u hw => exact configureHolds_of_prog (by simp [hw.prog_eq, hi])
  | answer a =>
    obtain ⟨c, out, hist, ha⟩ := takeAnswer_frame a s
    exact configureHolds_of_prog (by simp [ha, hi])
  | _ => exact configureHolds_of_prog (by simp [hi])

/-- The MASTER reaches nothing that a CONFIGURE in progress leans on (R84, R132). -/
theorem busEvent_keeps_configureHolds {e : BusEvent} {s t : State} (h : exec e.toInstr s = .next t)
    (hs : configureHolds s) : configureHolds t := by
  rw [busEvent_frame h]
  exact hs

/-- Each later sub-step of CONFIGURE leaves what the next one needs (R84). -/
theorem configureStep_keeps_configureHolds {s t : State} {next : ConfigureStep} {addr sda scl : Byte}
    (hp : s.prog = .configure next addr sda scl) (h : configureStep next addr sda scl s = .next t)
    (hs : configureHolds s) : configureHolds t := by
  unfold configureHolds at hs
  rw [hp] at hs
  obtain ⟨he, ha, hne, hsda, hscl, hdone⟩ := hs
  cases next with
  | clearSaddr =>
    rw [configureStep, clear_saddr he] at h
    injection h with h
    subst h
    exact ⟨he, ha, hne, hsda, hscl, rfl, rfl⟩
  | setSaddr =>
    obtain ⟨hzero, -⟩ := hdone
    rw [configureStep, set_saddr he hzero] at h
    injection h with h
    subst h
    exact ⟨he, ha, hne, hsda, hscl, rfl, rfl⟩
  | writeSda =>
    obtain ⟨haddr, hc⟩ := hdone
    rw [configureStep, write_sda he hsda] at h
    injection h with h
    subst h
    exact ⟨he, ha, hne, hsda, hscl, haddr, hc, rfl, rfl⟩
  | writeScl =>
    obtain ⟨haddr, hc, hsel, hc'⟩ := hdone
    rw [configureStep, write_scl he hscl] at h
    injection h with h
    subst h
    exact ⟨he, ha, hne, hsda, hscl, haddr, by simp [Cfgd.complete, hc, hc'], hsel, rfl⟩
  | enable =>
    obtain ⟨-, hc, rfl, rfl⟩ := hdone
    rw [configureStep, set_enable he hc hne] at h
    injection h with h
    subst h
    exact configureHolds_of_prog nofun

/-- A later step of any operation in progress leaves a CONFIGURE as its sub-steps left it. -/
theorem LaterEffect.keeps_configureHolds {s t : State} (h : LaterEffect s t) (hs : configureHolds s) :
    configureHolds t := by
  cases h with
  | configure hp h => exact configureStep_keeps_configureHolds hp h hs
  | read b q hq p hp =>
    obtain ⟨bs, rfl⟩ | ⟨f, bs, -, rfl⟩ := hp
    · exact configureHolds_of_prog nofun
    · exact configureHolds_of_prog nofun
  | drained | i2cDrained | i2cFinish => exact configureHolds_of_prog nofun

theorem step_keeps_configureHolds {s t : State} (h : step s = .next t) (hs : configureHolds s) :
    configureHolds t := by
  cases step_kind h with
  | waits i => exact hs
  | issues i hp he => exact he.configureHolds_of_idle hp
  | master i e he => exact busEvent_keeps_configureHolds he hs
  | continues i hp hl => exact (hostStep_laterEffect hp hl).keeps_configureHolds hs

/-- Settles O58: every step keeps each half of the invariant. -/
theorem stepKeepsBusInvariant : Obligations.StepKeepsBusInvariant := by
  intro s t hs h
  rw [busInvariant_iff] at hs ⊢
  obtain ⟨hctl, hconf⟩ := hs
  exact ⟨step_keeps_controllerHolds h hctl, step_keeps_configureHolds h hconf⟩

end Sys2Proof.Machine
end

section
/-! PROOFS. The outputs' invariant (spec 10_state.md R25, R27, R31; 43_value_mapper.md R105, R107; 44_command_path.md
R110, R114; 60_exceptions.md R123): what a pulse of `process` adds to the outputs, what CAL_WR does to the table, and
that every other part of a step keeps the command path's state. -/

namespace Sys2Proof.Machine

/-! The range of a pulse. -/

/-- The clamp of the map keeps a pulse between the bounds (R13, R102). -/
theorem mapPulse_bounds {lo hi : Nat} (h : lo ≤ hi) (round : Rounding) (raw : Nat) :
    lo ≤ mapPulse round lo hi raw ∧ mapPulse round lo hi raw ≤ hi := by
  simp only [mapPulse, clamp]
  omega

/-- A mapped pulse lies in the range in effect (R107). -/
theorem mapValue_rangeHolds {s : State} {idx raw : Byte} {p : Pulse} (h : mapValue s idx raw = .pulse p)
    (hr : (rangeFor s idx).min.toNat ≤ (rangeFor s idx).max.toNat) : rangeHolds (rangeFor s idx) p := by
  simp only [mapValue] at h
  split at h
  · cases h
  · injection h with h
    subst h
    obtain ⟨hlo, hhi⟩ := mapPulse_bounds hr s.cfg.mapRound raw.toNat
    have hlt := (rangeFor s idx).max.isLt
    rw [rangeHolds, BitVec.toNat_ofNat, Nat.mod_eq_of_lt (by omega)]
    exact ⟨hlo, hhi⟩

/-- In SERVING the range in effect is that of the static table (R105). -/
theorem OutputInvariant.rangeFor_eq {s : State} (h : OutputInvariant s) (hm : s.mode = .serving) (idx : Byte) :
    rangeFor s idx = servingRange s.cfg idx := by
  rw [rangeFor, servingRange]
  cases s.cfg.mapPolicy with
  | perActuator => rw [← h.ctServing hm, calEntry]
  | universal => rfl

/-- The range in effect of an existing actuator has `min < max` (R11, R25). -/
theorem OutputInvariant.rangeFor_wf {s : State} (h : OutputInvariant s) (hm : s.mode = .serving) {idx : Byte}
    (hi : idx.toNat < s.cfg.nAct) : (rangeFor s idx).min.toNat < (rangeFor s idx).max.toNat := by
  obtain ⟨-, huniv, -⟩ := (config_wf_iff s.cfg).mp h.cfgWf
  unfold rangeFor
  split
  · have hlen : idx.toNat < s.ct.length := by
      rw [h.ctLength (by simp [hm])]
      exact hi
    have hwf := List.all_eq_true.mp h.ctWf _ (List.getElem_mem hlen)
    rw [calEntry, List.getD_eq_getElem _ _ hlen]
    simpa [Range.wf] using hwf
  · exact huniv

/-! One pulse. -/

/-- The latest pulse of an actuator once one more is written (R31). -/
theorem latestPulse_append (i : Nat) (hist : List (Byte × Pulse)) (j : Byte) (p : Pulse) :
    latestPulse i (hist ++ [(j, p)]) = if j.toNat = i then some p else latestPulse i hist := by
  by_cases h : j.toNat = i <;> simp [latestPulse, h]

/-- Writing an outcome code of the table keeps the invariant (R123). -/
theorem OutputInvariant.after_outcome {s : State} (h : OutputInvariant s) {c : Byte} (hc : c ∈ outcomeCodes) :
    OutputInvariant (setOutcome c s) :=
  { h with outcomeCode := hc }

/-- In SERVING the pulse of an existing actuator, mapped from any raw byte, keeps the invariant (R107, R110, R114). -/
theorem OutputInvariant.after_pulse {s : State} (h : OutputInvariant s) (hm : s.mode = .serving) {idx raw : Byte}
    {p : Pulse} (hi : idx.toNat < s.cfg.nAct) (hp : mapValue s idx raw = .pulse p) :
    OutputInvariant (emitPulse idx p s) := by
  have hrange : rangeHolds (servingRange s.cfg idx) p := by
    rw [← h.rangeFor_eq hm]
    exact mapValue_rangeHolds hp (Nat.le_of_lt (h.rangeFor_wf hm hi))
  have hout : ∀ i, i < s.cfg.nAct →
      (s.actOut.set idx.toNat (some p))[i]? = some (latestPulse i (s.outHist ++ [(idx, p)])) := by
    intro i hlt
    rw [latestPulse_append, List.getElem?_set, h.actLatest i hlt, h.actLength]
    by_cases hidx : idx.toNat = i <;> simp [hidx, hlt]
  exact { h with
    actLength := by simp [h.actLength]
    histIndex := by simpa [or_imp, forall_and, hi] using h.histIndex
    actLatest := hout
    histServing := fun _ => hm
    histRange := by simpa [or_imp, forall_and, hrange] using h.histRange }

/-! The command path's steps. -/

/-- The invariant of a state in SERVING, as the command path's steps keep it. -/
structure ServingOutputs (s : State) : Prop where
  outputs : OutputInvariant s
  serving : s.mode = .serving

theorem ServingOutputs.after_outcome {s : State} (h : ServingOutputs s) {c : Byte} (hc : c ∈ outcomeCodes) :
    ServingOutputs (setOutcome c s) :=
  ⟨h.outputs.after_outcome hc, h.serving⟩

theorem ServingOutputs.after_command {s : State} (h : ServingOutputs s) {cmd : Command} {p : Pulse}
    (hi : cmd.index.toNat < s.cfg.nAct) (hp : mapValue s cmd.index cmd.raw = .pulse p) :
    ServingOutputs (setOutcome accepted (emitPulse cmd.index p s)) :=
  ⟨(h.outputs.after_pulse h.serving hi hp).after_outcome (by decide), h.serving⟩

theorem ServingOutputs.after_answer {s : State} (h : ServingOutputs s) (a : SerialAnswer) :
    ServingOutputs (takeAnswer a s) :=
  takeAnswer_induction a s h (fun _ _ hc h => h.after_outcome hc) (fun _ _ _ h hi hp => h.after_command hi hp)

theorem ServingOutputs.after_drained {s : State} (h : ServingOutputs s) (f : Bool) (bs : List Byte) :
    ServingOutputs (takeDrained f bs s) :=
  takeDrained_induction f bs s h (fun _ _ hc h => h.after_outcome hc) (fun _ _ _ h hi hp => h.after_command hi hp)

/-! CAL_WR. -/

/-- A range with `min < max` written to the reference actuator's entry in CALIBRATING keeps the invariant (R105). -/
theorem OutputInvariant.after_calWr {s : State} (h : OutputInvariant s) (hm : s.mode = .calibrating) {i : Nat}
    (hi : i = s.cfg.refIndex) {r : Range} (hr : r.wf = true) : OutputInvariant { s with ct := s.ct.set i r } :=
  { h with
    ctLength := fun hf => by simpa using h.ctLength hf
    ctWf := List.all_eq_true.mpr fun x hx => by
      obtain hx | rfl := List.mem_or_eq_of_mem_set hx
      · exact List.all_eq_true.mp h.ctWf x hx
      · exact hr
    ctServing := fun hs => absurd (hm.symm.trans hs) nofun
    ctOthers := fun hf j hj => by
      rw [List.getElem?_set_ne fun hij => hj (hij.symm.trans hi)]
      exact h.ctOthers hf j hj }

/-! Every step. -/

/-- An I2C_STEP in progress began in SERVING on the I2C bus: the invariant's clause of the loop state (R112). -/
def I2cStepServing (s : State) : Prop :=
  ∀ f bs, s.prog = .i2cDrain f bs ∨ s.prog = .i2cFinish f bs → s.mode = .serving ∧ s.cfg.busSel = .i2c

/-- A step that keeps the command path's state keeps the invariant, once its loop state meets the invariant's clause. -/
theorem OutputInvariant.of_keeps {s t : State} (h : OutputInvariant s) (hk : KeepsCommandState s t)
    (hp : I2cStepServing t) : OutputInvariant t := by
  obtain ⟨hcfg, hmode, hct, hlast, hact, hhist⟩ := hk
  obtain ⟨cfgWf, modeFixed, ctLength, ctWf, ctServing, ctOthers, actLength, histIndex, actLatest, histServing,
    histRange, outcomeCode, -⟩ := h
  constructor
  case stepServing => exact hp
  all_goals simpa only [hcfg, hmode, hct, hlast, hact, hhist]

theorem WriteEffect.i2cStepServing {v : Word} {s u : State} (h : WriteEffect v s u) (hs : I2cStepServing s) :
    I2cStepServing u := by
  rw [h.frame]
  exact hs

/-- Only I2C_STEP's first step begins one, after its checks (R112). -/
theorem Effect.i2cStepServing {s t : State} (h : Effect s t) (hs : I2cStepServing s) : I2cStepServing t := by
  cases h with
  | read b q hq r p hp =>
    obtain rfl | ⟨bs, rfl⟩ := hp
    · exact hs
    · exact nofun
  | drained | configure => exact nofun
  | write v u hw => exact hw.i2cStepServing hs
  | answer a =>
    obtain ⟨c, out, hist, ha⟩ := takeAnswer_frame a s
    rw [ha]
    exact hs
  | i2cStep f hm hb => exact fun _ _ _ => ⟨hm, hb⟩
  | _ => exact hs

/-- An I2C_STEP goes on only from its own earlier steps (R112). -/
theorem LaterEffect.i2cStepServing {s t : State} (h : LaterEffect s t) (hs : I2cStepServing s) :
    I2cStepServing t := by
  cases h with
  | configure _ h =>
    obtain ⟨k, rfl⟩ | ⟨v, u, p, r, -, rfl | ⟨next, addr, sda, scl, rfl⟩, rfl⟩ := configureStep_effect h
    · exact hs
    · exact nofun
    · exact nofun
  | read b q hq p hp =>
    obtain ⟨bs, rfl⟩ | ⟨f, bs, hprog, rfl⟩ := hp
    · exact nofun
    · exact fun _ _ _ => hs f bs (.inl hprog)
  | i2cDrained f bs hprog => exact fun _ _ _ => hs f bs (.inl hprog)
  | drained | i2cFinish => exact nofun

/-- An operation that begins, and a MASTER's step, keep the invariant. -/
theorem Effect.outputInvariant {s t : State} (h : Effect s t) (hs : OutputInvariant s) : OutputInvariant t := by
  obtain hk | ⟨idx, r, hm, hi, hr, rfl⟩ | ⟨a, hm, rfl⟩ := h.commandState
  · exact hs.of_keeps hk (h.i2cStepServing hs.stepServing)
  · exact (hs.after_calWr hm hi hr).of_keeps ⟨rfl, rfl, rfl, rfl, rfl, rfl⟩ hs.stepServing
  · obtain ⟨hout, -⟩ := ServingOutputs.after_answer ⟨hs, hm⟩ a
    exact hout.of_keeps (returning_keepsCommandState _ _) hout.stepServing

/-- A later step of an operation in progress keeps the invariant. -/
theorem LaterEffect.outputInvariant {s t : State} (h : LaterEffect s t) (hs : OutputInvariant s) :
    OutputInvariant t := by
  obtain hk | ⟨f, bs, hp, rfl⟩ := h.commandState
  · exact hs.of_keeps hk (h.i2cStepServing hs.stepServing)
  · obtain ⟨hm, -⟩ := hs.stepServing f bs (.inr hp)
    obtain ⟨hout, -⟩ := ServingOutputs.after_drained ⟨hs, hm⟩ f bs
    exact hout.of_keeps ⟨rfl, rfl, rfl, rfl, rfl, rfl⟩ nofun

/-- The invariant speaks of no input of the agents. -/
theorem OutputInvariant.withInputs {s : State} (h : OutputInvariant s) (i : Inputs) :
    OutputInvariant (s.withInputs i) :=
  h.of_keeps ⟨rfl, rfl, rfl, rfl, rfl, rfl⟩ h.stepServing

/-- Settles O59, by what each kind of step does to the command path's state. -/
theorem stepKeepsOutputInvariant : Obligations.StepKeepsOutputInvariant := by
  intro s t hs h
  cases step_kind h with
  | waits i => exact hs.withInputs i
  | issues i hp he => exact he.outputInvariant (hs.withInputs i)
  | master i e he => exact (exec_effect he).outputInvariant (hs.withInputs i)
  | continues i hp hl => exact (hostStep_laterEffect hp hl).outputInvariant (hs.withInputs i)

end Sys2Proof.Machine
end

section
/-! PROOFS. Who writes what (spec 10_state.md R25 to R31): the configuration and MODE no step at all, the calibration
table CAL_WR alone, and the outputs the command path's steps alone. -/

namespace Sys2Proof.Machine

/-! MODE and the configuration. -/

theorem Effect.keeps_mode_cfg {s t : State} (h : Effect s t) : t.mode = s.mode ∧ t.cfg = s.cfg := by
  obtain hk | ⟨idx, r, -, -, -, rfl⟩ | ⟨a, -, rfl⟩ := h.commandState
  · exact ⟨hk.mode, hk.cfg⟩
  · exact ⟨rfl, rfl⟩
  · obtain ⟨c, out, hist, ha⟩ := takeAnswer_frame a s
    rw [ha]
    exact ⟨rfl, rfl⟩

/-- A later step of an operation in progress writes neither the configuration, MODE nor the table (R25 to R28). -/
theorem LaterEffect.keeps_mode_cfg_ct {s t : State} (h : LaterEffect s t) :
    t.mode = s.mode ∧ t.cfg = s.cfg ∧ t.ct = s.ct := by
  obtain hk | ⟨f, bs, -, rfl⟩ := h.commandState
  · exact ⟨hk.mode, hk.cfg, hk.ct⟩
  · obtain ⟨c, out, hist, hd⟩ := takeDrained_frame f bs s
    rw [hd]
    exact ⟨rfl, rfl, rfl⟩

/-- Settles O43, by what each kind of step keeps. -/
theorem stepKeepsModeAndConfiguration : Obligations.StepKeepsModeAndConfiguration := by
  intro s t h
  cases step_kind h with
  | waits i => exact ⟨rfl, rfl⟩
  | issues i hp he => exact he.keeps_mode_cfg
  | master i e he => exact (exec_effect he).keeps_mode_cfg
  | continues i hp hl =>
    obtain ⟨hmode, hcfg, -⟩ := (hostStep_laterEffect hp hl).keeps_mode_cfg_ct
    exact ⟨hmode, hcfg⟩

/-! The table and the outputs, by the instruction. -/

/-- A register operation without a value writes nothing of the command path's state. -/
theorem complete_keepsCommandState {s t : State} {r : Except FaultKind State}
    (hr : ∀ u, r = .ok u → ∃ v, WriteEffect v s u) (h : complete s r = .next t) : KeepsCommandState s t := by
  obtain ⟨u, hu, rfl⟩ | ⟨k, -, rfl⟩ := complete_cases h
  · obtain ⟨v, hv⟩ := hr u hu
    exact { hv.keepsCommandState with }
  · exact raiseFault_keepsCommandState k s

/-- A register read reaches the FIFO and the draws alone (R45). -/
theorem execRd_keepsCommandState {off : Byte} {s t : State} (h : execRd off s = .next t) : KeepsCommandState s t := by
  unfold execRd regRead at h
  split at h <;> (injection h with h; subst h)
  · rename_i hread
    split at hread
    · cases hread
    · obtain ⟨hframe, -⟩ := readReg_ok hread
      rw [hframe]
      exact ⟨rfl, rfl, rfl, rfl, rfl, rfl⟩
  · exact raiseFault_keepsCommandState _ s

/-- CONFIGURE's first sub-step is its checks and a register write (R84). -/
theorem execConfigure_keepsCommandState {addr sda scl : Byte} {s t : State}
    (h : execConfigure addr sda scl s = .next t) : KeepsCommandState s t := by
  unfold execConfigure at h
  split at h
  · injection h with h; subst h; exact raiseFault_keepsCommandState _ s
  split at h
  · injection h with h; subst h; exact raiseFault_keepsCommandState _ s
  split at h
  · injection h with h; subst h; exact raiseFault_keepsCommandState _ s
  split at h
  · injection h with h; subst h; exact raiseFault_keepsCommandState _ s
  · exact (continueWith_configureEffect (fun _ hu => regModify_effect hu) h).keepsCommandState

/-- DRAIN's first iteration takes at most a byte (R86). -/
theorem execDrain_keepsCommandState {s t : State} (h : execDrain s = .next t) : KeepsCommandState s t := by
  unfold execDrain drainStep at h
  obtain ⟨-, hd⟩ | ⟨b, q, -, hd⟩ := drainRead_cases s <;> rw [hd] at h <;> (injection h with h; subst h)
  · exact ⟨rfl, rfl, rfl, rfl, rfl, rfl⟩
  · exact ⟨rfl, rfl, rfl, rfl, rfl, rfl⟩

theorem execMapRaw_keepsCommandState {idx raw : Byte} {s t : State} (h : execMapRaw idx raw s = .next t) :
    KeepsCommandState s t := by
  unfold execMapRaw at h
  repeat' split at h
  all_goals (injection h with h; subst h)
  exacts [raiseFault_keepsCommandState _ s, raiseFault_keepsCommandState _ s, returning_keepsCommandState _ s]

theorem execCalRd_keepsCommandState {idx : Byte} {s t : State} (h : execCalRd idx s = .next t) :
    KeepsCommandState s t := by
  unfold execCalRd at h
  repeat' split at h
  all_goals (injection h with h; subst h)
  exacts [raiseFault_keepsCommandState _ s, raiseFault_keepsCommandState _ s, returning_keepsCommandState _ s]

/-- I2C_STEP's first step is its checks and ACK_ABORT (R112). -/
theorem execI2cStep_keepsCommandState {f : Bool} {s t : State} (h : execI2cStep f s = .next t) :
    KeepsCommandState s t := by
  rw [execI2cStep, ackAbort_ok] at h
  repeat' split at h
  all_goals (injection h with h; subst h)
  exacts [raiseFault_keepsCommandState _ s, raiseFault_keepsCommandState _ s, ⟨rfl, rfl, rfl, rfl, rfl, rfl⟩]

/-- SERIAL_STEP raises a Fault or takes its answer (R111). -/
theorem execSerialStep_cases {a : SerialAnswer} {s t : State} (h : execSerialStep a s = .next t) :
    (∃ k, t = raiseFault k s) ∨ t = (takeAnswer a s).returning .done := by
  unfold execSerialStep at h
  repeat' split at h
  all_goals (injection h with h; subst h)
  exacts [.inl ⟨_, rfl⟩, .inl ⟨_, rfl⟩, .inr rfl]

/-- CAL_WR raises a Fault or writes the entry (R105). -/
theorem execCalWr_cases {idx : Byte} {min max : Pulse} {s t : State} (h : execCalWr idx min max s = .next t) :
    (∃ k, t = raiseFault k s) ∨ t = { s with ct := s.ct.set idx.toNat ⟨min, max⟩ }.returning .done := by
  unfold execCalWr at h
  repeat' split at h
  all_goals (injection h with h; subst h)
  exacts [.inl ⟨_, rfl⟩, .inl ⟨_, rfl⟩, .inl ⟨_, rfl⟩, .inr rfl]

/-- Every instruction but SERIAL_STEP and CAL_WR keeps the command path's state. -/
theorem exec_keepsCommandState {i : Instr} {s t : State} (hserial : ∀ a, i ≠ .serialStep a)
    (hcal : ∀ idx min max, i ≠ .calWr idx min max) (h : exec i s = .next t) : KeepsCommandState s t := by
  cases i with
  | serialStep a => exact absurd rfl (hserial a)
  | calWr idx min max => exact absurd rfl (hcal idx min max)
  | rd off => exact execRd_keepsCommandState h
  | wr off v => exact complete_keepsCommandState (fun _ hu => ⟨_, regWrite_effect hu⟩) h
  | setBits off m => exact complete_keepsCommandState (fun _ hu => regModify_effect hu) h
  | clrBits off m => exact complete_keepsCommandState (fun _ hu => regModify_effect hu) h
  | tglBits off m => exact complete_keepsCommandState (fun _ hu => regModify_effect hu) h
  | ackAbort => exact complete_keepsCommandState (r := ackAbort s) (fun _ hu => ⟨_, regWrite_effect hu⟩) h
  | configure addr sda scl => exact execConfigure_keepsCommandState h
  | drain => exact execDrain_keepsCommandState h
  | mapRaw idx raw => exact execMapRaw_keepsCommandState h
  | calRd idx => exact execCalRd_keepsCommandState h
  | i2cStep f => exact execI2cStep_keepsCommandState h
  | busStart addr dir => exact busEvent_keepsCommandState (e := .start addr dir) h
  | busByte b => exact busEvent_keepsCommandState (e := .byte b) h
  | busStop => exact busEvent_keepsCommandState (e := .stop) h
  | busTxAbort => exact busEvent_keepsCommandState (e := .txAbort) h
  | frameActuatorCmd | i2cPair | decode | hasData =>
    injection h with h
    subst h
    exact returning_keepsCommandState _ s

/-- `t` has the outputs of `s`. -/
def KeepsOutputs (s t : State) : Prop :=
  t.lastOutcome = s.lastOutcome ∧ t.actOut = s.actOut ∧ t.outHist = s.outHist

theorem KeepsCommandState.outputs {s t : State} (h : KeepsCommandState s t) : KeepsOutputs s t :=
  ⟨h.lastOutcome, h.actOut, h.outHist⟩

/-- Of the instructions only SERIAL_STEP writes the outputs at once (R109). -/
theorem exec_keepsOutputs {i : Instr} {s t : State} (hserial : ∀ a, i ≠ .serialStep a) (h : exec i s = .next t) :
    KeepsOutputs s t := by
  by_cases hcal : ∃ idx min max, i = .calWr idx min max
  · obtain ⟨idx, min, max, rfl⟩ := hcal
    obtain ⟨k, rfl⟩ | rfl := execCalWr_cases h
    · exact ⟨rfl, rfl, rfl⟩
    · exact ⟨rfl, rfl, rfl⟩
  · exact (exec_keepsCommandState hserial (fun idx min max hi => hcal ⟨idx, min, max, hi⟩) h).outputs

/-- Of the instructions only CAL_WR writes the table (R25). -/
theorem exec_keeps_ct {i : Instr} {s t : State} (hcal : ∀ idx min max, i ≠ .calWr idx min max)
    (h : exec i s = .next t) : t.ct = s.ct := by
  by_cases hserial : ∃ a, i = .serialStep a
  · obtain ⟨a, rfl⟩ := hserial
    obtain ⟨k, rfl⟩ | rfl := execSerialStep_cases h
    · rfl
    · obtain ⟨c, out, hist, ha⟩ := takeAnswer_frame a s
      rw [ha]
      rfl
  · exact (exec_keepsCommandState (fun a hi => hserial ⟨a, hi⟩) hcal h).ct

/-- Settles O42: the instructions by `exec_keepsOutputs`, and in progress the MASTER's steps and every later step but
I2C_STEP's last. -/
theorem onlyCommandPathWritesOutputs : Obligations.OnlyCommandPathWritesOutputs := by
  refine fun s t => ⟨fun i hserial h => exec_keepsOutputs hserial h, fun hfinish hbusy h => ?_⟩
  cases step_kind h with
  | waits i => exact ⟨rfl, rfl, rfl⟩
  | issues i hp he => exact absurd hp hbusy
  | master i e he => exact (busEvent_keepsCommandState he).outputs
  | continues i hp hl =>
    obtain hk | ⟨f, bs, hprog, -⟩ := (hostStep_laterEffect hp hl).commandState
    · exact hk.outputs
    · exact absurd hprog (hfinish f bs)

/-- Settles O44: the instructions by `exec_keeps_ct`, and in progress the MASTER's steps and every later step. -/
theorem onlyCalWrWritesTheTable : Obligations.OnlyCalWrWritesTheTable := by
  refine ⟨fun i s t hcal h => exec_keeps_ct hcal h, fun s t hbusy h => ?_⟩
  cases step_kind h with
  | waits i => rfl
  | issues i hp he => exact absurd hp hbusy
  | master i e he => exact (busEvent_keepsCommandState he).ct
  | continues i hp hl =>
    obtain ⟨-, -, hct⟩ := (hostStep_laterEffect hp hl).keeps_mode_cfg_ct
    exact hct

end Sys2Proof.Machine
end

section
/-! PROOFS. The MASTER's turn (spec 10_state.md R18; 45_bus_events.md R121), and reset (10_state.md R36;
70_reset_and_hazards.md R138 to R141). -/

namespace Sys2Proof.Machine

/-- The MASTER steps on its turn where its oldest pending event is enabled (R18). -/
theorem nextAgent_of_master_turn {s : State} {e : BusEvent} {es : List BusEvent} {ts : List Agent}
    (ht : s.turns = .master :: ts) (hm : s.master = e :: es) (he : busEnabled e s = true) :
    nextAgent s = some .master := by
  have hcan : masterCan s = true := by simp [masterCan, eventNow, hm, he]
  simp [nextAgent, turnNow, ht, hcan]

/-- Settles O55: the MASTER is the next agent, and its step takes the turn and the event. -/
theorem masterStepsBetweenHostSteps : Obligations.MasterStepsBetweenHostSteps := by
  intro s e es ts hwf hfault hturns hmaster he
  have hnext := nextAgent_of_master_turn hturns hmaster he
  have hnow : eventNow s = some e := by simp [eventNow, hmaster]
  have hused : useEvent (useTurn s) = { s with master := es, turns := ts } := by
    rw [useTurn_of_cons hturns]
    exact useEvent_of_cons hmaster
  simp only [step, hwf, hfault, hnext, agentStep, masterStep, eventNow_useTurn, hnow, hused, Bool.not_true,
    Bool.false_eq_true, if_false]

/-! Reset. -/

theorem resetMode_of_ne {c : Config} (h : c.calTable.length ≠ c.nAct) : resetMode c = .fatal := by
  simp [resetMode, h]

theorem resetMode_of_eq {c : Config} (h : c.calTable.length = c.nAct) :
    resetMode c = if c.calSelect then .calibrating else .serving := by
  simp [resetMode, h]

/-- Reset goes to FATAL exactly where the table's length is not the actuator count (R139, R141). -/
theorem resetMode_eq_fatal_iff (c : Config) : resetMode c = .fatal ↔ c.calTable.length ≠ c.nAct := by
  refine ⟨fun hf h => ?_, resetMode_of_ne⟩
  rw [resetMode_of_eq h] at hf
  split at hf <;> cases hf

/-- Outside FATAL reset loads the static table (R140). -/
theorem reset_ct {c : Config} {d : ResetDraws} (h : resetMode c ≠ .fatal) :
    (State.resetWith c d).ct = c.calTable ∧ c.calTable.length = c.nAct := by
  have hlen : c.calTable.length = c.nAct := by simpa [resetMode_eq_fatal_iff] using h
  exact ⟨if_pos hlen, hlen⟩

/-- No actuator has a pulse after reset (R36). -/
theorem reset_actOut {c : Config} (d : ResetDraws) {i : Nat} (h : i < c.nAct) :
    (State.resetWith c d).actOut[i]? = some none := by
  simp [State.resetWith, h]

/-- Settles O56: every element is what reset writes, and the mode and the outcome go by the table's length. -/
theorem resetEstablishesInitialState : Obligations.ResetEstablishesInitialState := by
  intro c d
  refine ⟨rfl, rfl, rfl, rfl, rfl, rfl, rfl, rfl, rfl, rfl, fun i hi => reset_actOut d hi, fun hne => ?_, fun heq => ?_⟩
  · have hmode : (State.resetWith c d).mode = .fatal := resetMode_of_ne hne
    exact ⟨hmode, if_neg hne, by simp [alarm, hmode]⟩
  · have hmode : (State.resetWith c d).mode = if c.calSelect then .calibrating else .serving := resetMode_of_eq heq
    have halarm : alarm (State.resetWith c d) = false := by cases hsel : c.calSelect <;> simp [alarm, hmode, hsel]
    exact ⟨if_pos heq, if_pos heq, halarm, fun hsel => by simp [hmode, hsel], fun hsel => by simp [hmode, hsel]⟩

/-- A disabled controller with an empty FIFO and nothing written holds (R36). -/
theorem reset_busInvariant (c : Config) (d : ResetDraws) : BusInvariant (State.resetWith c d) where
  fifoBound := Nat.zero_le _
  enabledConfigured := nofun
  sdaAllowed := nofun
  sclAllowed := nofun
  activeEnabled := nofun
  activeAddress := nofun
  configuring := trivial

/-- With no pulse written yet, what is left of the outputs' invariant is the table's part and the first outcome. -/
theorem reset_outputInvariant {c : Config} (hwf : c.wf = true) (d : ResetDraws) :
    OutputInvariant (State.resetWith c d) where
  cfgWf := hwf
  modeFixed := rfl
  ctLength hf := by
    obtain ⟨hct, hlen⟩ := reset_ct (d := d) hf
    rw [hct]
    exact hlen
  ctWf := by
    obtain ⟨hcal, -⟩ := (config_wf_iff c).mp hwf
    simp only [State.resetWith]
    split
    · simpa [Range.wf] using hcal
    · rfl
  ctServing hs := (reset_ct fun hf => absurd (hs.symm.trans hf) nofun).1
  ctOthers hf i _ := by rw [(reset_ct hf).1]; rfl
  actLength := List.length_replicate
  histIndex := nofun
  actLatest i hi := reset_actOut d hi
  histServing h := absurd rfl h
  histRange := nofun
  outcomeCode := by
    simp only [State.resetWith]
    split <;> decide
  stepServing := nofun

/-- Settles O57, one invariant a lemma; the bus controller's does not need the configuration well formed. -/
theorem resetMeetsTheInvariants : Obligations.ResetMeetsTheInvariants :=
  fun c d hwf => ⟨reset_busInvariant c d, reset_outputInvariant hwf d⟩

end Sys2Proof.Machine
end

section
/-! PROOFS. Unmapped register offsets (spec 20_memory.md R43): BAD_OFFSET is the window's own Fault, raised where no
register stands at the offset and by no register's read or write behaviour. -/

namespace Sys2Proof.Machine

/-! No register raises BAD_OFFSET (R70 to R75). -/

theorem readReg_ne_badOffset (r : Reg) (s : State) : readReg r s ≠ .error .badOffset := by
  cases r <;> nofun

/-- Each check of a register write answers another Fault. -/
theorem writeReg_ne_badOffset (r : Reg) (v : Word) (s : State) : writeReg r v s ≠ .error .badOffset := by
  cases r <;> simp only [writeReg, writeEnable, writeSaddr, writeClrTxAbrt, writeSdaSel, writeSclSel]
  all_goals repeat' split
  all_goals nofun

/-! The window's primitives raise it exactly at the unmapped offsets (R43, R76, R77). -/

theorem regRead_eq_badOffset_iff (off : Byte) (s : State) :
    regRead off s = .error .badOffset ↔ regAt off = none := by
  unfold regRead
  cases regAt off with
  | none => simp
  | some r => simpa using readReg_ne_badOffset r s

theorem regWrite_eq_badOffset_iff (off : Byte) (v : Word) (s : State) :
    regWrite off v s = .error .badOffset ↔ regAt off = none := by
  unfold regWrite
  cases regAt off with
  | none => simp
  | some r => simpa using writeReg_ne_badOffset r v s

theorem regModify_eq_badOffset_iff (f : Word → Word → Word) (off : Byte) (m : Word) (s : State) :
    regModify f off m s = .error .badOffset ↔ regAt off = none := by
  unfold regModify
  cases regAt off with
  | none => simp
  | some r =>
    cases hr : readWrite r with
    | false => simp [hr]
    | true =>
      obtain ⟨old, hold⟩ := readReg_readWrite hr s
      simpa [hr, hold] using writeReg_ne_badOffset r (f old m) s

/-! What the operations over them make of it. -/

theorem execRd_of_error {off : Byte} {s : State} {k : FaultKind} (h : regRead off s = .error k) :
    execRd off s = .next (raiseFault k s) := by
  rw [execRd, h]

theorem complete_of_error {s : State} {r : Except FaultKind State} {k : FaultKind} (h : r = .error k) :
    complete s r = .next (raiseFault k s) := by
  rw [h, complete]

theorem raiseFault_fault_ne {s : State} {k k' : FaultKind} (hs : s.fault = none) (hk : k ≠ k') :
    (raiseFault k s).fault ≠ some k' := by
  simpa [raiseFault_fault_of_none hs] using hk

/-- A register write leaves `FAULT` alone (R127). -/
theorem WriteEffect.fault_eq {v : Word} {s u : State} (h : WriteEffect v s u) : u.fault = s.fault := by
  rw [h.frame]

/-- A register read leaves `FAULT` alone (R127). -/
theorem regRead_keeps_fault {off : Byte} {s u : State} {v : Word} (h : regRead off s = .ok (v, u)) :
    u.fault = s.fault := by
  unfold regRead at h
  split at h
  · cases h
  · obtain ⟨hframe, -⟩ := readReg_ok h
    rw [hframe]

/-- RD at a mapped offset does not raise BAD_OFFSET. -/
theorem execRd_fault_ne_badOffset {off : Byte} {s t : State} {r : Reg} (hoff : regAt off = some r)
    (hs : s.fault = none) (h : execRd off s = .next t) : t.fault ≠ some .badOffset := by
  unfold execRd at h
  split at h <;> (injection h with h; subst h)
  case h_1 v u hread => simp [State.returning, regRead_keeps_fault hread, hs]
  case h_2 k hread =>
    refine raiseFault_fault_ne hs fun hk => ?_
    rw [hk, regRead_eq_badOffset_iff, hoff] at hread
    cases hread

/-- A register operation without a value raises BAD_OFFSET only where its primitive does. -/
theorem complete_fault_ne_badOffset {s t : State} {r : Except FaultKind State} (hr : r ≠ .error .badOffset)
    (hw : ∀ u, r = .ok u → ∃ v, WriteEffect v s u) (hs : s.fault = none) (h : complete s r = .next t) :
    t.fault ≠ some .badOffset := by
  obtain ⟨u, hu, rfl⟩ | ⟨k, hk, rfl⟩ := complete_cases h
  · obtain ⟨v, hv⟩ := hw u hu
    simp [State.returning, hv.fault_eq, hs]
  · exact raiseFault_fault_ne hs fun hbad => hr (hbad ▸ hk)

/-- SET, CLR or TGL at a mapped offset does not raise BAD_OFFSET. -/
theorem regModify_fault_ne_badOffset {f : Word → Word → Word} {off : Byte} {m : Word} {s t : State} {r : Reg}
    (hoff : regAt off = some r) (hs : s.fault = none) (h : complete s (regModify f off m s) = .next t) :
    t.fault ≠ some .badOffset :=
  complete_fault_ne_badOffset (by simp [regModify_eq_badOffset_iff, hoff]) (fun _ => regModify_effect) hs h

/-- WR at a mapped offset does not raise BAD_OFFSET. -/
theorem execWr_fault_ne_badOffset {off : Byte} {v : Word} {s t : State} {r : Reg} (hoff : regAt off = some r)
    (hs : s.fault = none) (h : execWr off v s = .next t) : t.fault ≠ some .badOffset :=
  complete_fault_ne_badOffset (by simp [regWrite_eq_badOffset_iff, hoff]) (fun _ hu => ⟨v, regWrite_effect hu⟩) hs h

/-- Settles O14: every access goes through `regAt`, and no register behind it raises BAD_OFFSET. -/
theorem unmappedOffsetRaisesBadOffset : Obligations.UnmappedOffsetRaisesBadOffset := by
  intro s off v
  constructor
  · intro hoff
    have hnone := (regAt_eq_none_iff off).mpr hoff
    exact ⟨execRd_of_error ((regRead_eq_badOffset_iff off s).mpr hnone),
      complete_of_error ((regWrite_eq_badOffset_iff off v s).mpr hnone),
      complete_of_error ((regModify_eq_badOffset_iff setMask off v s).mpr hnone),
      complete_of_error ((regModify_eq_badOffset_iff clearMask off v s).mpr hnone),
      complete_of_error ((regModify_eq_badOffset_iff toggleMask off v s).mpr hnone)⟩
  · intro halign hlt hs i t hi h
    have hsome : regAt off ≠ none := by
      rw [Ne, regAt_eq_none_iff]
      omega
    obtain ⟨r, hoff⟩ := Option.ne_none_iff_exists'.mp hsome
    obtain rfl | rfl | rfl | rfl | rfl := hi
    · exact execRd_fault_ne_badOffset hoff hs h
    · exact execWr_fault_ne_badOffset hoff hs h
    · exact regModify_fault_ne_badOffset hoff hs h
    · exact regModify_fault_ne_badOffset hoff hs h
    · exact regModify_fault_ne_badOffset hoff hs h

end Sys2Proof.Machine
end

section
/-! PROOFS. The operation port's encoding (spec 30_encoding.md R54 to R62): an instruction's bytes are an opcode and
operands that its operand decoder reads back, and what any operand decoder reads are the bytes of a well-formed
instruction. -/

namespace Sys2Proof

/-! The opcode map. -/

@[simp] theorem opcodeOf_code (o : Opcode) : opcodeOf o.code = some o := by
  cases o <;> decide

theorem code_of_mem_opcodeOf {opc : Byte} : ∀ o ∈ opcodeOf opc, o.code = opc := by
  revert opc
  decide

/-- The seven reserved ranges are what the opcode map leaves out (R61). -/
theorem opcodeOf_eq_none_iff (opc : Byte) :
    opcodeOf opc = none ↔
      (opc.toNat = 0 ∨ (0x02 ≤ opc.toNat ∧ opc.toNat ≤ 0x0F) ∨ (0x15 ≤ opc.toNat ∧ opc.toNat ≤ 0x1F) ∨
        (0x24 ≤ opc.toNat ∧ opc.toNat ≤ 0x2F) ∨ (0x33 ≤ opc.toNat ∧ opc.toNat ≤ 0x3F) ∨
        (0x42 ≤ opc.toNat ∧ opc.toNat ≤ 0x7F) ∨ 0x84 ≤ opc.toNat) := by
  revert opc
  decide

theorem decodeOp_cons_of_some {opc : Byte} {o : Opcode} (h : opcodeOf opc = some o) (bs : List Byte) :
    decodeOp (opc :: bs) = decodeOperands o bs := by
  simp [decodeOp, h]

theorem decodeOp_cons_of_none {opc : Byte} (h : opcodeOf opc = none) (bs : List Byte) :
    decodeOp (opc :: bs) = .reject .badOpcode := by
  simp [decodeOp, h]

/-! From an instruction to its bytes and back. -/

theorem decodeOffsetWord_bytes (k : Byte → Word → Instr) (off : Byte) (v : Word) (rest : List Byte) :
    decodeOffsetWord k (off :: (bytesOfWord v ++ rest)) = .ok (k off v) rest := by
  simp [decodeOffsetWord, bytesOfWord]

theorem decodeCalWr_bytes (idx : Byte) (min max : Pulse) (rest : List Byte) :
    decodeCalWr (idx :: (bytesOfPulse min ++ bytesOfPulse max ++ rest)) = .ok (.calWr idx min max) rest := by
  simp [decodeCalWr, bytesOfPulse]

theorem decodeConfigure_of_wellFormed {addr : Byte} (h : addr.toNat ≤ 0x7F) (sda scl : Byte) (rest : List Byte) :
    decodeConfigure (addr :: sda :: scl :: rest) = .ok (.configure addr sda scl) rest := by
  simp only [decodeConfigure, (bit7_eq_false_iff addr).mpr h, Bool.false_eq_true, if_false]

theorem decodeSerialStep_bytes {answer : SerialAnswer} (h : (Instr.serialStep answer).wellFormed = true)
    (rest : List Byte) : decodeSerialStep (bytesOfAnswer answer ++ rest) = .ok (.serialStep answer) rest := by
  cases answer with
  | ok buf => exact decodeBuffer_bytes (fun buf => .serialStep (.ok buf)) rest (of_decide_eq_true h)
  | err => rfl

theorem decodeBusStart_byte (addr : BitVec 7) (dir : Dir) (rest : List Byte) :
    decodeOperands .busStart (busAddressByte addr dir :: rest) = .ok (.busStart addr dir) rest := by
  obtain ⟨haddr, hdir⟩ := busAddressByte_fields addr dir
  simp only [decodeOperands, decodeByte, haddr, hdir]

/-- An operation's bytes are its opcode and operands that read back, whatever follows them (R59, R60). -/
theorem encode_op {i : Instr} (hf : i.format = .op) (hw : i.wellFormed = true) :
    ∃ o bs, encode i = o.code :: bs ∧ ∀ rest, decodeOperands o (bs ++ rest) = .ok i rest := by
  cases i with
  | frameActuatorCmd | i2cPair => cases hf
  | decode buf => exact ⟨.decode, _, rfl, fun rest => decodeBuffer_bytes _ rest (of_decide_eq_true hw)⟩
  | rd off => exact ⟨.rd, [off], rfl, fun _ => rfl⟩
  | wr off v => exact ⟨.wr, _, rfl, decodeOffsetWord_bytes .wr off v⟩
  | setBits off m => exact ⟨.setBits, _, rfl, decodeOffsetWord_bytes .setBits off m⟩
  | clrBits off m => exact ⟨.clrBits, _, rfl, decodeOffsetWord_bytes .clrBits off m⟩
  | tglBits off m => exact ⟨.tglBits, _, rfl, decodeOffsetWord_bytes .tglBits off m⟩
  | configure addr sda scl =>
    exact ⟨.configure, _, rfl, decodeConfigure_of_wellFormed (of_decide_eq_true hw) sda scl⟩
  | hasData => exact ⟨.hasData, [], rfl, fun _ => rfl⟩
  | drain => exact ⟨.drain, [], rfl, fun _ => rfl⟩
  | ackAbort => exact ⟨.ackAbort, [], rfl, fun _ => rfl⟩
  | mapRaw idx raw => exact ⟨.mapRaw, [idx, raw], rfl, fun _ => rfl⟩
  | calWr idx min max => exact ⟨.calWr, _, rfl, decodeCalWr_bytes idx min max⟩
  | calRd idx => exact ⟨.calRd, [idx], rfl, fun _ => rfl⟩
  | serialStep answer => exact ⟨.serialStep, _, rfl, decodeSerialStep_bytes hw⟩
  | i2cStep f =>
    refine ⟨.i2cStep, _, rfl, fun _ => ?_⟩
    cases f <;> rfl
  | busStart addr dir => exact ⟨.busStart, _, rfl, decodeBusStart_byte addr dir⟩
  | busByte b => exact ⟨.busByte, [b], rfl, fun _ => rfl⟩
  | busStop => exact ⟨.busStop, [], rfl, fun _ => rfl⟩
  | busTxAbort => exact ⟨.busTxAbort, [], rfl, fun _ => rfl⟩

/-- An encoding has the length of its row (R54, R57, R60). -/
theorem length_encode (i : Instr) : (encode i).length = i.size := by
  cases i with
  | decode buf => exact Laws.EncodeSize.decode buf
  | serialStep answer => exact Laws.EncodeSize.serialStep answer
  | _ => rfl

theorem decodeOp_encode {i : Instr} (hf : i.format = .op) (hw : i.wellFormed = true) (rest : List Byte) :
    decodeOp (encode i ++ rest) = .ok i rest := by
  obtain ⟨o, bs, he, hd⟩ := encode_op hf hw
  rw [he, List.cons_append, decodeOp_cons_of_some (opcodeOf_code o), hd]

/-- Settles O1: an operation's opcode selects the decoder of its operands, and the other two formats are one word
each. -/
theorem decodeInvertsEncode : Obligations.DecodeInvertsEncode := by
  intro i rest hw
  refine ⟨fun hf => decodeOp_encode hf hw rest, ?_⟩
  cases hf : i.format with
  | op => simpa [decode] using decodeOp_encode hf hw []
  | frame16 =>
    cases i with
    | frameActuatorCmd rsv index value =>
      exact if_pos (isFrame_frameBytes rsv index value)
    | _ => cases hf
  | pair2 =>
    cases i with
    | i2cPair index value => rfl
    | _ => cases hf

/-! From bytes to their instruction and back. -/

/-- What an operand decoder answers for the bytes behind the opcode of `o`: BAD_OPERAND, or a well-formed operation
whose encoding is that opcode and the bytes it took (R59, R60, R62). -/
inductive OperandsRead (o : Opcode) (bs : List Byte) : Decoded → Prop where
  | malformed : OperandsRead o bs (.reject .badOperand)
  | ok {i : Instr} {rest : List Byte} (hf : i.format = .op) (hw : i.wellFormed = true)
      (he : encode i ++ rest = o.code :: bs) : OperandsRead o bs (.ok i rest)

theorem decodeByte_read {o : Opcode} {k : Byte → Instr} (hf : ∀ b, (k b).format = .op)
    (hw : ∀ b, (k b).wellFormed = true) (he : ∀ b, encode (k b) = [o.code, b]) (bs : List Byte) :
    OperandsRead o bs (decodeByte k bs) := by
  cases bs with
  | nil => exact .malformed
  | cons b rest => exact .ok (hf b) (hw b) (by rw [he]; rfl)

theorem decodeOffsetWord_read {o : Opcode} {k : Byte → Word → Instr} (hf : ∀ off v, (k off v).format = .op)
    (hw : ∀ off v, (k off v).wellFormed = true) (he : ∀ off v, encode (k off v) = o.code :: off :: bytesOfWord v)
    (bs : List Byte) : OperandsRead o bs (decodeOffsetWord k bs) := by
  unfold decodeOffsetWord
  split
  · exact .ok (hf _ _) (hw _ _) (by rw [he, bytesOfWord_wordOfBytes]; rfl)
  · exact .malformed

/-- A byte count and the bytes it counts are the bytes of that buffer (R59). -/
theorem bytesOfBuffer_take {n : Byte} {bs : List Byte} (h : n.toNat ≤ bs.length) :
    bytesOfBuffer (bs.take n.toNat) = n :: bs.take n.toNat := by
  simp [bytesOfBuffer, List.length_take, Nat.min_eq_left h]

/-- The operand bytes before the buffer are `pre`. -/
theorem decodeBuffer_read {o : Opcode} {k : List Byte → Instr} (pre : List Byte) (hf : ∀ buf, (k buf).format = .op)
    (hw : ∀ buf, buf.length ≤ 255 → (k buf).wellFormed = true)
    (he : ∀ buf, encode (k buf) = o.code :: (pre ++ bytesOfBuffer buf)) (bs : List Byte) :
    OperandsRead o (pre ++ bs) (decodeBuffer k bs) := by
  cases bs with
  | nil => exact .malformed
  | cons n bs =>
    rw [decodeBuffer]
    split
    case isFalse => exact .malformed
    case isTrue h =>
      have hlen : (bs.take n.toNat).length ≤ 255 := by
        rw [List.length_take]
        have := n.isLt
        omega
      refine .ok (hf _) (hw _ hlen) ?_
      rw [he, bytesOfBuffer_take h]
      simp

theorem decodeConfigure_read (bs : List Byte) : OperandsRead .configure bs (decodeConfigure bs) := by
  unfold decodeConfigure
  split
  case h_1 addr sda scl rest =>
    split
    case isTrue => exact .malformed
    case isFalse h => exact .ok rfl (decide_eq_true ((bit7_eq_false_iff addr).mp (by simpa using h))) rfl
  case h_2 => exact .malformed

theorem decodeMapRaw_read (bs : List Byte) : OperandsRead .mapRaw bs (decodeMapRaw bs) := by
  unfold decodeMapRaw
  split
  · exact .ok rfl rfl rfl
  · exact .malformed

theorem decodeCalWr_read (bs : List Byte) : OperandsRead .calWr bs (decodeCalWr bs) := by
  unfold decodeCalWr
  split
  · exact .ok rfl rfl (by rw [encode, bytesOfPulse_pulseOfBytes, bytesOfPulse_pulseOfBytes]; rfl)
  · exact .malformed

theorem decodeSerialStep_read (bs : List Byte) : OperandsRead .serialStep bs (decodeSerialStep bs) := by
  cases bs with
  | nil => exact .malformed
  | cons st rest =>
    rw [decodeSerialStep]
    split
    case isTrue h =>
      subst h
      exact decodeBuffer_read [0x00] (fun _ => rfl) (fun _ => decide_eq_true) (fun _ => rfl) rest
    case isFalse =>
      split
      case isTrue h => exact .ok rfl rfl (by rw [h]; rfl)
      case isFalse => exact .malformed

theorem decodeI2cStep_read (bs : List Byte) : OperandsRead .i2cStep bs (decodeI2cStep bs) := by
  cases bs with
  | nil => exact .malformed
  | cons f rest =>
    rw [decodeI2cStep]
    split
    case isTrue h => exact .ok rfl rfl (by rw [h]; rfl)
    case isFalse =>
      split
      case isTrue h => exact .ok rfl rfl (by rw [h]; rfl)
      case isFalse => exact .malformed

theorem decodeOperands_read (o : Opcode) (bs : List Byte) : OperandsRead o bs (decodeOperands o bs) := by
  cases o with
  | decode => exact decodeBuffer_read [] (fun _ => rfl) (fun _ => decide_eq_true) (fun _ => rfl) bs
  | rd | calRd | busByte => exact decodeByte_read (fun _ => rfl) (fun _ => rfl) (fun _ => rfl) bs
  | busStart =>
    exact decodeByte_read (fun _ => rfl) (fun _ => rfl) (fun a => by rw [encode, busAddressByte_of_fields]) bs
  | wr | setBits | clrBits | tglBits =>
    exact decodeOffsetWord_read (fun _ _ => rfl) (fun _ _ => rfl) (fun _ _ => rfl) bs
  | configure => exact decodeConfigure_read bs
  | mapRaw => exact decodeMapRaw_read bs
  | calWr => exact decodeCalWr_read bs
  | serialStep => exact decodeSerialStep_read bs
  | i2cStep => exact decodeI2cStep_read bs
  | hasData | drain | ackAbort | busStop | busTxAbort => exact .ok rfl rfl rfl

theorem encode_of_decodeOp {bs rest : List Byte} {i : Instr} (h : decodeOp bs = .ok i rest) :
    i.format = .op ∧ i.wellFormed = true ∧ encode i ++ rest = bs := by
  cases bs with
  | nil => cases h
  | cons opc bs =>
    cases ho : opcodeOf opc with
    | none => rw [decodeOp_cons_of_none ho] at h; cases h
    | some o =>
      have hread := decodeOperands_read o bs
      rw [← decodeOp_cons_of_some ho, h] at hread
      cases hread with
      | ok hf hw he => exact ⟨hf, hw, by rw [he, code_of_mem_opcodeOf o ho]⟩

/-- The mask of R55 leaves only the fields a frame's instruction carries. -/
theorem frameBytes_of_isFrame {bs : List Byte} (h : isFrame bs = true) :
    frameBytes (rsvOf bs) (bs.getD 13 0) (bs.getD 14 0) = bs := by
  have hmask (b : Byte) : b &&& 0xFF = b := by
    revert b
    decide
  simp only [isFrame, Bool.and_eq_true, decide_eq_true_eq] at h
  obtain ⟨hlen, hmatch⟩ := h
  obtain ⟨b0, b1, b2, b3, b4, b5, b6, b7, b8, b9, b10, b11, b12, b13, b14, b15, rfl⟩ := frame_cases hlen
  simp only [frameMask, frameMatch, List.zipWith_cons_cons, List.cons.injEq, hmask] at hmatch
  obtain ⟨rfl, rfl, rfl, rfl, rfl, rfl, rfl, -, -, -, -, -, -, -, -, rfl, -⟩ := hmatch
  rfl

theorem encode_of_decodeFrame {bs rest : List Byte} {i : Instr} (h : decodeFrame bs = .ok i rest) :
    i.format = .frame16 ∧ i.wellFormed = true ∧ encode i ++ rest = bs := by
  unfold decodeFrame at h
  split at h
  case isTrue hframe =>
    cases h
    exact ⟨rfl, rfl, by rw [encode, frameBytes_of_isFrame hframe, List.append_nil]⟩
  case isFalse => cases h

theorem encode_of_decodePair {bs rest : List Byte} {i : Instr} (h : decodePair bs = .ok i rest) :
    i.format = .pair2 ∧ i.wellFormed = true ∧ encode i ++ rest = bs := by
  unfold decodePair at h
  split at h
  · cases h
    exact ⟨rfl, rfl, rfl⟩
  · cases h

/-- Settles O2, one format a lemma. -/
theorem encodeInvertsDecode : Obligations.EncodeInvertsDecode := by
  intro f bs rest i h
  cases f with
  | frame16 => exact encode_of_decodeFrame h
  | pair2 => exact encode_of_decodePair h
  | op => exact encode_of_decodeOp h

/-- Settles O3: each word is evaluated. -/
theorem listedWordsDecode : Obligations.ListedWordsDecode := by
  unfold Obligations.ListedWordsDecode
  decide

end Sys2Proof
end

section
/-! PROOFS. What the step does with the word it issues (spec 30_encoding.md R58, R61, R62; 10_state.md R20): one that
decodes runs as its instruction, and one that does not raises its Fault. -/

namespace Sys2Proof.Machine

/-- The next step is the HOST's, and it issues the word (R18, R58). -/
theorem Issues.step_eq {s : State} {w : PortWord} {ws : List PortWord} (h : Issues s w ws) :
    step s = issueStep (useTurn s) := by
  obtain ⟨hc, hf, hp, ht, -⟩ := h
  simp only [step, hc, hf, ht, agentStep, Bool.not_true, Bool.false_eq_true, if_false]
  exact hostStep_of_idle hp

/-- A word that is not empty is the next one issued. -/
theorem issued_cons_of_decode {w : PortWord} (h : decode w.format w.bytes ≠ .reject .noBytes) (ws : List PortWord) :
    issued (w :: ws) = some (w, ws) := by
  refine if_neg fun ⟨hf, hb⟩ => h ?_
  rw [hf, hb]
  rfl

theorem Issues.step_of_ok {s : State} {w : PortWord} {ws : List PortWord} {i : Instr} {rest : List Byte}
    (h : Issues s w ws) (hd : decode w.format w.bytes = .ok i rest) :
    step s = runIssued i { useTurn s with port := remaining rest ws } := by
  have hw := issued_cons_of_decode (w := w) (by rw [hd]; nofun) ws
  rw [h.step_eq, issueStep, useTurn_port, h.word, hw]
  simp only [hd]

theorem Issues.step_of_reject {s : State} {w : PortWord} {ws : List PortWord} {r : Reject} (h : Issues s w ws)
    (hd : decode w.format w.bytes = .reject r) (hr : r ≠ .noBytes) :
    step s = runRejected r w { useTurn s with port := ws } := by
  have hw := issued_cons_of_decode (w := w) (by rw [hd]; simpa using hr) ws
  rw [h.step_eq, issueStep, useTurn_port, h.word, hw]
  simp only [hd]

/-! A word that decodes. -/

theorem busEvent_of_agent_host {i : Instr} (h : i.agent = .host) : i.busEvent = none := by
  cases hb : i.busEvent with
  | none => rfl
  | some e => simp [Instr.agent, hb] at h

/-- An issued instruction runs, but for a bus event behind pending ones (log entry 6). -/
theorem runIssued_eq_exec {i : Instr} {s : State} (h : s.master = [] ∨ i.agent = .host) :
    runIssued i s = exec i s := by
  unfold runIssued
  split
  · rfl
  case h_2 e he =>
    obtain h | h := h
    · exact if_pos h
    · rw [busEvent_of_agent_host h] at he
      cases he

/-- Settles O54: the issued instruction runs at once. -/
theorem stepRunsDecodedInstruction : Obligations.StepRunsDecodedInstruction := by
  intro s w ws i rest h hd hrun
  rw [h.step_of_ok hd]
  exact runIssued_eq_exec hrun

/-! A word that does not. -/

/-- The Fault of the issued word is the first (R127). -/
theorem Issues.raiseFault_eq {s : State} {w : PortWord} {ws : List PortWord} (h : Issues s w ws) (k : FaultKind) :
    raiseFault k { useTurn s with port := ws } = { useTurn s with fault := some k, port := ws } :=
  raiseFault_of_none (s := { useTurn s with port := ws }) h.noFault k

/-- Settles O4: no operation has a reserved opcode, whatever its operands. -/
theorem reservedOpcodeRaisesBadOpcode : Obligations.ReservedOpcodeRaisesBadOpcode := by
  intro s opc bs ws h hopc
  have hd : decode .op (opc :: bs) = .reject .badOpcode :=
    decodeOp_cons_of_none ((opcodeOf_eq_none_iff opc).mpr hopc) bs
  rw [h.step_of_reject hd nofun, runRejected, h.raiseFault_eq]

/-- Bytes that go on to decode to an operation with no rest decode to none themselves, if anything is missing: an
operation read from fewer bytes would be read from all of them too, with a rest. -/
theorem decodeOp_ne_ok_of_append {bs tl : List Byte} {i : Instr} (h : decodeOp (bs ++ tl) = .ok i []) (htl : tl ≠ [])
    (j : Instr) (rest : List Byte) : decodeOp bs ≠ .ok j rest := by
  intro hj
  obtain ⟨hf, hw, rfl⟩ := encode_of_decodeOp hj
  rw [List.append_assoc, decodeOp_encode hf hw] at h
  injection h with _ hrest
  exact htl (List.append_eq_nil_iff.mp hrest).2

/-- Behind an opcode of the map, what does not decode is malformed (R62). -/
theorem decodeOp_cons_eq_badOperand {opc : Byte} {o : Opcode} {bs : List Byte} (ho : opcodeOf opc = some o)
    (h : ∀ i rest, decodeOp (opc :: bs) ≠ .ok i rest) : decodeOp (opc :: bs) = .reject .badOperand := by
  rw [decodeOp_cons_of_some ho] at h ⊢
  cases hd : decodeOperands o bs with
  | ok i rest => exact absurd hd (h i rest)
  | reject r =>
    have hread := decodeOperands_read o bs
    rw [hd] at hread
    cases hread
    rfl

/-- An operation's bytes end before its length (R62). -/
theorem decodeOp_take_encode {i : Instr} {k : Nat} (hf : i.format = .op) (hw : i.wellFormed = true) (hk : 0 < k)
    (hlt : k < (encode i).length) : decodeOp ((encode i).take k) = .reject .badOperand := by
  have hwhole : decodeOp ((encode i).take k ++ (encode i).drop k) = .ok i [] := by
    simpa using decodeOp_encode hf hw []
  have hmissing : (encode i).drop k ≠ [] := by
    simpa using hlt
  have hne := decodeOp_ne_ok_of_append hwhole hmissing
  obtain ⟨o, bs, he, -⟩ := encode_op hf hw
  rw [he, List.take_cons hk] at hne ⊢
  exact decodeOp_cons_eq_badOperand (opcodeOf_code o) hne

theorem decodeOp_serialStep_badStatus {st : Byte} (h0 : st ≠ 0x00) (h1 : st ≠ 0x01) (tl : List Byte) :
    decodeOp (0x40 :: st :: tl) = .reject .badOperand := by
  rw [decodeOp_cons_of_some (o := .serialStep) rfl, decodeOperands, decodeSerialStep, if_neg h0, if_neg h1]

theorem decodeOp_i2cStep_badDraw {f : Byte} (h0 : f ≠ 0x00) (h1 : f ≠ 0x01) (tl : List Byte) :
    decodeOp (0x41 :: f :: tl) = .reject .badOperand := by
  rw [decodeOp_cons_of_some (o := .i2cStep) rfl, decodeOperands, decodeI2cStep, if_neg h0, if_neg h1]

theorem decodeOp_configure_bit7 {addr : Byte} (h : 0x80 ≤ addr.toNat) (sda scl : Byte) (tl : List Byte) :
    decodeOp (0x20 :: addr :: sda :: scl :: tl) = .reject .badOperand := by
  have hbit : addr.getLsbD 7 = true := by
    rw [← Bool.not_eq_false, bit7_eq_false_iff]
    omega
  rw [decodeOp_cons_of_some (o := .configure) rfl, decodeOperands, decodeConfigure, if_pos hbit]

/-- Settles O5: in each case the operation port's decoder rejects the word as malformed. -/
theorem malformedOperandsRaiseBadOperand : Obligations.MalformedOperandsRaiseBadOperand := by
  intro s bs ws h hbad
  have hd : decode .op bs = .reject .badOperand := by
    obtain ⟨i, k, hf, hw, hk, hlt, rfl⟩ | ⟨st, tl, h0, h1, rfl⟩ | ⟨f, tl, h0, h1, rfl⟩ |
      ⟨addr, sda, scl, tl, haddr, rfl⟩ := hbad
    · exact decodeOp_take_encode hf hw hk (by rwa [length_encode])
    · exact decodeOp_serialStep_badStatus h0 h1 tl
    · exact decodeOp_i2cStep_badDraw h0 h1 tl
    · exact decodeOp_configure_bit7 haddr sda scl tl
  rw [h.step_of_reject hd nofun, runRejected, h.raiseFault_eq]

end Sys2Proof.Machine
end

section
/-! PROOFS. The frame and the receive FIFO through the block's own operations: a frame's payload (spec
42_frame_decoder.md R96 to R98), its command (44_command_path.md R110, R111), and DRAIN's register reads
(30_encoding.md R67). -/

namespace Sys2Proof.Machine

/-! The frame. -/

/-- FD accepts a frame and returns its payload and reserved bytes (R96, R97). -/
@[simp] theorem frameDecode_frameBytes (rsv : Rsv) (index value : Byte) :
    frameDecode (frameBytes rsv index value) = .accepted index value rsv := rfl

theorem exec_frameActuatorCmd (rsv : Rsv) (index value : Byte) (s : State) :
    exec (.frameActuatorCmd rsv index value) s = .next (s.returning (.decoded (.accepted index value rsv))) := by
  rw [exec, execFrameActuatorCmd, frameDecode_frameBytes]

/-- Settles O8: FD returns the payload, and the instruction returns FD's result. -/
theorem frameYieldsItsPayload : Obligations.FrameYieldsItsPayload :=
  fun rsv index value s => ⟨frameDecode_frameBytes rsv index value, exec_frameActuatorCmd rsv index value s⟩

/-- Settles O9: the step decodes the frame's own bytes, with nothing left, and runs it. -/
theorem frameInstructionCompletes : Obligations.FrameInstructionCompletes := by
  intro s rsv index value
  refine ⟨exec_frameActuatorCmd rsv index value s, fun ws h => ?_⟩
  obtain ⟨-, hd⟩ := decodeInvertsEncode (.frameActuatorCmd rsv index value) [] rfl
  rw [stepRunsDecodedInstruction s _ ws _ _ h hd (.inr rfl), exec_frameActuatorCmd]
  rfl

/-- Under PER_ACTUATOR a range with `1 ≤ min < max` maps every raw byte to its scaled pulse (R101 to R104). -/
theorem mapValue_perActuator {s : State} {idx : Byte} {r : Range} (hp : s.cfg.mapPolicy = .perActuator)
    (hct : s.ct[idx.toNat]? = some r) (hr : r.wf = true) (hmin : 1 ≤ r.min.toNat) (raw : Byte) :
    mapValue s idx raw =
      .pulse (BitVec.ofNat 16 (r.min.toNat + raw.toNat * (r.max.toNat - r.min.toNat) / 255)) := by
  have hrange : rangeFor s idx = r := by simp [rangeFor, hp, calEntry, hct]
  obtain ⟨hmap, -⟩ := mapPulse_floor (of_decide_eq_true hr) (Nat.le_of_lt_succ raw.isLt)
  have hpos : r.min.toNat + raw.toNat * (r.max.toNat - r.min.toNat) / 255 ≠ 0 := by omega
  cases hround : s.cfg.mapRound with
  | floor => simp only [mapValue, hrange, hround, hmap, hpos, and_false, if_false]

theorem runCommand_of_pulse {cmd : Command} {s : State} {p : Pulse} (hi : cmd.index.toNat < s.cfg.nAct)
    (hm : mapValue s cmd.index cmd.raw = .pulse p) :
    runCommand cmd s = setOutcome accepted (emitPulse cmd.index p s) := by
  rw [runCommand, if_neg (Nat.not_le.mpr hi), hm]

theorem takeAnswer_frameBytes (rsv : Rsv) (index value : Byte) (s : State) :
    takeAnswer (.ok (frameBytes rsv index value)) s = runCommand ⟨index, value⟩ s := by
  simp [takeAnswer]

/-- SERIAL_STEP in SERVING on the serial bus takes its answer (R111). -/
theorem execSerialStep_serving {s : State} (hm : s.mode = .serving) (hb : s.cfg.busSel = .serial) (a : SerialAnswer) :
    execSerialStep a s = .next ((takeAnswer a s).returning .done) := by
  simp [execSerialStep, hm, hb]

/-- In SERVING on the serial bus a frame writes its mapped pulse to its actuator (R110, R111). -/
theorem exec_serialStep_frameBytes {s : State} {index value : Byte} {p : Pulse} (hm : s.mode = .serving)
    (hb : s.cfg.busSel = .serial) (hi : index.toNat < s.cfg.nAct) (hmap : mapValue s index value = .pulse p)
    (rsv : Rsv) :
    exec (.serialStep (.ok (frameBytes rsv index value))) s =
      .next { s with
        lastOutcome := 0x10
        actOut := s.actOut.set index.toNat (some p)
        outHist := s.outHist ++ [(index, p)]
        ret := .done } := by
  rw [exec, execSerialStep_serving hm hb, takeAnswer_frameBytes,
    runCommand_of_pulse (cmd := ⟨index, value⟩) hi hmap]
  rfl

/-- Settles O38: the frame's pulse is the map of its value, and the map is the scaled pulse. -/
theorem serialFrameSetsItsActuator : Obligations.SerialFrameSetsItsActuator := by
  intro s rsv index value r hm hb hp hi hct hr hmin
  exact exec_serialStep_frameBytes hm hb hi (mapValue_perActuator hp hct hr hmin value) rsv

/-! The receive FIFO. -/

/-- Settles O26: the status word's bit 0 says whether the FIFO holds a byte, and the data register's read takes the
oldest one. -/
theorem drainReadsThroughTheRegisters : Obligations.DrainReadsThroughTheRegisters := by
  intro s
  have hrfne : (statusWord s).getLsbD 0 = rfne s := bitField_statusWord s
  refine ⟨statusWord s, rfl, fun h => ?_, fun h => ⟨_, _, rfl, ?_⟩⟩
  all_goals rw [hrfne] at h
  · exact drainRead_nil (by simpa [rfne] using h)
  · obtain ⟨b, q, hq⟩ := List.exists_cons_of_ne_nil (l := s.rxf) (by simpa [rfne] using h)
    obtain ⟨hbyte, hnext⟩ := readDataCmd_cons hq
    rw [drainRead_cons hq, ← hnext]
    exact congrArg (fun x => some (x, _)) hbyte.symm

end Sys2Proof.Machine
end

section
/-! PROOFS. The registers of the window one by one, through the operations that access them (spec 40_i2c_registers.md
R70 to R83): what a register reads, the checks of its writes in their order (R128), and SET, CLR and TGL as the write of
a new value. -/

namespace Sys2Proof.Machine

/-! RD and WR at a register's own offset do what the register does (R76, R77, R79, R80). -/

theorem exec_rd_of_ok {r : Reg} {s t : State} {v : Word} (h : readReg r s = .ok (v, t)) :
    exec (.rd (offsetOf r)) s = .next (t.returning (.word v)) := by
  simp only [exec, execRd, regRead, regAt_offsetOf, h]

theorem exec_rd_of_error {r : Reg} {s : State} {k : FaultKind} (h : readReg r s = .error k) :
    exec (.rd (offsetOf r)) s = .next (raiseFault k s) := by
  simp only [exec, execRd, regRead, regAt_offsetOf, h]

theorem regWrite_offsetOf (r : Reg) (v : Word) (s : State) : regWrite (offsetOf r) v s = writeReg r v s := by
  simp only [regWrite, regAt_offsetOf]

theorem exec_wr_of_ok {r : Reg} {v : Word} {s t : State} (h : writeReg r v s = .ok t) :
    exec (.wr (offsetOf r) v) s = .next (t.returning .done) := by
  rw [exec, execWr, regWrite_offsetOf, h, complete]

theorem exec_wr_of_error {r : Reg} {v : Word} {s : State} {k : FaultKind} (h : writeReg r v s = .error k) :
    exec (.wr (offsetOf r) v) s = .next (raiseFault k s) :=
  complete_of_error ((regWrite_offsetOf r v s).trans h)

/-! A value with a reserved bit set is one beyond the register's field (R64). -/

theorem reservedClear_of_lt {n : Nat} {v : Word} (h : v.toNat < 2 ^ n) : reservedClear n v = true := by
  rw [reservedClear_eq, decide_eq_true h]

theorem reservedClear_of_le {n : Nat} {v : Word} (h : 2 ^ n ≤ v.toNat) : reservedClear n v = false := by
  rw [reservedClear_eq, decide_eq_false (Nat.not_lt.mpr h)]

/-! IC_STATUS (R72). -/

theorem activity_iff (s : State) : activity s = true ↔ s.xfer = .wrMatched ∨ s.xfer = .rdMatched := by
  unfold activity
  cases s.xfer <;> simp [Xfer.active]

theorem statusWord_toNat (s : State) :
    (statusWord s).toNat = (rfne s).toNat + 2 * s.txAbrt.toNat + 4 * (activity s).toNat := by
  unfold statusWord
  cases rfne s <;> cases s.txAbrt <;> cases activity s <;> rfl

/-- Settles O12: each flag has its own bit of the status word. -/
theorem statusRegisterShowsTheFlags : Obligations.StatusRegisterShowsTheFlags := by
  intro s w
  refine ⟨⟨statusWord s, exec_rd_of_ok (r := .icStatus) rfl, ?_⟩, exec_wr_of_error (r := .icStatus) rfl⟩
  have hrfne : (rfne s).toNat = if s.rxf = [] then 0 else 1 := by
    unfold rfne
    cases s.rxf <;> rfl
  have habrt : 2 * s.txAbrt.toNat = if s.txAbrt then 2 else 0 := by
    cases s.txAbrt <;> rfl
  have hact : 4 * (activity s).toNat = if s.xfer = .wrMatched ∨ s.xfer = .rdMatched then 4 else 0 := by
    simp only [← activity_iff]
    cases activity s <;> rfl
  rw [statusWord_toNat, hrfne, habrt, hact]

/-! IC_DATA_CMD (R73). -/

/-- A read of the data register with the FIFO empty takes a draw and leaves the FIFO (R73). -/
theorem readDataCmd_nil {s : State} (h : s.rxf = []) : (readDataCmd s).2 = { s with draws := s.draws + 1 } := by
  rw [readDataCmd, h]

/-- Settles O13: the read is `readDataCmd`, whose two cases are the FIFO's. -/
theorem dataRegisterPopsOldestByte : Obligations.DataRegisterPopsOldestByte := by
  intro s w
  have hrd : exec (.rd 0x0C) s = .next ((readDataCmd s).2.returning (.word (readDataCmd s).1)) :=
    exec_rd_of_ok (r := .icDataCmd) rfl
  refine ⟨fun b q hq => ⟨(readDataCmd s).1, (readDataCmd_cons hq).1, ?_⟩, fun h => ⟨(readDataCmd s).1, ?_⟩,
    exec_wr_of_error (r := .icDataCmd) rfl⟩
  · rw [hrd, (readDataCmd_cons hq).2, State.returning]
  · rw [hrd, readDataCmd_nil h, State.returning]

/-! IC_ENABLE (R70). -/

theorem zextBit_eq (b : Bool) : zextBit b = if b then 1 else 0 := by
  cases b <;> rfl

theorem cfgd_complete_iff (c : Cfgd) : c.complete = true ↔ c = ⟨true, true, true⟩ := by
  obtain ⟨saddr, sda, scl⟩ := c
  simp [Cfgd.complete, and_assoc]

theorem writeEnable_of_reserved {v : Word} (h : 2 ≤ v.toNat) (s : State) :
    writeEnable v s = .error .reservedBits := by
  simp [writeEnable, reservedClear_of_le (n := 1) h]

/-- Writing the value that is there changes nothing. -/
theorem writeEnable_same {v : Word} {s : State} (h : v = if s.en then 1 else 0) : writeEnable v s = .ok s := by
  subst h
  cases he : s.en <;> simp [writeEnable, he, reservedClear, bitField]

theorem writeEnable_one {s : State} (h : s.en = false) :
    writeEnable 1 s =
      if s.cfgd = ⟨true, true, true⟩ then
        if s.sdaSel = s.sclSel then .error .configArg else .ok { s with en := true }
      else .error .unconfigured := by
  cases hc : s.cfgd.complete <;> simp [writeEnable, h, hc, reservedClear, bitField, ← cfgd_complete_iff]

theorem writeEnable_zero {s : State} (h : s.en = true) :
    writeEnable 0 s =
      if s.xfer = .wrMatched ∨ s.xfer = .rdMatched then .error .disableDuringTransfer
      else .ok { s with en := false, rxf := if s.cfg.rxFlushOnDisable then [] else s.rxf } := by
  cases hf : s.cfg.rxFlushOnDisable <;> simp [writeEnable, h, hf, reservedClear, bitField, flushRx, ← activity_iff]

/-- While the controller is disabled no transfer is active (R70). -/
theorem BusInvariant.xfer_of_disabled {s : State} (h : BusInvariant s) (he : s.en = false) :
    s.xfer = .idle ∨ s.xfer = .other := by
  have hact : ¬(s.xfer = .wrMatched ∨ s.xfer = .rdMatched) := fun ha =>
    absurd ((h.activeEnabled ((activity_iff s).mpr ha)).symm.trans he) nofun
  cases hx : s.xfer <;> simp_all

/-- Settles O15, one clause a case of the write, by the value written and the value there. -/
theorem enableRegisterFollowsItsChecks : Obligations.EnableRegisterFollowsItsChecks := by
  intro s v
  have faults {k : FaultKind} (h : writeEnable v s = .error k) : exec (.wr 0x00 v) s = .next (raiseFault k s) :=
    exec_wr_of_error (r := .icEnable) h
  have completes {t : State} (h : writeEnable v s = .ok t) : exec (.wr 0x00 v) s = .next (t.returning .done) :=
    exec_wr_of_ok (r := .icEnable) h
  refine ⟨?read, ?reserved, ?unconfigured, ?equalPins, ?enable, ?active, ?disable, ?sameOne, ?sameZero,
    BusInvariant.xfer_of_disabled⟩
  case read => exact zextBit_eq s.en ▸ exec_rd_of_ok (r := .icEnable) rfl
  case reserved => exact fun hv => faults (writeEnable_of_reserved hv s)
  case unconfigured =>
    rintro rfl he hc
    exact faults ((writeEnable_one he).trans (if_neg hc))
  case equalPins =>
    rintro rfl he hc hp
    exact faults (by rw [writeEnable_one he, if_pos hc, if_pos hp])
  case enable =>
    rintro rfl he hc hp
    exact completes (by rw [writeEnable_one he, if_pos hc, if_neg hp])
  case active =>
    rintro rfl he hx
    exact faults ((writeEnable_zero he).trans (if_pos hx))
  case disable =>
    rintro rfl he hwr hrd
    exact completes ((writeEnable_zero he).trans (if_neg (not_or.mpr ⟨hwr, hrd⟩)))
  case sameOne => exact fun hv he => completes (writeEnable_same (by rw [hv, he, if_pos rfl]))
  case sameZero => exact fun hv he => completes (writeEnable_same (by rw [hv, he, if_neg nofun]))

/-! The configuration registers IC_SADDR, IO_SDA_SEL and IO_SCL_SEL (R71, R75): their writes make the same checks. -/

/-- The write of a configuration register of `n` bits that would leave `t`, where `allowed` says that the register
takes the value: its checks in the order of R128. -/
def configWrite (n : Nat) (v : Word) (allowed : Prop) [Decidable allowed] (s t : State) : Except FaultKind State :=
  if !reservedClear n v then .error .reservedBits
  else if s.en then .error .writeWhileEnabled
  else if allowed then .ok t
  else .error .configArg

theorem writeSaddr_eq (v : Word) (s : State) :
    writeSaddr v s =
      configWrite 10 v True s { s with saddr := saddrField v, cfgd := { s.cfgd with saddr := true } } := by
  simp [writeSaddr, configWrite]

theorem writeSdaSel_eq (v : Word) (s : State) :
    writeSdaSel v s =
      configWrite 8 v (byteField v ∈ s.cfg.sdaPins) s
        { s with sdaSel := byteField v, cfgd := { s.cfgd with sda := true } } := by
  by_cases h : byteField v ∈ s.cfg.sdaPins <;> simp [writeSdaSel, configWrite, h]

theorem writeSclSel_eq (v : Word) (s : State) :
    writeSclSel v s =
      configWrite 8 v (byteField v ∈ s.cfg.sclPins) s
        { s with sclSel := byteField v, cfgd := { s.cfgd with scl := true } } := by
  by_cases h : byteField v ∈ s.cfg.sclPins <;> simp [writeSclSel, configWrite, h]

/-- What WR of a configuration register answers, check by check. -/
theorem exec_wr_config {r : Reg} {n : Nat} {v : Word} {allowed : Prop} [Decidable allowed] {s t : State}
    (hr : writeReg r v s = configWrite n v allowed s t) :
    (2 ^ n ≤ v.toNat → exec (.wr (offsetOf r) v) s = .next (raiseFault .reservedBits s)) ∧
    (v.toNat < 2 ^ n → s.en = true → exec (.wr (offsetOf r) v) s = .next (raiseFault .writeWhileEnabled s)) ∧
    (v.toNat < 2 ^ n → s.en = false → ¬allowed → exec (.wr (offsetOf r) v) s = .next (raiseFault .configArg s)) ∧
    (v.toNat < 2 ^ n → s.en = false → allowed → exec (.wr (offsetOf r) v) s = .next (t.returning .done)) := by
  refine ⟨fun hv => exec_wr_of_error ?_, fun hv he => exec_wr_of_error ?_, fun hv he ha => exec_wr_of_error ?_,
    fun hv he ha => exec_wr_of_ok ?_⟩ <;> rw [hr, configWrite]
  · simp [reservedClear_of_le hv]
  · simp [reservedClear_of_lt hv, he]
  · simp [reservedClear_of_lt hv, he, ha]
  · simp [reservedClear_of_lt hv, he, ha]

/-- A filter beyond seven bits is no bus address (R71, R116). -/
theorem ne_filterOf {a : BitVec 10} (h : 128 ≤ a.toNat) (addr : BitVec 7) : a ≠ filterOf addr := by
  rintro rfl
  have hlt : (filterOf addr).toNat < 128 := by
    simpa [filterOf] using Nat.lt_of_le_of_lt (Nat.mod_le _ _) addr.isLt
  omega

/-- Settles O16: the write is a configuration register's, which takes every value. -/
theorem saddrRegisterFollowsItsChecks : Obligations.SaddrRegisterFollowsItsChecks := by
  intro s v
  obtain ⟨hreserved, henabled, -, hwritten⟩ := exec_wr_config (r := .icSaddr) (writeSaddr_eq v s)
  refine ⟨exec_rd_of_ok (r := .icSaddr) rfl, hreserved, henabled, fun hv he => hwritten hv he trivial, ?_⟩
  intro h addr dir
  rw [exec, execBusStart, if_neg fun hmatch => ne_filterOf h addr hmatch.2]

/-- Settles O17: both writes are a configuration register's, which takes the allowed pins. -/
theorem pinRegistersFollowTheirChecks : Obligations.PinRegistersFollowTheirChecks := by
  intro s v
  obtain ⟨sdaReserved, sdaEnabled, sdaPin, sdaWritten⟩ := exec_wr_config (r := .ioSdaSel) (writeSdaSel_eq v s)
  obtain ⟨sclReserved, sclEnabled, sclPin, sclWritten⟩ := exec_wr_config (r := .ioSclSel) (writeSclSel_eq v s)
  exact ⟨exec_rd_of_ok (r := .ioSdaSel) rfl, exec_rd_of_ok (r := .ioSclSel) rfl,
    fun hv => ⟨sdaReserved hv, sclReserved hv⟩, fun hv he => ⟨sdaEnabled hv he, sclEnabled hv he⟩,
    sdaPin, sclPin, sdaWritten, sclWritten⟩

/-! IC_CLR_TX_ABRT (R74). -/

theorem writeClrTxAbrt_of_reserved {v : Word} (h : 2 ≤ v.toNat) (s : State) :
    writeClrTxAbrt v s = .error .reservedBits := by
  simp [writeClrTxAbrt, reservedClear_of_le (n := 1) h]

theorem writeClrTxAbrt_one (s : State) : writeClrTxAbrt 1 s = .ok { s with txAbrt := false } := by
  simp [writeClrTxAbrt, reservedClear, bitField]

theorem writeClrTxAbrt_zero (s : State) : writeClrTxAbrt 0 s = .ok s := by
  simp [writeClrTxAbrt, reservedClear, bitField]

/-- Settles O18, one clause a case of the write. -/
theorem clearAbortRegisterClearsTheFlag : Obligations.ClearAbortRegisterClearsTheFlag := by
  intro s v
  refine ⟨fun hv => exec_wr_of_error (r := .icClrTxAbrt) (writeClrTxAbrt_of_reserved hv s), ?_, ?_,
    exec_rd_of_error (r := .icClrTxAbrt) rfl⟩
  · rintro rfl
    exact exec_wr_of_ok (r := .icClrTxAbrt) (writeClrTxAbrt_one s)
  · rintro rfl
    exact exec_wr_of_ok (r := .icClrTxAbrt) (writeClrTxAbrt_zero s)

/-! SET, CLR and TGL (R78, R81 to R83). -/

theorem regModify_of_not_readWrite {r : Reg} (h : readWrite r = false) (f : Word → Word → Word) (m : Word)
    (s : State) : regModify f (offsetOf r) m s = .error .access := by
  simp [regModify, h]

/-- On a read-write register a modify is the write of the new value. -/
theorem regModify_eq_regWrite {r : Reg} {s : State} {old : Word} (h : readWrite r = true)
    (hr : readReg r s = .ok (old, s)) (f : Word → Word → Word) (m : Word) :
    regModify f (offsetOf r) m s = regWrite (offsetOf r) (f old m) s := by
  simp [regModify, regWrite, h, hr]

theorem exec_modify_of_not_readWrite {r : Reg} (h : readWrite r = false) (m : Word) (s : State) :
    exec (.setBits (offsetOf r) m) s = .next (raiseFault .access s) ∧
      exec (.clrBits (offsetOf r) m) s = .next (raiseFault .access s) ∧
      exec (.tglBits (offsetOf r) m) s = .next (raiseFault .access s) :=
  ⟨complete_of_error (regModify_of_not_readWrite h setMask m s),
    complete_of_error (regModify_of_not_readWrite h clearMask m s),
    complete_of_error (regModify_of_not_readWrite h toggleMask m s)⟩

theorem exec_modify_eq_wr {r : Reg} {s : State} {old : Word} (h : readWrite r = true)
    (hr : readReg r s = .ok (old, s)) (m : Word) :
    exec (.setBits (offsetOf r) m) s = exec (.wr (offsetOf r) (old ||| m)) s ∧
      exec (.clrBits (offsetOf r) m) s = exec (.wr (offsetOf r) (old &&& ~~~m)) s ∧
      exec (.tglBits (offsetOf r) m) s = exec (.wr (offsetOf r) (old ^^^ m)) s :=
  ⟨congrArg (complete s) (regModify_eq_regWrite h hr setMask m),
    congrArg (complete s) (regModify_eq_regWrite h hr clearMask m),
    congrArg (complete s) (regModify_eq_regWrite h hr toggleMask m)⟩

/-- Settles O19: the unmapped offsets are O14's, and the mapped ones go by whether the register is read-write. -/
theorem readModifyWriteIsWriteOfNewValue : Obligations.ReadModifyWriteIsWriteOfNewValue := by
  intro s off m
  refine ⟨fun hoff => ?_, ?_, fun hoff => ?_⟩
  · obtain ⟨-, -, hmodify⟩ := (unmappedOffsetRaisesBadOffset s off m).1 hoff
    exact hmodify
  · rintro (rfl | rfl | rfl)
    · exact exec_modify_of_not_readWrite (r := .icStatus) rfl m s
    · exact exec_modify_of_not_readWrite (r := .icDataCmd) rfl m s
    · exact exec_modify_of_not_readWrite (r := .icClrTxAbrt) rfl m s
  · obtain ⟨r, hr, rfl⟩ : ∃ r, readWrite r = true ∧ off = offsetOf r := by
      obtain rfl | rfl | rfl | rfl := hoff
      exacts [⟨.icEnable, rfl, rfl⟩, ⟨.icSaddr, rfl, rfl⟩, ⟨.ioSdaSel, rfl, rfl⟩, ⟨.ioSclSel, rfl, rfl⟩]
    obtain ⟨old, hold⟩ := readReg_readWrite hr s
    exact ⟨old, exec_rd_of_ok hold, exec_modify_eq_wr hr hold m⟩

/-! The new value of the filter (R71, R81 to R83). -/

@[simp] theorem saddrField_zextSaddr (a : BitVec 10) : saddrField (zextSaddr a) = a := by
  rw [saddrField, zextSaddr, BitVec.zeroExtend, BitVec.extractLsb'_setWidth_of_le (by omega),
    BitVec.extractLsb'_eq_self]

theorem saddrField_or (a : BitVec 10) (m : Word) : saddrField (zextSaddr a ||| m) = a ||| saddrField m := by
  rw [saddrField, BitVec.extractLsb'_or, ← saddrField, saddrField_zextSaddr, saddrField]

theorem saddrField_xor (a : BitVec 10) (m : Word) : saddrField (zextSaddr a ^^^ m) = a ^^^ saddrField m := by
  rw [saddrField, BitVec.extractLsb'_xor, ← saddrField, saddrField_zextSaddr, saddrField]

theorem saddrField_andNot (a : BitVec 10) (m : Word) : saddrField (zextSaddr a &&& ~~~m) = a &&& ~~~saddrField m := by
  rw [saddrField, BitVec.extractLsb'_and, BitVec.extractLsb'_not_of_lt (by omega), ← saddrField,
    saddrField_zextSaddr, saddrField]

theorem zextSaddr_lt (a : BitVec 10) : (zextSaddr a).toNat < 2 ^ 10 := by
  simpa [zextSaddr] using Nat.lt_of_le_of_lt (Nat.mod_le _ _) a.isLt

/-- The filter OR a mask fits the field exactly where the mask does. -/
theorem zextSaddr_or_lt_iff (a : BitVec 10) (m : Word) : (zextSaddr a ||| m).toNat < 2 ^ 10 ↔ m.toNat < 2 ^ 10 := by
  rw [BitVec.toNat_or]
  exact ⟨Nat.lt_of_le_of_lt Nat.right_le_or, Nat.or_lt_two_pow (zextSaddr_lt a)⟩

/-- The filter XOR a mask fits the field exactly where the mask does: XOR with the filter undoes itself. -/
theorem zextSaddr_xor_lt_iff (a : BitVec 10) (m : Word) : (zextSaddr a ^^^ m).toNat < 2 ^ 10 ↔ m.toNat < 2 ^ 10 := by
  rw [BitVec.toNat_xor]
  refine ⟨fun h => ?_, Nat.xor_lt_two_pow (zextSaddr_lt a)⟩
  have hback := Nat.xor_lt_two_pow (zextSaddr_lt a) h
  rwa [Nat.xor_xor_cancel_left] at hback

/-- The filter AND NOT any mask fits the field. -/
theorem zextSaddr_andNot_lt (a : BitVec 10) (m : Word) : (zextSaddr a &&& ~~~m).toNat < 2 ^ 10 := by
  rw [BitVec.toNat_and]
  exact Nat.lt_of_le_of_lt Nat.and_le_left (zextSaddr_lt a)

/-- Settles O20: each is the write of its new value, which is beyond the field exactly where SET's or TGL's mask is. -/
theorem readModifyWriteOfSaddrCompletes : Obligations.ReadModifyWriteOfSaddrCompletes := by
  intro s m he
  obtain ⟨hset, hclr, htgl⟩ := exec_modify_eq_wr (r := .icSaddr) (s := s) rfl rfl m
  have faults {v : Word} (hv : ¬v.toNat < 2 ^ 10) : exec (.wr 0x04 v) s = .next (raiseFault .reservedBits s) := by
    obtain ⟨-, hreserved, -⟩ := saddrRegisterFollowsItsChecks s v
    exact hreserved (Nat.not_lt.mp hv)
  have completes {v : Word} (hv : v.toNat < 2 ^ 10) :
      exec (.wr 0x04 v) s =
        .next { s with saddr := saddrField v, cfgd := { s.cfgd with saddr := true }, ret := .done } := by
    obtain ⟨-, -, -, hwritten, -⟩ := saddrRegisterFollowsItsChecks s v
    exact hwritten hv he
  refine ⟨fun hm => ⟨?_, ?_⟩, fun hm => ⟨?_, ?_⟩, ?_⟩
  · exact hset.trans (saddrField_or s.saddr m ▸ completes ((zextSaddr_or_lt_iff s.saddr m).mpr hm))
  · exact htgl.trans (saddrField_xor s.saddr m ▸ completes ((zextSaddr_xor_lt_iff s.saddr m).mpr hm))
  · exact hset.trans (faults (mt (zextSaddr_or_lt_iff s.saddr m).mp (Nat.not_lt.mpr hm)))
  · exact htgl.trans (faults (mt (zextSaddr_xor_lt_iff s.saddr m).mp (Nat.not_lt.mpr hm)))
  · exact hclr.trans (saddrField_andNot s.saddr m ▸ completes (zextSaddr_andNot_lt s.saddr m))

end Sys2Proof.Machine
end

section
/-! PROOFS. CONFIGURE (spec 41_i2c_driver.md R84): its checks in their order, each later sub-step's whole effect from
the states a CONFIGURE in progress is in, and the six steps in a row. -/

namespace Sys2Proof.Machine

/-! The first sub-step. -/

theorem execConfigure_of_badAddress {addr : Byte} (h : 0x80 ≤ addr.toNat) (sda scl : Byte) (s : State) :
    execConfigure addr sda scl s = .next (raiseFault .badOperand s) := by
  rw [execConfigure, if_pos (Nat.lt_of_succ_le h)]

theorem execConfigure_of_badPins {addr sda scl : Byte} {s : State} (ha : addr.toNat < 0x80)
    (h : sda = scl ∨ sda ∉ s.cfg.sdaPins ∨ scl ∉ s.cfg.sclPins) :
    execConfigure addr sda scl s = .next (raiseFault .configArg s) := by
  rw [execConfigure, if_neg (by omega)]
  by_cases heq : sda = scl
  · rw [if_pos heq]
  · have hpin := h.resolve_left heq
    rw [if_neg heq, if_pos (by simpa using hpin)]

/-- The arguments of a CONFIGURE that raises neither BAD_OPERAND nor CONFIG_ARG (R84). -/
structure LegalArguments (c : Config) (addr sda scl : Byte) : Prop where
  address : addr.toNat < 0x80
  distinct : sda ≠ scl
  sdaPin : sda ∈ c.sdaPins
  sclPin : scl ∈ c.sclPins

/-- With legal arguments the transfer decides (R84). -/
theorem LegalArguments.execConfigure_eq {addr sda scl : Byte} {s : State}
    (h : LegalArguments s.cfg addr sda scl) :
    execConfigure addr sda scl s =
      if activity s then .next (raiseFault .configDuringTransfer s)
      else continueWith s (.configure .clearSaddr addr sda scl) (regModify clearMask (offsetOf .icEnable) 0x1 s) := by
  have hpins : ¬(!s.cfg.sdaPins.contains sda || !s.cfg.sclPins.contains scl) = true := by
    simp [h.sdaPin, h.sclPin]
  rw [execConfigure, if_neg (Nat.not_lt.mpr (Nat.le_of_lt_succ h.address)), if_neg h.distinct, if_neg hpins]

/-- Settles O21, one lemma a check: the transfer is looked at only with legal arguments. -/
theorem configureChecksItsArguments : Obligations.ConfigureChecksItsArguments := by
  intro s addr sda scl
  refine ⟨fun ha => execConfigure_of_badAddress ha sda scl s, fun ha => execConfigure_of_badPins ha, ?_⟩
  intro ha hne hsda hscl hx
  have hargs : LegalArguments s.cfg addr sda scl := ⟨ha, hne, hsda, hscl⟩
  rw [exec, hargs.execConfigure_eq, if_pos ((activity_iff s).mpr hx)]

theorem activity_eq_false {s : State} (hwr : s.xfer ≠ .wrMatched) (hrd : s.xfer ≠ .rdMatched) :
    activity s = false := by
  rw [← Bool.not_eq_true, activity_iff]
  exact not_or.mpr ⟨hwr, hrd⟩

/-- The state CONFIGURE's first sub-step leaves (R70, R84). -/
def configureBegun (addr sda scl : Byte) (s : State) : State :=
  { s with
    en := false
    rxf := if s.en = true ∧ s.cfg.rxFlushOnDisable = true then [] else s.rxf
    prog := .configure .clearSaddr addr sda scl }

theorem LegalArguments.exec_configure {addr sda scl : Byte} (s : State) (h : LegalArguments s.cfg addr sda scl)
    (ha : activity s = false) : exec (.configure addr sda scl) s = .next (configureBegun addr sda scl s) := by
  rw [exec, h.execConfigure_eq, if_neg (by simp [ha]), clear_enable ha, continueWith]
  rfl

/-! The later sub-steps, each the register operation of R84 completing. -/

section
variable {s : State} (addr sda scl : Byte) (he : s.en = false)
include he

theorem configureStep_clearSaddr :
    configureStep .clearSaddr addr sda scl s =
      .next { s with
        saddr := 0, cfgd := { s.cfgd with saddr := true }, prog := .configure .setSaddr addr sda scl } := by
  rw [configureStep, clear_saddr he, continueWith]

theorem configureStep_setSaddr (hzero : s.saddr = 0) :
    configureStep .setSaddr addr sda scl s =
      .next { s with
        saddr := addr.zeroExtend 10, cfgd := { s.cfgd with saddr := true }
        prog := .configure .writeSda addr sda scl } := by
  rw [configureStep, set_saddr he hzero, continueWith]

theorem configureStep_writeSda (hsda : sda ∈ s.cfg.sdaPins) :
    configureStep .writeSda addr sda scl s =
      .next { s with
        sdaSel := sda, cfgd := { s.cfgd with sda := true }, prog := .configure .writeScl addr sda scl } := by
  rw [configureStep, write_sda he hsda, continueWith]

theorem configureStep_writeScl (hscl : scl ∈ s.cfg.sclPins) :
    configureStep .writeScl addr sda scl s =
      .next { s with
        sclSel := scl, cfgd := { s.cfgd with scl := true }, prog := .configure .enable addr sda scl } := by
  rw [configureStep, write_scl he hscl, continueWith]

theorem configureStep_enable (hc : s.cfgd.complete = true) (hne : s.sdaSel ≠ s.sclSel) :
    configureStep .enable addr sda scl s = .next { s with en := true, prog := .idle, ret := .done } := by
  rw [configureStep, set_enable he hc hne, endConfigure]
  rfl

end

/-! No Fault. -/

/-- A CONFIGURE in progress is where its next sub-step completes (R84). -/
theorem configureStep_keeps_fault {s t : State} {next : ConfigureStep} {addr sda scl : Byte} (hs : configureHolds s)
    (hp : s.prog = .configure next addr sda scl) (h : configureStep next addr sda scl s = .next t) :
    t.fault = s.fault := by
  unfold configureHolds at hs
  rw [hp] at hs
  obtain ⟨he, -, hne, hsda, hscl, hdone⟩ := hs
  cases next with
  | clearSaddr =>
    rw [configureStep_clearSaddr addr sda scl he] at h
    injection h with h
    rw [← h]
  | setSaddr =>
    obtain ⟨hzero, -⟩ := hdone
    rw [configureStep_setSaddr addr sda scl he hzero] at h
    injection h with h
    rw [← h]
  | writeSda =>
    rw [configureStep_writeSda addr sda scl he hsda] at h
    injection h with h
    rw [← h]
  | writeScl =>
    rw [configureStep_writeScl addr sda scl he hscl] at h
    injection h with h
    rw [← h]
  | enable =>
    obtain ⟨-, hc, rfl, rfl⟩ := hdone
    rw [configureStep_enable addr _ _ he hc hne] at h
    injection h with h
    rw [← h]

/-- Settles O60: the step is the HOST's next sub-step or a bus event, which raises no Fault. -/
theorem configureSubStepsNeverFault : Obligations.ConfigureSubStepsNeverFault := by
  intro s t next addr sda scl hs hp h
  obtain ⟨-, hf, ⟨-, h⟩ | ⟨e, -, -, h⟩⟩ := step_cases h
  · have hstep : hostStep (useTurn s) = configureStep next addr sda scl (useTurn s) := by simp [hostStep, hp]
    rw [hstep] at h
    exact (configureStep_keeps_fault (s := useTurn s) hs.configuring hp h).trans hf
  · rw [busEvent_frame h]
    exact hf

/-! Six undisturbed steps. -/

/-- With no turn named, a CONFIGURE in progress goes on (R84). -/
theorem step_configuring {s : State} {next : ConfigureStep} {addr sda scl : Byte} (hc : s.cfg.wf = true)
    (hf : s.fault = none) (hu : Undisturbed s) (hp : s.prog = .configure next addr sda scl) :
    step s = configureStep next addr sda scl s := by
  rw [step_busy hc hf (by simp [hp]) hu]
  simp only [hostStep, hp]

/-- The five sub-steps after the first, in a row (R84). -/
theorem LegalArguments.configure_run {addr sda scl : Byte} (s : State) (h : LegalArguments s.cfg addr sda scl)
    (hc : s.cfg.wf = true) (hf : s.fault = none) (hu : Undisturbed s) (he : s.en = false)
    (hp : s.prog = .configure .clearSaddr addr sda scl) :
    runSteps 5 s =
      .next { s with
        en := true, saddr := addr.zeroExtend 10, sdaSel := sda, sclSel := scl, cfgd := ⟨true, true, true⟩
        prog := .idle, ret := .done } := by
  have steps {t u : State} {next : ConfigureStep} (n : Nat) (hc : t.cfg.wf = true) (hf : t.fault = none)
      (hu : Undisturbed t) (hp : t.prog = .configure next addr sda scl)
      (hstep : configureStep next addr sda scl t = .next u) : runSteps (n + 1) t = runSteps n u :=
    runSteps_succ ((step_configuring hc hf hu hp).trans hstep) n
  refine Eq.trans (steps 4 hc hf hu hp (configureStep_clearSaddr addr sda scl he)) ?_
  refine Eq.trans (steps 3 hc hf hu rfl (configureStep_setSaddr addr sda scl he rfl)) ?_
  refine Eq.trans (steps 2 hc hf hu rfl (configureStep_writeSda addr sda scl he h.sdaPin)) ?_
  refine Eq.trans (steps 1 hc hf hu rfl (configureStep_writeScl addr sda scl he h.sclPin)) ?_
  exact steps 0 hc hf hu rfl (configureStep_enable addr sda scl he rfl h.distinct)

theorem decode_configure {addr : Byte} (h : addr.toNat < 0x80) (sda scl : Byte) (rest : List Byte) :
    decode .op (encode (.configure addr sda scl) ++ rest) = .ok (.configure addr sda scl) rest :=
  decodeOp_encode (i := .configure addr sda scl) rfl (decide_eq_true (Nat.le_of_lt_succ h)) rest

/-- The state a CONFIGURE leaves, issued with legal arguments and no active transfer (R84). -/
def configured (addr sda scl : Byte) (port : List PortWord) (s : State) : State :=
  { s with
    en := true
    saddr := addr.zeroExtend 10
    sdaSel := sda
    sclSel := scl
    cfgd := ⟨true, true, true⟩
    rxf := if s.en = true ∧ s.cfg.rxFlushOnDisable = true then [] else s.rxf
    ret := .done
    port := port }

/-- An issued CONFIGURE completes in six undisturbed steps (R84). -/
theorem Issues.run_configured {s : State} {addr sda scl : Byte} {rest : List Byte} {ws : List PortWord}
    (hi : Issues s ⟨.op, encode (.configure addr sda scl) ++ rest⟩ ws) (hu : Undisturbed s)
    (h : LegalArguments s.cfg addr sda scl) (ha : activity s = false) :
    runSteps 6 s = .next (configured addr sda scl (remaining rest ws) s) := by
  have hfirst : step s = .next (configureBegun addr sda scl { s with port := remaining rest ws }) :=
    Eq.trans (step_issue hu hi (decode_configure h.address sda scl rest) rfl) (LegalArguments.exec_configure _ h ha)
  refine (runSteps_succ hfirst 5).trans
    (Eq.trans (LegalArguments.configure_run _ h hi.cfgWf hi.noFault hu rfl rfl) ?_)
  rw [configured, ← hi.idle]
  rfl

/-- Settles O22: the first sub-step, and all six. -/
theorem configureEnablesTheController : Obligations.ConfigureEnablesTheController := by
  intro s addr sda scl rest ws haddr hne hsda hscl hwr hrd
  have hargs : LegalArguments s.cfg addr sda scl := ⟨haddr, hne, hsda, hscl⟩
  have hact := activity_eq_false hwr hrd
  exact ⟨⟨_, hargs.exec_configure s hact, rfl⟩, fun hi hu => hi.run_configured hu hargs hact⟩

/-- With no turn named and nothing in progress, the word at the front of the port is issued next (R18). -/
theorem issues_of_undisturbed {s : State} {w : PortWord} {ws : List PortWord} (hc : s.cfg.wf = true)
    (hf : s.fault = none) (hp : s.prog = .idle) (hu : Undisturbed s) (hw : s.port = w :: ws) (hne : w.bytes ≠ []) :
    Issues s w ws := by
  have hcan : hostCan s = true := by simp [hostCan, hw, issued, hne]
  refine ⟨hc, hf, hp, ?_, hw⟩
  simp [nextAgent, turnNow, hu.1, hu.2, hcan]

/-- Settles O23: the state the first CONFIGURE leaves issues the second, and what it writes does not depend on the
registers it finds. -/
theorem configureIsIdempotent : Obligations.ConfigureIsIdempotent := by
  intro s addr sda scl rest ws haddr hne hsda hscl hwr hrd hi hu
  have hargs : LegalArguments s.cfg addr sda scl := ⟨haddr, hne, hsda, hscl⟩
  have hact := activity_eq_false hwr hrd
  have hfirst := hi.run_configured hu hargs hact
  have hi' : Issues (configured addr sda scl (⟨.op, encode (.configure addr sda scl) ++ rest⟩ :: ws) s)
      ⟨.op, encode (.configure addr sda scl) ++ rest⟩ ws :=
    issues_of_undisturbed hi.cfgWf hi.noFault hi.idle hu rfl nofun
  have hsecond := hi'.run_configured hu hargs hact
  exact ⟨_, _, hfirst, hi.noFault, hi.idle, (runSteps_add hfirst 6).trans hsecond, hi.noFault, hi.idle,
    rfl, rfl, rfl, rfl, rfl, rfl, rfl⟩

end Sys2Proof.Machine
end

section
/-! PROOFS. HAS_DATA, ACK_ABORT and the pair extraction (spec 41_i2c_driver.md R85, R87, R88). -/

namespace Sys2Proof.Machine

/-! HAS_DATA. -/

theorem rfne_eq (s : State) : rfne s = decide (s.rxf ≠ []) := by
  unfold rfne
  cases s.rxf <;> rfl

/-- A bus event takes no byte out of the FIFO: what it stores comes behind those waiting (R22, R85, R117). -/
theorem busEvent_rxf_prefix {e : BusEvent} {s t : State} (h : exec e.toInstr s = .next t) : s.rxf <+: t.rxf := by
  have hbyte (lost : Bool) (b : Byte) (n : Nat) : s.rxf <+: (takeByte lost b { s with draws := n }).rxf := by
    unfold takeByte receiveByte
    split
    · exact List.prefix_rfl
    split
    · exact List.prefix_append s.rxf [b]
    split
    · exact List.prefix_rfl
    · exact List.prefix_rfl
  cases e <;> simp only [BusEvent.toInstr, exec] at h
  case start addr dir =>
    unfold execBusStart at h
    split at h <;> (injection h with h; rw [← h])
  case stop => injection h with h; rw [← h]
  case txAbort => injection h with h; rw [← h]
  case byte b =>
    unfold execBusByte at h
    repeat' split at h
    all_goals (injection h with h; rw [← h])
    · exact hbyte _ b _
    · exact hbyte false b s.draws

/-- Settles O24: the status word's bit 0 is RFNE, and a bus event keeps what is waiting. -/
theorem hasDataTestsTheFifo : Obligations.HasDataTestsTheFifo := by
  refine ⟨rfl, fun s => ⟨?_, fun e t hne h ht => hne ?_⟩⟩
  · rw [exec, execHasData, bitField_statusWord, rfne_eq, State.returning]
  · exact List.prefix_nil.mp (ht ▸ busEvent_rxf_prefix h)

/-! ACK_ABORT. -/

theorem exec_ackAbort (s : State) : exec .ackAbort s = .next { s with txAbrt := false, ret := .done } := by
  rw [exec, execAckAbort, ackAbort_ok, complete, State.returning]

/-- Settles O29: the flag is cleared by the register write, and set by the bus event whatever it was. -/
theorem ackAbortClearsTheFlag : Obligations.AckAbortClearsTheFlag := by
  refine ⟨rfl, fun s => ⟨exec_ackAbort s, fun t u _ h => ?_⟩⟩
  injection h with h
  rw [← h]

/-! The pair extraction. -/

theorem pairCommands_pair (p : PairPolicy) (index raw : Byte) : pairCommands p [index, raw] = [⟨index, raw⟩] := by
  cases p <;> rfl

theorem pairCommands_exact2_of_length {seq : List Byte} (h : seq.length ≠ 2) : pairCommands .exact2 seq = [] := by
  match seq with
  | [] => rfl
  | [_] => rfl
  | [_, _] => exact absurd rfl h
  | _ :: _ :: _ :: _ => rfl

theorem pairCommands_first2_of_length {seq : List Byte} (h : seq.length < 2) : pairCommands .first2 seq = [] := by
  match seq with
  | [] => rfl
  | [_] => rfl
  | _ :: _ :: _ => exact absurd h (by simp)

theorem length_pairUp : ∀ seq : List Byte, (pairUp seq).length = seq.length / 2
  | [] => rfl
  | [_] => by simp [pairUp]
  | index :: raw :: rest => by
    simp only [pairUp, List.length_cons, length_pairUp rest]
    omega

/-- The k-th command of PAIRS is of the bytes 2k and 2k + 1 (R88). -/
theorem getElem?_pairUp : ∀ (seq : List Byte) (k : Nat), k < seq.length / 2 →
    (pairUp seq)[k]? = some ⟨seq.getD (2 * k) 0, seq.getD (2 * k + 1) 0⟩
  | [], _, h => absurd h (by simp)
  | [_], _, h => absurd h (by simp)
  | _ :: _ :: _, 0, _ => rfl
  | index :: raw :: rest, k + 1, h => by
    simp only [List.length_cons] at h
    exact getElem?_pairUp rest k (by omega)

/-- Settles O30, one lemma a policy. -/
theorem pairExtractionFollowsThePolicy : Obligations.PairExtractionFollowsThePolicy := by
  refine fun seq => ⟨pairCommands_pair, pairCommands_exact2_of_length, pairCommands_first2_of_length, ?_,
    length_pairUp seq, getElem?_pairUp seq⟩
  rintro index raw tl rfl
  rfl

/-- Settles O31: two bytes are one command under every policy. -/
theorem i2cPairYieldsItsCommand : Obligations.I2cPairYieldsItsCommand := by
  intro index value s
  rw [exec, execI2cPair, pairCommands_pair, State.returning]

end Sys2Proof.Machine
end

section
/-! PROOFS. DRAIN (spec 41_i2c_driver.md R86): all that is waiting, and what the MASTER stores meanwhile. -/

namespace Sys2Proof.Machine

theorem drainStep_nil {s : State} (h : s.rxf = []) (r : List Byte) :
    drainStep r s = .next { s with prog := .idle, ret := .bytes r } := by
  rw [drainStep, drainRead_nil h]
  rfl

theorem drainStep_cons {s : State} {b : Byte} {q : List Byte} (h : s.rxf = b :: q) (r : List Byte) :
    drainStep r s = .next { s with rxf := q, draws := s.draws + 1, prog := .drain (r ++ [b]) } := by
  rw [drainStep, drainRead_cons h]

/-- DRAIN's first step is that of a DRAIN in progress that has read nothing: an iteration replaces the loop state. -/
theorem exec_drain_eq_hostStep (s : State) : exec .drain s = hostStep { s with prog := .drain [] } := by
  obtain ⟨hq, -⟩ | ⟨b, q, hq, -⟩ := drainRead_cases s
  · exact (drainStep_nil hq []).trans (drainStep_nil (s := { s with prog := .drain [] }) hq []).symm
  · exact (drainStep_cons hq []).trans (drainStep_cons (s := { s with prog := .drain [] }) hq []).symm

/-- A run goes by its first step. -/
theorem runSteps_congr {s t : State} (h : step s = step t) (n : Nat) : runSteps (n + 1) s = runSteps (n + 1) t := by
  simp only [runSteps, h]

/-- Settles O25: issuing a DRAIN is a step of one in progress that has read nothing, which returns what is waiting. -/
theorem drainReturnsEveryByte : Obligations.DrainReturnsEveryByte := by
  intro s rest ws
  refine ⟨fun hq => drainStep_nil hq [], fun b q hq => drainStep_cons hq [], fun hi hu => ?_⟩
  have hfirst : step s = step { s with port := remaining rest ws, prog := .drain [] } := by
    rw [step_issue hu hi (decodeOp_encode (i := .drain) rfl rfl rest) rfl, exec_drain_eq_hostStep]
    exact Eq.symm (step_busy hi.cfgWf hi.noFault nofun hu)
  refine (runSteps_congr hfirst _).trans (Eq.trans (drain_run s.rxf _ [] hi.cfgWf hi.noFault rfl hu rfl) ?_)
  rw [← hi.idle]
  rfl

/-! A byte with room for it. -/

theorem rxFull_of_room {s : State} (h : s.rxf.length < s.cfg.rxFifoDepth) : rxFull s = false :=
  decide_eq_false (Nat.not_le.mpr h)

theorem busEnabled_byte_of_room {s : State} (h : s.rxf.length < s.cfg.rxFifoDepth) (b : Byte) :
    busEnabled (.byte b) s = true := by
  simp [busEnabled, masterHeld, rxFull_of_room h]

/-- In a write to this block, with no abort and room, a byte is stored (R117). -/
theorem exec_busByte_of_room {s : State} (hx : s.xfer = .wrMatched) (ha : s.txAbrt = false)
    (h : s.rxf.length < s.cfg.rxFifoDepth) (b : Byte) : exec (.busByte b) s = .next (pushRx b s) := by
  simp [exec, execBusByte, hx, ha, takeByte, receiveByte, rxFull_of_room h]

/-- On the MASTER's turn its next byte is stored (R117, R121). -/
theorem step_stores_byte {s : State} {b : Byte} {es : List BusEvent} {ts : List Agent} (hc : s.cfg.wf = true)
    (hf : s.fault = none) (hx : s.xfer = .wrMatched) (ha : s.txAbrt = false)
    (hroom : s.rxf.length < s.cfg.rxFifoDepth) (hm : s.master = .byte b :: es) (ht : s.turns = .master :: ts) :
    step s = .next (pushRx b { s with master := es, turns := ts }) :=
  (masterStepsBetweenHostSteps s (.byte b) es ts hc hf ht hm (busEnabled_byte_of_room hroom b)).trans
    (exec_busByte_of_room (s := { s with master := es, turns := ts }) hx ha hroom b)

/-- Settles O27: the MASTER's turn stores the byte behind those waiting, and the DRAIN then returns them all. -/
theorem drainIncludesBytesStoredMeanwhile : Obligations.DrainIncludesBytesStoredMeanwhile := by
  intro s result b es hc hf hp hx ha hroom hm ht hta
  have hstore := step_stores_byte hc hf hx ha hroom hm ht
  have hdrain := drain_run (s.rxf ++ [b]) (pushRx b { s with master := es, turns := [] }) result hc hf hp ⟨rfl, hta⟩ rfl
  rw [List.length_append, List.length_singleton] at hdrain
  exact ⟨_, (runSteps_succ hstore _).trans hdrain, congrArg Returned.bytes (List.append_assoc _ _ _).symm, rfl, rfl,
    rfl, hf⟩

end Sys2Proof.Machine
end

section
/-! PROOFS. When DRAIN ends (spec 41_i2c_driver.md R86; 70_reset_and_hazards.md R150; 45_bus_events.md R121): against a
MASTER with finitely many steps left every step uses up some of a bound, and against one that stores a byte after every
iteration there is always another iteration. -/

namespace Sys2Proof.Machine

/-! A MASTER with finitely many steps left. -/

/-- How many HOST steps an operation that drains still needs, with `n` bytes waiting and no MASTER step between. -/
def hostStepsLeft (n : Nat) : Progress → Nat
  | .drain _ => n + 1
  | .i2cDrain _ _ => n + 2
  | .i2cFinish _ _ => 1
  | .idle => 0
  | .configure _ _ _ _ => 0

/-- The bound on the steps of an operation that drains: a MASTER step is one step, and the byte it may store is
another. -/
def stepsLeft (s : State) : Nat :=
  2 * s.master.length + hostStepsLeft s.rxf.length s.prog

/-- One more byte waiting is at most one more HOST step. -/
theorem hostStepsLeft_le {m n : Nat} (h : m ≤ n + 1) (p : Progress) : hostStepsLeft m p ≤ hostStepsLeft n p + 1 := by
  cases p <;> simp only [hostStepsLeft] <;> omega

/-- Whether the HOST has steps left does not depend on the bytes waiting. -/
theorem hostStepsLeft_pos {m : Nat} {p : Progress} (h : 0 < hostStepsLeft m p) (n : Nat) : 0 < hostStepsLeft n p := by
  cases p with
  | drain => exact Nat.succ_pos n
  | i2cDrain => exact Nat.succ_pos (n + 1)
  | i2cFinish => exact Nat.one_pos
  | idle | configure => exact h

/-- A DRAIN or an I2C_STEP in progress, of a machine that can go on, against a MASTER with its listed steps alone
left. -/
structure FiniteDrain (s : State) : Prop where
  cfgWf : s.cfg.wf = true
  noFault : s.fault = none
  draining : 0 < hostStepsLeft s.rxf.length s.prog
  finite : s.masterAfter = .none

/-- What every step of such an operation does: it ends it, or leaves less to do. -/
def EndsOrShrinks (s t : State) : Prop :=
  t.fault = none ∧ (t.prog = .idle ∨ FiniteDrain t ∧ stepsLeft t < stepsLeft s)

/-! The HOST's step. -/

theorem i2cDrainStep_nil {s : State} (h : s.rxf = []) (f : Bool) (r : List Byte) :
    i2cDrainStep f r s = .next { s with prog := .i2cFinish f r } := by
  rw [i2cDrainStep, drainRead_nil h]

theorem i2cDrainStep_cons {s : State} {b : Byte} {q : List Byte} (h : s.rxf = b :: q) (f : Bool) (r : List Byte) :
    i2cDrainStep f r s = .next { s with rxf := q, draws := s.draws + 1, prog := .i2cDrain f (r ++ [b]) } := by
  rw [i2cDrainStep, drainRead_cons h]

theorem FiniteDrain.hostStep_endsOrShrinks {s : State} (h : FiniteDrain s) :
    ∃ t, hostStep s = .next t ∧ EndsOrShrinks s t := by
  obtain ⟨hc, hf, hd, hm⟩ := h
  unfold hostStep
  split
  case h_1 hp => simp [hp, hostStepsLeft] at hd
  case h_2 hp => simp [hp, hostStepsLeft] at hd
  case h_3 r hp =>
    obtain ⟨hq, -⟩ | ⟨b, q, hq, -⟩ := drainRead_cases s
    · exact ⟨_, drainStep_nil hq r, hf, .inl rfl⟩
    · refine ⟨_, drainStep_cons hq r, hf, .inr ⟨⟨hc, hf, Nat.succ_pos _, hm⟩, ?_⟩⟩
      simp [stepsLeft, hp, hq, hostStepsLeft]
  case h_4 f r hp =>
    obtain ⟨hq, -⟩ | ⟨b, q, hq, -⟩ := drainRead_cases s
    · refine ⟨_, i2cDrainStep_nil hq f r, hf, .inr ⟨⟨hc, hf, Nat.succ_pos _, hm⟩, ?_⟩⟩
      simp [stepsLeft, hp, hq, hostStepsLeft]
    · refine ⟨_, i2cDrainStep_cons hq f r, hf, .inr ⟨⟨hc, hf, Nat.succ_pos _, hm⟩, ?_⟩⟩
      simp [stepsLeft, hp, hq, hostStepsLeft]
  case h_5 f r hp =>
    obtain ⟨c, out, hist, hd⟩ := takeDrained_frame f r s
    refine ⟨_, rfl, ?_, .inl rfl⟩
    rw [hd]
    exact hf

/-! The MASTER's step. -/

/-- With nothing after the listed events, the next one is the first of them (R121). -/
theorem master_eq_cons_of_eventNow {s : State} {e : BusEvent} (h : eventNow s = some e) (hm : s.masterAfter = .none) :
    ∃ es, s.master = e :: es := by
  rw [eventNow, hm] at h
  cases hes : s.master with
  | nil => simp [hes] at h
  | cons e' es =>
    rw [hes] at h
    injection h with h
    exact ⟨es, h ▸ rfl⟩

/-- An enabled event uses up one of the MASTER's steps, and stores at most one byte. -/
theorem FiniteDrain.masterEvent_endsOrShrinks {s t : State} {e : BusEvent} (h : FiniteDrain s)
    (hnow : eventNow s = some e) (he : busEnabled e s = true) (ht : exec e.toInstr (useEvent s) = .next t) :
    EndsOrShrinks s t := by
  obtain ⟨hc, hf, hd, hm⟩ := h
  obtain ⟨es, hes⟩ := master_eq_cons_of_eventNow hnow hm
  rw [useEvent_of_cons hes] at ht
  obtain ⟨hcfg, hfault, hprog, hmaster, hafter, hlen⟩ := busEvent_enabled_frame (s := { s with master := es }) he ht
  refine ⟨hfault.trans hf, .inr ⟨⟨hcfg ▸ hc, hfault.trans hf, ?_, hafter.trans hm⟩, ?_⟩⟩
  · rw [hprog]
    exact hostStepsLeft_pos hd _
  · have hleft : hostStepsLeft t.rxf.length s.prog ≤ hostStepsLeft s.rxf.length s.prog + 1 :=
      hostStepsLeft_le hlen s.prog
    simp only [stepsLeft, hprog, hmaster, hes, List.length_cons]
    omega

/-! Every step. -/

theorem step_eq_agentStep {s : State} {a : Agent} (hc : s.cfg.wf = true) (hf : s.fault = none)
    (ha : nextAgent s = some a) : step s = agentStep a (useTurn s) := by
  simp only [step, hc, hf, ha, Bool.not_true, Bool.false_eq_true, if_false]

theorem masterStep_eq_exec {s : State} {e : BusEvent} (h : eventNow s = some e) :
    masterStep s = exec e.toInstr (useEvent s) := by
  rw [masterStep, h]

theorem FiniteDrain.step_endsOrShrinks {s : State} (h : FiniteDrain s) : ∃ t, step s = .next t ∧ EndsOrShrinks s t := by
  have hturn : FiniteDrain (useTurn s) := ⟨h.cfgWf, h.noFault, h.draining, h.finite⟩
  have hbusy : s.prog ≠ .idle := fun hp => absurd h.draining (by simp [hp, hostStepsLeft])
  obtain ⟨a, ha⟩ := nextAgent_busy hbusy
  rw [step_eq_agentStep h.cfgWf h.noFault ha]
  cases a with
  | host => exact hturn.hostStep_endsOrShrinks
  | master =>
    obtain ⟨e, hnow, he⟩ := nextAgent_master ha
    obtain ⟨t, ht⟩ := exec_next e.toInstr (useEvent (useTurn s))
    exact ⟨t, (masterStep_eq_exec (s := useTurn s) hnow).trans ht, hturn.masterEvent_endsOrShrinks hnow he ht⟩

/-- Whatever the turns, the operation ends within the bound (R86). -/
theorem FiniteDrain.ends {s : State} (h : FiniteDrain s) :
    ∃ n t, n ≤ stepsLeft s ∧ runSteps n s = .next t ∧ t.prog = .idle ∧ t.fault = none := by
  obtain ⟨t, hstep, hf, hp | ⟨ht, hlt⟩⟩ := h.step_endsOrShrinks
  · exact ⟨1, t, Nat.le_add_left_of_le h.draining, runSteps_succ hstep 0, hp, hf⟩
  · obtain ⟨n, u, hn, hrun, hend⟩ := ht.ends
    exact ⟨n + 1, u, Nat.lt_of_le_of_lt hn hlt, (runSteps_succ hstep n).trans hrun, hend⟩
termination_by stepsLeft s

/-! A MASTER that stores a byte after every iteration. -/

/-- The loop states of a DRAIN, or of the DRAIN inside an I2C_STEP, by the bytes read so far. -/
inductive DrainLoop : (List Byte → Progress) → Prop where
  | drain : DrainLoop .drain
  | i2cDrain (f : Bool) : DrainLoop (.i2cDrain f)

theorem DrainLoop.ne_idle {loop : List Byte → Progress} (h : DrainLoop loop) (r : List Byte) : loop r ≠ .idle := by
  cases h <;> nofun

/-- An iteration with a byte waiting goes on with the loop (R86). -/
theorem DrainLoop.hostStep_eq {loop : List Byte → Progress} (h : DrainLoop loop) {s : State} {r : List Byte}
    {b : Byte} {q : List Byte} (hp : s.prog = loop r) (hq : s.rxf = b :: q) :
    hostStep s = .next { s with rxf := q, draws := s.draws + 1, prog := loop (r ++ [b]) } := by
  unfold hostStep
  cases h with
  | drain => rw [hp]; exact drainStep_cons hq r
  | i2cDrain f => rw [hp]; exact i2cDrainStep_cons hq f r

/-- A drain in its loop against a MASTER that stores `b` after every iteration without end (R150): at the HOST's turn a
byte is waiting, and at the MASTER's turn there is room. -/
structure Refilled (b : Byte) (loop : List Byte → Progress) (s : State) : Prop where
  cfgWf : s.cfg.wf = true
  noFault : s.fault = none
  writing : s.xfer = .wrMatched
  noAbort : s.txAbrt = false
  noneListed : s.master = []
  refills : s.masterAfter = .again [.byte b]
  alternates : s.turnsAfter = .again [.host, .master]
  looping : ∃ r, s.prog = loop r
  turn : (s.turns = [] ∧ s.rxf ≠ [] ∧ s.rxf.length ≤ s.cfg.rxFifoDepth) ∨
    (s.turns = [.master] ∧ s.rxf.length < s.cfg.rxFifoDepth)

section
variable {b : Byte} {loop : List Byte → Progress} {s : State}

theorem Refilled.step_of_host_turn (hl : DrainLoop loop) (h : Refilled b loop s) (ht : s.turns = [])
    (hne : s.rxf ≠ []) (hlen : s.rxf.length ≤ s.cfg.rxFifoDepth) : ∃ t, step s = .next t ∧ Refilled b loop t := by
  obtain ⟨hc, hf, hx, ha, hm, hma, hta, ⟨r, hp⟩, -⟩ := h
  obtain ⟨c, q, hq⟩ := List.exists_cons_of_ne_nil hne
  have hnext : nextAgent s = some .host := by
    simp [nextAgent, turnNow, ht, hta, headOf, hostCan, hp, hl.ne_idle r]
  refine ⟨_, (step_eq_agentStep hc hf hnext).trans (hl.hostStep_eq (s := useTurn s) hp hq),
    ⟨hc, hf, hx, ha, hm, hma, ?_, ⟨_, rfl⟩, .inr ⟨?_, ?_⟩⟩⟩
  · simp [ht, hta, tailOf]
  · simp [ht, hta, tailOf]
  · simpa [hq] using hlen

theorem Refilled.step_of_master_turn (h : Refilled b loop s) (ht : s.turns = [.master])
    (hroom : s.rxf.length < s.cfg.rxFifoDepth) : ∃ t, step s = .next t ∧ Refilled b loop t := by
  obtain ⟨hc, hf, hx, ha, hm, hma, hta, hp, -⟩ := h
  have hnow : eventNow s = some (.byte b) := by simp [eventNow, hm, hma, headOf]
  have hnext : nextAgent s = some .master := by
    simp [nextAgent, turnNow, ht, masterCan, hnow, busEnabled_byte_of_room hroom]
  have hstep : step s = .next (pushRx b (useEvent (useTurn s))) :=
    (step_eq_agentStep hc hf hnext).trans <|
      (masterStep_eq_exec (s := useTurn s) hnow).trans
        (exec_busByte_of_room (s := useEvent (useTurn s)) hx ha hroom b)
  refine ⟨_, hstep, ⟨hc, hf, hx, ha, ?_, ?_, ?_, hp, .inl ⟨?_, ?_, ?_⟩⟩⟩
  · simp [hm, hma, tailOf]
  · simp [hm, hma, tailOf]
  · simp [ht, hta]
  · simp [ht]
  · simp
  · simpa using hroom

theorem Refilled.step_refilled (hl : DrainLoop loop) (h : Refilled b loop s) :
    ∃ t, step s = .next t ∧ Refilled b loop t := by
  obtain ⟨ht, hne, hlen⟩ | ⟨ht, hroom⟩ := h.turn
  · exact h.step_of_host_turn hl ht hne hlen
  · exact h.step_of_master_turn ht hroom

/-- However many steps it is given, the loop goes on (R150). -/
theorem Refilled.run (hl : DrainLoop loop) (h : Refilled b loop s) (n : Nat) :
    ∃ t r, runSteps n s = .next t ∧ t.prog = loop r := by
  induction n generalizing s with
  | zero =>
    obtain ⟨r, hp⟩ := h.looping
    exact ⟨s, r, rfl, hp⟩
  | succ n ih =>
    obtain ⟨t, hstep, ht⟩ := h.step_refilled hl
    rw [runSteps_succ hstep]
    exact ih ht

end

/-- Settles O28: `FiniteDrain` begins where the MASTER has its listed steps alone, and `Refilled` where it stores a byte
between every two iterations. -/
theorem drainEndsWithMasterNotUnderRefill : Obligations.DrainEndsWithMasterNotUnderRefill := by
  refine ⟨fun s hc hf hp hm => ?_, fun s b hc hf hx ha hne hlen hm hma ht hta n => ?_⟩
  · obtain ⟨hpos, hle⟩ :
        0 < hostStepsLeft s.rxf.length s.prog ∧ hostStepsLeft s.rxf.length s.prog ≤ s.rxf.length + 2 := by
      obtain ⟨r, hp⟩ | ⟨f, r, hp⟩ := hp <;> simp [hp, hostStepsLeft]
    obtain ⟨n, t, hn, hend⟩ := FiniteDrain.ends ⟨hc, hf, hpos, hm⟩
    exact ⟨n, t, Nat.le_trans hn (Nat.add_le_add_left hle _), hend⟩
  · have refilled {loop : List Byte → Progress} (hp : ∃ r, s.prog = loop r) : Refilled b loop s :=
      ⟨hc, hf, hx, ha, hm, hma, hta, hp, .inl ⟨ht, hne, hlen⟩⟩
    exact ⟨fun hp => (refilled hp).run .drain n, fun f hp => (refilled hp).run (.i2cDrain f) n⟩

end Sys2Proof.Machine
end

section
/-! PROOFS. The frame decoder (spec 42_frame_decoder.md R89 to R99): its checks read on the bytes a buffer holds, the
reason of the first one that fails, and the frames, which alone it accepts. -/

namespace Sys2Proof.Machine

/-! The checks. -/

theorem getD_eq_iff_getElem? {buf : List Byte} {p : Nat} (h : p < buf.length) (b : Byte) :
    buf.getD p 0 = b ↔ buf[p]? = some b := by
  simp [List.getD, List.getElem?_eq_getElem h]

/-- The header check compares each of its four bytes (R94). -/
theorem slice_eq_header_iff {buf : List Byte} (h : buf.length = 16) :
    slice 1 5 buf = [0x04, 0x0C, 0x08, 0x0E] ↔
      buf[1]? = some 0x04 ∧ buf[2]? = some 0x0C ∧ buf[3]? = some 0x08 ∧ buf[4]? = some 0x0E := by
  obtain ⟨b0, b1, b2, b3, b4, b5, b6, b7, b8, b9, b10, b11, b12, b13, b14, b15, rfl⟩ := frame_cases h
  simp [slice]

/-- The command check compares both of its bytes (R95). -/
theorem slice_eq_command_iff {buf : List Byte} (h : buf.length = 16) :
    slice 5 7 buf = [0x05, 0x08] ↔ buf[5]? = some 0x05 ∧ buf[6]? = some 0x08 := by
  obtain ⟨b0, b1, b2, b3, b4, b5, b6, b7, b8, b9, b10, b11, b12, b13, b14, b15, rfl⟩ := frame_cases h
  simp [slice]

/-- Settles O7: the checks are tried in the order of R90, and the first that fails decides all five equivalences. -/
theorem frameRejectedForFirstFailedCheck : Obligations.FrameRejectedForFirstFailedCheck := by
  refine ⟨fun buf => ?_, rfl, rfl, rfl, rfl, rfl⟩
  by_cases hlen : buf.length = 16
  case neg => simp [frameDecode, hlen]
  simp only [frameDecode, ne_eq, slice_eq_header_iff hlen, slice_eq_command_iff hlen,
    getD_eq_iff_getElem? (show 0 < buf.length by omega), getD_eq_iff_getElem? (show 15 < buf.length by omega)]
  by_cases hsentinel : buf[0]? = some 0xFF
  case neg => simp_all
  by_cases hterminator : buf[15]? = some 0x0A
  case neg => simp_all
  by_cases hheader : buf[1]? = some 0x04 ∧ buf[2]? = some 0x0C ∧ buf[3]? = some 0x08 ∧ buf[4]? = some 0x0E
  case neg => simp_all
  by_cases hcommand : buf[5]? = some 0x05 ∧ buf[6]? = some 0x08
  case neg => simp_all
  case pos => simp_all

/-- Settles O11: with one byte changed the fields checked before it still match and its own does not. -/
theorem oneWrongByteRejectsFrame : Obligations.OneWrongByteRejectsFrame := by
  intro rsv index value x p buf hx
  obtain ⟨-, hsentinel, hterminator, hheader, hcommand⟩ := frameRejectedForFirstFailedCheck.1 (buf.set p x)
  refine ⟨?_, ?_, fun hlo hhi => hheader.mpr ?_, fun hlo hhi => hcommand.mpr ?_⟩
  · rintro rfl
    exact hsentinel.mpr (by simpa [buf, frameBytes, eq_comm] using hx)
  · rintro rfl
    exact hterminator.mpr (by simpa [buf, frameBytes, eq_comm] using hx)
  · interval_cases p <;> simpa [buf, frameBytes, eq_comm] using hx
  · interval_cases p <;> simpa [buf, frameBytes, eq_comm] using hx

/-! The frames. -/

/-- FD accepts the frames alone, and returns what they carry (R96, R97, R99). -/
theorem frameDecode_eq_accepted_iff (buf : List Byte) (index value : Byte) (rsv : Rsv) :
    frameDecode buf = .accepted index value rsv ↔ buf = frameBytes rsv index value := by
  constructor
  · intro h
    unfold frameDecode at h
    split_ifs at h with hlen hsentinel hterminator hheader hcommand
    rw [not_not] at hlen hsentinel hterminator hheader hcommand
    cases h
    obtain ⟨b0, b1, b2, b3, b4, b5, b6, b7, b8, b9, b10, b11, b12, b13, b14, b15, rfl⟩ := frame_cases hlen
    cases hsentinel
    cases hterminator
    cases hheader
    cases hcommand
    rfl
  · rintro rfl
    exact frameDecode_frameBytes rsv index value

/-- The mask of R55 passes the frames alone. -/
theorem isFrame_iff (buf : List Byte) :
    isFrame buf = true ↔ ∃ index value rsv, buf = frameBytes rsv index value := by
  constructor
  · exact fun h => ⟨_, _, _, (frameBytes_of_isFrame h).symm⟩
  · rintro ⟨index, value, rsv, rfl⟩
    exact isFrame_frameBytes rsv index value

/-- The frame format's decoder reads the frames alone (R54 to R56). -/
theorem decode_frame16_eq_ok_iff (buf : List Byte) (index value : Byte) (rsv : Rsv) :
    decode .frame16 buf = .ok (.frameActuatorCmd rsv index value) [] ↔ buf = frameBytes rsv index value := by
  constructor
  · intro h
    obtain ⟨-, -, he⟩ := encodeInvertsDecode .frame16 buf [] _ h
    simpa [encode] using he.symm
  · rintro rfl
    exact (decodeInvertsEncode (.frameActuatorCmd rsv index value) [] rfl).2

/-- Settles O6: FD, the mask of R55 and the frame format's decoder each pass the frames alone. -/
theorem frameAcceptedIffPatternMatches : Obligations.FrameAcceptedIffPatternMatches := by
  intro buf
  constructor
  · have hmask := isFrame_iff buf
    rw [isFrame, Bool.and_eq_true, decide_eq_true_eq, decide_eq_true_eq] at hmask
    simp only [frameDecode_eq_accepted_iff, hmask]
  · intro index value rsv
    rw [decode_frame16_eq_ok_iff, frameDecode_eq_accepted_iff]

/-! The operation. -/

/-- Settles O10: DECODE changes the returned value alone. -/
theorem decodeReturnsFrameResult : Obligations.DecodeReturnsFrameResult := by
  intro buf s
  rw [exec, execDecode]
  rfl

end Sys2Proof.Machine
end

section
/-! PROOFS. The value mapper (spec 43_value_mapper.md R100 to R107): the map's arithmetic on exact naturals, MAP's
result by the range in effect, and the calibration table, which CAL_RD reads and CAL_WR alone writes. -/

namespace Sys2Proof.Machine

/-! The map's arithmetic (R101, R102). -/

theorem clamp_of_bounds {p lo hi : Nat} (hlo : lo ≤ p) (hhi : p ≤ hi) : clamp p lo hi = p := by
  rw [clamp, max_eq_left hlo, min_eq_left hhi]

theorem mapPulse_zero {lo hi : Nat} (h : lo < hi) : mapPulse .floor lo hi 0 = lo := by
  obtain ⟨hp, -⟩ := mapPulse_floor h (Nat.zero_le 255)
  rw [hp, Nat.zero_mul, Nat.zero_div, Nat.add_zero]

theorem mapPulse_full {lo hi : Nat} (h : lo < hi) : mapPulse .floor lo hi 255 = hi := by
  obtain ⟨hp, -⟩ := mapPulse_floor h (Nat.le_refl 255)
  rw [hp, Nat.mul_div_cancel_left _ (by decide), Nat.add_sub_cancel' h.le]

theorem mapPulse_mono {lo hi raw raw' : Nat} (h : lo < hi) (hr : raw ≤ raw') (hr' : raw' ≤ 255) :
    mapPulse .floor lo hi raw ≤ mapPulse .floor lo hi raw' := by
  obtain ⟨hp, -⟩ := mapPulse_floor h (hr.trans hr')
  obtain ⟨hp', -⟩ := mapPulse_floor h hr'
  rw [hp, hp']
  exact Nat.add_le_add_left (Nat.div_le_div_right (Nat.mul_le_mul_right _ hr)) lo

theorem mapPulse_exact {lo hi raw : Nat} (h : lo < hi) (hr : raw ≤ 255) (hdvd : 255 ∣ raw * (hi - lo)) :
    255 * (mapPulse .floor lo hi raw - lo) = raw * (hi - lo) := by
  obtain ⟨hp, -⟩ := mapPulse_floor h hr
  rw [hp, Nat.add_sub_cancel_left, Nat.mul_div_cancel' hdvd]

/-- A raw byte is at most 255, the divisor of R101. -/
theorem byte_toNat_le (raw : Byte) : raw.toNat ≤ 255 :=
  Nat.le_of_lt_succ raw.isLt

/-- Settles O34: each clause is a lemma about the map on naturals, taken at a raw byte. -/
theorem mappedPulseNeverDecreases : Obligations.MappedPulseNeverDecreases := by
  intro lo hi raw raw' h p
  obtain ⟨hp, -⟩ := mapPulse_floor h (byte_toNat_le raw)
  obtain ⟨hlo, hhi⟩ := mapPulse_bounds h.le .floor raw.toNat
  refine ⟨hp, hlo, hhi, clamp_of_bounds hlo hhi, ?_, ?_, fun hr => mapPulse_mono h hr (byte_toNat_le raw'),
    fun hmod => mapPulse_exact h (byte_toNat_le raw) (Nat.dvd_of_mod_eq_zero hmod)⟩
  · rintro rfl
    exact mapPulse_zero h
  · rintro rfl
    exact mapPulse_full h

/-! MAP (R100, R103, R104). -/

theorem exec_mapRaw {s : State} {idx : Byte} (hm : s.mode ≠ .fatal) (hi : idx.toNat < s.cfg.nAct) (raw : Byte) :
    exec (.mapRaw idx raw) s = .next { s with ret := .mapped (mapValue s idx raw) } := by
  rw [exec, execMapRaw, if_neg hm, if_neg (Nat.not_le.mpr hi)]
  rfl

theorem rangeFor_perActuator {s : State} {idx : Byte} {r : Range} (hp : s.cfg.mapPolicy = .perActuator)
    (hct : s.ct[idx.toNat]? = some r) : rangeFor s idx = r := by
  simp [rangeFor, hp, calEntry, hct]

theorem rangeFor_universal {s : State} (hp : s.cfg.mapPolicy = .universal) (idx : Byte) :
    rangeFor s idx = ⟨s.cfg.umin, s.cfg.umax⟩ := by
  simp [rangeFor, hp]

/-- The map's result by the range in effect: only under PER_ACTUATOR is a zero pulse discarded (R103). -/
theorem mapValue_of_rangeFor {s : State} {idx : Byte} {r : Range} (h : rangeFor s idx = r) (raw : Byte) :
    mapValue s idx raw =
      if s.cfg.mapPolicy = .perActuator ∧ mapPulse .floor r.min.toNat r.max.toNat raw.toNat = 0 then .noOp
      else .pulse (BitVec.ofNat 16 (mapPulse .floor r.min.toNat r.max.toNat raw.toNat)) := by
  subst h
  cases hround : s.cfg.mapRound with
  | floor => rw [mapValue, hround]

/-- The map's result where the mapped value is that of a known pulse. -/
theorem mapValue_of_mapPulse {s : State} {idx raw : Byte} {r : Range} {p : Pulse} (h : rangeFor s idx = r)
    (hp : mapPulse .floor r.min.toNat r.max.toNat raw.toNat = p.toNat) :
    mapValue s idx raw = if s.cfg.mapPolicy = .perActuator ∧ p = 0 then .noOp else .pulse p := by
  have hzero : p.toNat = 0 ↔ p = 0 := BitVec.toNat_inj (y := (0 : Pulse))
  simp only [mapValue_of_rangeFor h, hp, hzero, BitVec.ofNat_toNat, BitVec.setWidth_eq]

/-- Settles O32: the Faults in order, then the map of the range in effect under each policy. -/
theorem mapReturnsScaledPulse : Obligations.MapReturnsScaledPulse := by
  intro s idx raw r p
  have hmap (hr : r.wf = true) : mapPulse .floor r.min.toNat r.max.toNat raw.toNat = p :=
    (mapPulse_floor (of_decide_eq_true hr) (byte_toNat_le raw)).1
  refine ⟨fun hm => ?_, fun hm hi => ?_, fun hm hi hr hp hct => ?_, fun hm hi hr hp hu => ?_⟩
  · rw [exec, execMapRaw, if_pos hm]
  · rw [exec, execMapRaw, if_neg hm, if_pos hi]
  · rw [exec_mapRaw hm hi, mapValue_of_rangeFor (rangeFor_perActuator hp hct), hmap hr]
    simp only [hp, true_and]
  · rw [exec_mapRaw hm hi, mapValue_of_rangeFor ((rangeFor_universal hp idx).trans hu.symm), hmap hr]
    simp only [hp, reduceCtorEq, false_and, if_false]

/-- Settles O33: a mapped pulse lies in the range in effect, and the ends of the raw byte map to the ends of the
range, of which only `lo` can be 0. -/
theorem mapResultStaysInRange : Obligations.MapResultStaysInRange := by
  intro s idx raw r hm hi hr hpolicy
  have hrange : rangeFor s idx = r := by
    obtain ⟨hp, hct⟩ | ⟨hp, rfl⟩ := hpolicy
    · exact rangeFor_perActuator hp hct
    · exact rangeFor_universal hp idx
  have hlt : r.min.toNat < r.max.toNat := of_decide_eq_true hr
  refine ⟨_, exec_mapRaw hm hi raw, fun p hp => ?_, ?_, ?_⟩
  · subst hrange
    exact mapValue_rangeHolds hp hlt.le
  · rintro rfl
    have hmax : r.max ≠ 0 := fun h0 => by simp [h0] at hlt
    rw [mapValue_of_mapPulse (raw := 255) (p := r.max) hrange (mapPulse_full hlt), if_neg fun ⟨_, h0⟩ => hmax h0]
  · rintro rfl
    rw [mapValue_of_mapPulse (raw := 0) (p := r.min) hrange (mapPulse_zero hlt)]
    exact ⟨fun h => if_pos h, fun h => if_neg h⟩

/-! The calibration table (R105, R106). -/

/-- Settles O35: the checks in the order of R128, then the write of the entry. -/
theorem calWrWritesOnlyTheReference : Obligations.CalWrWritesOnlyTheReference := by
  intro s idx min max
  have hwf : (Range.mk min max).wf = true ↔ min.toNat < max.toNat := decide_eq_true_iff
  simp only [exec, execCalWr, Bool.not_eq_true', ← Bool.not_eq_true, hwf]
  refine ⟨fun hm => if_pos hm, fun hm hi => ?_, fun hm hi hle => ?_, fun hm hi hlt => ?_⟩
  · rw [if_neg (not_not.mpr hm), if_pos hi]
  · rw [if_neg (not_not.mpr hm), if_neg (not_not.mpr hi), if_pos (Nat.not_lt.mpr hle)]
  · rw [if_neg (not_not.mpr hm), if_neg (not_not.mpr hi), if_neg (not_not.mpr hlt)]
    rfl

/-- Settles O36: the checks in the order of R128, then the entry as the table holds it. -/
theorem calRdReturnsTheEntry : Obligations.CalRdReturnsTheEntry := by
  intro s idx
  refine ⟨rfl, fun hm => ?_, fun hm hi => ?_, fun r hm hi hct => ?_⟩
  · rw [exec, execCalRd, if_pos hm]
  · rw [exec, execCalRd, if_neg hm, if_pos hi]
  · have hentry : calEntry s idx = r := by simp [calEntry, hct]
    rw [exec, execCalRd, if_neg hm, if_neg (Nat.not_le.mpr hi), hentry]
    rfl

/-- `t` has the table of `s` but for the reference actuator's entry, which too may differ only in CALIBRATING. -/
def KeepsOtherRanges (s t : State) : Prop :=
  (s.mode ≠ .calibrating → t.ct = s.ct) ∧ ∀ i, i ≠ s.cfg.refIndex → t.ct[i]? = s.ct[i]?

theorem keepsOtherRanges_of_ct_eq {s t : State} (h : t.ct = s.ct) : KeepsOtherRanges s t :=
  ⟨fun _ => h, fun i _ => by rw [h]⟩

/-- An operation that begins, and a MASTER's step, write no other range: of them CAL_WR alone writes the table, after
its checks (R105). -/
theorem Effect.keepsOtherRanges {s t : State} (h : Effect s t) : KeepsOtherRanges s t := by
  obtain hk | ⟨idx, r, hm, hi, -, rfl⟩ | ⟨a, -, rfl⟩ := h.commandState
  · exact keepsOtherRanges_of_ct_eq hk.ct
  · exact ⟨fun hne => absurd hm hne, fun j hj => List.getElem?_set_ne fun hij => hj (hij.symm.trans hi)⟩
  · obtain ⟨c, out, hist, ha⟩ := takeAnswer_frame a s
    exact keepsOtherRanges_of_ct_eq (by simp [ha])

/-- Settles O45, by what each kind of step does to the table. -/
theorem stepChangesOnlyReferenceRange : Obligations.StepChangesOnlyReferenceRange := by
  intro s t h
  cases step_kind h with
  | waits i => exact keepsOtherRanges_of_ct_eq rfl
  | issues i hp he => exact he.keepsOtherRanges
  | master i e he => exact (exec_effect he).keepsOtherRanges
  | continues i hp hl =>
    obtain ⟨-, -, hct⟩ := (hostStep_laterEffect hp hl).keeps_mode_cfg_ct
    exact keepsOtherRanges_of_ct_eq hct

end Sys2Proof.Machine
end

section
/-! PROOFS. The command path (spec 44_command_path.md R108 to R114): what processing a command does, case by case, the
two operations that take commands from a bus, and the pulses a step may write. -/

namespace Sys2Proof.Machine

/-! Processing commands (R108, R110, R113). -/

theorem runCommand_of_badIndex {cmd : Command} {s : State} (hi : s.cfg.nAct ≤ cmd.index.toNat) :
    runCommand cmd s = setOutcome indexOutOfRange s := if_pos hi

theorem runCommand_of_noOp {cmd : Command} {s : State} (hi : cmd.index.toNat < s.cfg.nAct)
    (hm : mapValue s cmd.index cmd.raw = .noOp) : runCommand cmd s = setOutcome mapNoop s := by
  rw [runCommand, if_neg (Nat.not_le.mpr hi), hm]

/-- Commands in a row are processed one list after the other (R113). -/
theorem runCommands_append (cmds cmds' : List Command) (s : State) :
    runCommands (cmds ++ cmds') s = runCommands cmds' (runCommands cmds s) := by
  induction cmds generalizing s with
  | nil => rfl
  | cons cmd cmds ih => exact ih (runCommand cmd s)

/-- Settles O40, one lemma a case of `process`, and the list by `runCommands_append`. -/
theorem commandsAreProcessedInOrder : Obligations.CommandsAreProcessedInOrder :=
  fun s cmd cmds =>
    ⟨runCommand_of_badIndex, runCommand_of_noOp, fun _ => runCommand_of_pulse, runCommands_append cmds [cmd] s⟩

/-! SERIAL_STEP (R111). -/

theorem exec_serialStep {s : State} (hm : s.mode = .serving) (hb : s.cfg.busSel = .serial) (a : SerialAnswer) :
    exec (.serialStep a) s = .next ((takeAnswer a s).returning .done) := by
  rw [exec, execSerialStep, if_neg (not_not_intro hm), if_neg (not_not_intro hb)]

theorem takeAnswer_of_rejected {buf : List Byte} {reason : RejectReason} (h : frameDecode buf = .rejected reason)
    (s : State) : takeAnswer (.ok buf) s = setOutcome reason.code s := by
  rw [takeAnswer, h]

theorem takeAnswer_of_accepted {buf : List Byte} {index raw : Byte} {rsv : Rsv}
    (h : frameDecode buf = .accepted index raw rsv) (s : State) :
    takeAnswer (.ok buf) s = runCommand ⟨index, raw⟩ s := by
  rw [takeAnswer, h]

/-- Settles O37: the two checks, then the answer, an accepted one by what processing its command does. -/
theorem serialStepTakesOneCommand : Obligations.SerialStepTakesOneCommand := by
  refine fun s => ⟨fun a hm => ?_, fun a hm hb => ?_, fun hm hb => ⟨?_, fun buf reason hd => ?_,
    fun buf index raw rsv hd hi => ?_, fun buf index raw rsv hd hi hmap => ?_,
    fun buf index raw rsv p hd hi hmap => ?_⟩⟩
  · rw [exec, execSerialStep, if_pos hm]
  · rw [exec, execSerialStep, if_neg (not_not_intro hm), if_pos (by simp [hb])]
  · rw [exec_serialStep hm hb]
    rfl
  · rw [exec_serialStep hm hb, takeAnswer_of_rejected hd]
    rfl
  · rw [exec_serialStep hm hb, takeAnswer_of_accepted hd, runCommand_of_badIndex (cmd := ⟨index, raw⟩) hi]
    rfl
  · rw [exec_serialStep hm hb, takeAnswer_of_accepted hd, runCommand_of_noOp (cmd := ⟨index, raw⟩) hi hmap]
    rfl
  · rw [exec_serialStep hm hb, takeAnswer_of_accepted hd, runCommand_of_pulse (cmd := ⟨index, raw⟩) hi hmap]
    rfl

/-! I2C_STEP (R112). -/

theorem exec_i2cStep {s : State} (hm : s.mode = .serving) (hb : s.cfg.busSel = .i2c) (f : Bool) :
    exec (.i2cStep f) s = .next { s with txAbrt := false, prog := .i2cDrain f [] } := by
  rw [exec, execI2cStep, if_neg (not_not_intro hm), if_neg (not_not_intro hb), ackAbort_ok, continueWith]

theorem takeDrained_of_noPair {seq : List Byte} {s : State} (h : pairCommands s.cfg.pairPolicy seq = []) :
    takeDrained false seq s = setOutcome noCommand s := by
  simp [takeDrained, h]

theorem takeDrained_of_pairs {seq : List Byte} {s : State} (h : pairCommands s.cfg.pairPolicy seq ≠ []) :
    takeDrained false seq s = runCommands (pairCommands s.cfg.pairPolicy seq) s := by
  obtain ⟨cmd, cmds, hc⟩ := List.exists_cons_of_ne_nil h
  simp [takeDrained, hc]

/-! The command path does not read the loop state, so I2C_STEP's last step may be taken from one that has ended. -/

theorem runCommand_withProg (cmd : Command) (s : State) (p : Progress) :
    runCommand cmd { s with prog := p } = { runCommand cmd s with prog := p } := by
  obtain ⟨hi, h⟩ | ⟨hi, hm, h⟩ | ⟨q, hi, hm, h⟩ := runCommand_cases cmd s <;> rw [h]
  · exact runCommand_of_badIndex hi
  · exact runCommand_of_noOp hi hm
  · exact runCommand_of_pulse hi hm

theorem runCommands_withProg (cmds : List Command) (s : State) (p : Progress) :
    runCommands cmds { s with prog := p } = { runCommands cmds s with prog := p } := by
  induction cmds generalizing s with
  | nil => rfl
  | cons cmd cmds ih => rw [runCommands, runCommand_withProg, ih, runCommands]

theorem takeDrained_withProg (f : Bool) (seq : List Byte) (s : State) (p : Progress) :
    takeDrained f seq { s with prog := p } = { takeDrained f seq s with prog := p } := by
  cases f with
  | true => rfl
  | false =>
    by_cases h : pairCommands s.cfg.pairPolicy seq = []
    · rw [takeDrained_of_noPair h, takeDrained_of_noPair (s := { s with prog := p }) h]
      rfl
    · rw [takeDrained_of_pairs h, takeDrained_of_pairs (s := { s with prog := p }) h, runCommands_withProg]

/-- The state an I2C_STEP takes its commands in: the stale abort is acknowledged and the FIFO drained (R112). -/
def i2cDrained (port : List PortWord) (s : State) : State :=
  { s with txAbrt := false, rxf := [], draws := s.draws + s.rxf.length, port := port }

/-- An issued I2C_STEP takes the drained commands in three undisturbed steps more than there are bytes (R112). -/
theorem Issues.run_i2cStep {s : State} {f : Bool} {rest : List Byte} {ws : List PortWord}
    (hi : Issues s ⟨.op, encode (.i2cStep f) ++ rest⟩ ws) (hu : Undisturbed s) (hm : s.mode = .serving)
    (hb : s.cfg.busSel = .i2c) :
    runSteps (s.rxf.length + 3) s =
      .next ((takeDrained f s.rxf (i2cDrained (remaining rest ws) s)).returning .done) := by
  have hfirst : step s = .next { s with port := remaining rest ws, txAbrt := false, prog := .i2cDrain f [] } :=
    Eq.trans (step_issue hu hi (decodeOp_encode (i := .i2cStep f) rfl rfl rest) rfl)
      (exec_i2cStep (s := { s with port := remaining rest ws }) hm hb f)
  refine (runSteps_succ hfirst _).trans (Eq.trans (i2cDrain_run f s.rxf _ [] hi.cfgWf hi.noFault rfl hu rfl) ?_)
  rw [← takeDrained_withProg, i2cDrained, ← hi.idle]
  rfl

/-- Settles O39: the two checks, the first step, and the whole run by what is done with the drained bytes. -/
theorem i2cStepTakesTheDrainedCommands : Obligations.I2cStepTakesTheDrainedCommands := by
  refine fun s f rest ws => ⟨fun hm => ?_, fun hm hb => ?_, fun hm hb => ⟨exec_i2cStep hm hb f, fun hi hu =>
    ⟨i2cDrained (remaining rest ws) s, rfl, ?_, ?_, ?_⟩⟩⟩
  · rw [exec, execI2cStep, if_pos hm]
  · rw [exec, execI2cStep, if_neg (not_not_intro hm), if_pos (by simp [hb])]
  · rintro rfl
    exact hi.run_i2cStep hu hm hb
  · rintro rfl hnone
    rw [hi.run_i2cStep hu hm hb, takeDrained_of_noPair (s := i2cDrained _ s) hnone]
    rfl
  · rintro rfl hsome
    rw [hi.run_i2cStep hu hm hb, takeDrained_of_pairs (s := i2cDrained _ s) hsome]
    rfl

/-! The pulses a step may write (R114). -/

/-- `t` has the configuration of `s`, and its outputs but for pulses of actuators that exist. -/
structure AddsPulses (s t : State) : Prop where
  cfg : t.cfg = s.cfg
  actOut : ∀ i, s.cfg.nAct ≤ i → t.actOut[i]? = s.actOut[i]?
  outHist : ∃ new, t.outHist = s.outHist ++ new ∧ ∀ e ∈ new, e.1.toNat < s.cfg.nAct

theorem AddsPulses.refl (s : State) : AddsPulses s s :=
  ⟨rfl, fun _ _ => rfl, [], (List.append_nil _).symm, nofun⟩

theorem KeepsCommandState.addsPulses {s t : State} (h : KeepsCommandState s t) : AddsPulses s t :=
  ⟨h.cfg, fun _ _ => by rw [h.actOut], [], by rw [h.outHist, List.append_nil], nofun⟩

/-- One more pulse, of an actuator that exists. -/
theorem AddsPulses.after_pulse {s t : State} (h : AddsPulses s t) {i : Byte} (hi : i.toNat < t.cfg.nAct) (p : Pulse) :
    AddsPulses s (emitPulse i p t) := by
  obtain ⟨hcfg, hact, new, hnew, hin⟩ := h
  rw [hcfg] at hi
  refine ⟨hcfg, fun j hj => ?_, new ++ [(i, p)], ?_, ?_⟩
  · exact (List.getElem?_set_ne (by omega)).trans (hact j hj)
  · rw [emitPulse_outHist, hnew, List.append_assoc]
  · simpa [or_imp, forall_and, hi] using hin

theorem takeAnswer_addsPulses (a : SerialAnswer) (s : State) : AddsPulses s (takeAnswer a s) :=
  takeAnswer_induction a s (.refl s) (fun _ _ _ h => { h with }) (fun _ _ p h hi _ => { h.after_pulse hi p with })

theorem takeDrained_addsPulses (f : Bool) (seq : List Byte) (s : State) : AddsPulses s (takeDrained f seq s) :=
  takeDrained_induction f seq s (.refl s) (fun _ _ _ h => { h with }) (fun _ _ p h hi _ => { h.after_pulse hi p with })

/-- An operation that begins, and a MASTER's step: of them only a serial answer's command writes a pulse (R109). -/
theorem Effect.addsPulses {s t : State} (h : Effect s t) : AddsPulses s t := by
  obtain hk | ⟨idx, r, -, -, -, rfl⟩ | ⟨a, -, rfl⟩ := h.commandState
  · exact hk.addsPulses
  · exact { AddsPulses.refl s with }
  · exact { takeAnswer_addsPulses a s with }

/-- A later step of an operation in progress: only I2C_STEP's last one writes pulses (R109). -/
theorem LaterEffect.addsPulses {s t : State} (h : LaterEffect s t) : AddsPulses s t := by
  obtain hk | ⟨f, bs, -, rfl⟩ := h.commandState
  · exact hk.addsPulses
  · exact { takeDrained_addsPulses f bs s with }

/-- No step writes a pulse but of an actuator that exists (R114). -/
theorem step_addsPulses {s t : State} (h : step s = .next t) : AddsPulses s t := by
  cases step_kind h with
  | waits i => exact { AddsPulses.refl s with }
  | issues i hp he => exact { he.addsPulses with }
  | master i e he => exact { (exec_effect he).addsPulses with }
  | continues i hp hl => exact { (hostStep_laterEffect hp hl).addsPulses with }

/-- Settles O41, by what each kind of step does to the outputs. -/
theorem noPulseBeyondActuatorCount : Obligations.NoPulseBeyondActuatorCount :=
  fun _ _ h => ⟨(step_addsPulses h).actOut, (step_addsPulses h).outHist⟩

end Sys2Proof.Machine
end

section
/-! PROOFS. The MASTER's bus events (spec 45_bus_events.md R116 to R121): which starts match, what becomes of a byte by
the room in the FIFO, and how a held byte leaves the step to the HOST. -/

namespace Sys2Proof.Machine

/-! BUS_START (R116). -/

theorem eq_filterOf_iff (a : BitVec 10) (addr : BitVec 7) : a = filterOf addr ↔ a.toNat = addr.toNat := by
  have hlt : addr.toNat < 2 ^ 10 := Nat.lt_trans addr.isLt (by decide)
  rw [← BitVec.toNat_inj, filterOf, BitVec.toNat_setWidth, Nat.mod_eq_of_lt hlt]

theorem exec_busStart_of_match {s : State} {addr : BitVec 7} (he : s.en = true) (ha : s.saddr.toNat = addr.toNat)
    (dir : Dir) : exec (.busStart addr dir) s = .next { s with xfer := matchedXfer dir } := by
  rw [exec, execBusStart, if_pos ⟨he, (eq_filterOf_iff _ _).mpr ha⟩]

theorem exec_busStart_of_no_match {s : State} {addr : BitVec 7} (h : s.en = false ∨ s.saddr.toNat ≠ addr.toNat)
    (dir : Dir) : exec (.busStart addr dir) s = .next { s with xfer := .other } := by
  have hno : ¬(s.en = true ∧ s.saddr = filterOf addr) := by
    rintro ⟨he, ha⟩
    obtain hdisabled | hother := h
    · exact Bool.false_ne_true (hdisabled.symm.trans he)
    · exact hother ((eq_filterOf_iff _ _).mp ha)
  rw [exec, execBusStart, if_neg hno]

/-- Settles O49: the filter is the address exactly where both are the same number. -/
theorem busStartMatchesTheAddress : Obligations.BusStartMatchesTheAddress := fun _ _ =>
  ⟨fun he ha => ⟨exec_busStart_of_match he ha .write, exec_busStart_of_match he ha .read⟩,
    fun dir h => exec_busStart_of_no_match h dir⟩

/-! BUS_BYTE (R117): what a full FIFO does with a byte, and when the byte gets that far. -/

theorem rxFull_of_full {s : State} (h : s.cfg.rxFifoDepth ≤ s.rxf.length) : rxFull s = true :=
  decide_eq_true h

theorem receiveByte_of_room {s : State} (h : s.rxf.length < s.cfg.rxFifoDepth) (b : Byte) :
    receiveByte b s = pushRx b s := by
  simp [receiveByte, rxFull_of_room h]

theorem receiveByte_of_dropNew {s : State} (h : s.cfg.rxFifoDepth ≤ s.rxf.length) (hp : s.cfg.rxOverflow = .dropNew)
    (b : Byte) : receiveByte b s = s := by
  simp [receiveByte, rxFull_of_full h, hp]

theorem receiveByte_of_holdMaster {s : State} (h : s.cfg.rxFifoDepth ≤ s.rxf.length)
    (hp : s.cfg.rxOverflow = .holdMaster) (b : Byte) : receiveByte b s = { s with master := .byte b :: s.master } := by
  simp [receiveByte, rxFull_of_full h, hp]

theorem exec_busByte_of_no_write {s : State} (hx : s.xfer ≠ .wrMatched) (b : Byte) :
    exec (.busByte b) s = .next s := by
  rw [exec, execBusByte, if_pos hx]

theorem exec_busByte_of_no_abort {s : State} (hx : s.xfer = .wrMatched) (ha : s.txAbrt = false) (b : Byte) :
    exec (.busByte b) s = .next (receiveByte b s) := by
  simp [exec, execBusByte, hx, ha, takeByte]

/-- While TX_ABRT is set the draw decides whether the byte is lost or received (R117). -/
theorem exec_busByte_of_abort {s : State} (hx : s.xfer = .wrMatched) (ha : s.txAbrt = true) (b : Byte) :
    exec (.busByte b) s = .next { s with draws := s.draws + 1 } ∨
      exec (.busByte b) s = .next (receiveByte b { s with draws := s.draws + 1 }) := by
  have hexec : exec (.busByte b) s =
      .next (takeByte (Config.drawByteLost s.draws) b { s with draws := s.draws + 1 }) := by
    simp [exec, execBusByte, hx, ha]
  rw [hexec]
  cases Config.drawByteLost s.draws with
  | true => exact .inl rfl
  | false => exact .inr rfl

/-- Settles O50: without an abort the byte is received, with one the draw may lose it first. -/
theorem busByteIsStoredWhereThereIsRoom : Obligations.BusByteIsStoredWhereThereIsRoom := by
  intro s b
  refine ⟨fun hx => exec_busByte_of_no_write hx b, fun hx ha hroom => exec_busByte_of_room hx ha hroom b,
    ?_, ?_, ?_, ?_, ?_⟩
  · intro hx ha hfull hp
    rw [exec_busByte_of_no_abort hx ha, receiveByte_of_dropNew hfull hp]
  · intro hx ha hfull hp
    rw [exec_busByte_of_no_abort hx ha, receiveByte_of_holdMaster hfull hp]
  · intro hx ha hroom
    have h := exec_busByte_of_abort hx ha b
    rwa [receiveByte_of_room (s := { s with draws := s.draws + 1 }) hroom] at h
  · intro hx ha hfull hp
    have h := exec_busByte_of_abort hx ha b
    rwa [receiveByte_of_dropNew (s := { s with draws := s.draws + 1 }) hfull hp, or_self] at h
  · intro hx ha hfull hp
    have h := exec_busByte_of_abort hx ha b
    rwa [receiveByte_of_holdMaster (s := { s with draws := s.draws + 1 }) hfull hp] at h

/-! A held byte (R117, R121). -/

theorem busEnabled_byte_of_held {s : State} (hx : s.xfer = .wrMatched) (ha : s.txAbrt = false)
    (hfull : s.cfg.rxFifoDepth ≤ s.rxf.length) (hp : s.cfg.rxOverflow = .holdMaster) (b : Byte) :
    busEnabled (.byte b) s = false := by
  simp [busEnabled, masterHeld, rxFull_of_full hfull, hx, ha, hp]

/-- On the MASTER's turn with its next event not enabled, the HOST steps where it can (R18). -/
theorem nextAgent_of_master_waiting {s : State} {e : BusEvent} {es : List BusEvent} {ts : List Agent}
    (ht : s.turns = .master :: ts) (hm : s.master = e :: es) (he : busEnabled e s = false) :
    nextAgent s = if hostCan s then some .host else none := by
  have hcan : masterCan s = false := by simp [masterCan, eventNow, hm, he]
  simp [nextAgent, turnNow, ht, hcan]

theorem step_of_no_agent {s : State} (hc : s.cfg.wf = true) (hf : s.fault = none) (hn : nextAgent s = none) :
    step s = .fault .noStep := by
  simp [step, hc, hf, hn]

/-- Settles O51: a held byte is no enabled event, and one with room is stored on the MASTER's turn. -/
theorem heldByteIsStoredOnceThereIsRoom : Obligations.HeldByteIsStoredOnceThereIsRoom := by
  intro s b es ts hp hx ha hc hf hm ht
  have hwaits (hfull : s.rxf.length = s.cfg.rxFifoDepth) : nextAgent s = if hostCan s then some .host else none :=
    nextAgent_of_master_waiting ht hm (busEnabled_byte_of_held hx ha hfull.ge hp b)
  refine ⟨fun hfull hcan => ?_, fun hfull hcan => ?_, fun hroom => step_stores_byte hc hf hx ha hroom hm ht⟩
  · rw [hcan, if_pos rfl] at hwaits
    rw [step_eq_agentStep hc hf (hwaits hfull), agentStep, useTurn_of_cons ht]
  · rw [hcan, if_neg Bool.false_ne_true] at hwaits
    exact step_of_no_agent hc hf (hwaits hfull)

/-! BUS_STOP and BUS_TX_ABORT (R118, R119), and what every event leaves unchanged. -/

/-- Settles O53: every event answers a next state, with the frame of `busEvent_frame` and the bytes waiting still in
front. -/
theorem masterStepNeverFaults : Obligations.MasterStepNeverFaults := by
  intro e s
  obtain ⟨t, ht⟩ := exec_next e.toInstr s
  obtain ⟨new, hnew⟩ := busEvent_rxf_prefix ht
  exact ⟨t, ht, busEvent_frame ht, new, hnew.symm⟩

/-- Settles O52: both events are one assignment, in every state. -/
theorem busStopAndAbortSetTheirState : Obligations.BusStopAndAbortSetTheirState :=
  ⟨rfl, rfl, fun _ => ⟨rfl, rfl⟩⟩

end Sys2Proof.Machine
end

section
/-! PROOFS. The exceptions (spec 60_exceptions.md R125 to R127): FATAL leaves the command path, the map and the table
locked and the outputs as they were, and a Fault is all that the operation that raised it does, and the last. -/

namespace Sys2Proof.Machine

/-! FATAL (R125). -/

/-- No pulse was ever written where the mode is FATAL, since a pulse is written in SERVING alone (R125). -/
theorem OutputInvariant.outHist_of_fatal {s : State} (h : OutputInvariant s) (hm : s.mode = .fatal) :
    s.outHist = [] := by
  by_contra hne
  have hserving : s.mode = .serving := h.histServing hne
  exact absurd (hm.symm.trans hserving) nofun

/-- Under the invariant the pulse outputs are a function of the output history (R31). -/
theorem OutputInvariant.actOut_eq {s t : State} (hs : OutputInvariant s) (ht : OutputInvariant t)
    (hcfg : t.cfg = s.cfg) (hhist : t.outHist = s.outHist) : t.actOut = s.actOut := by
  have hlen : t.actOut.length = s.cfg.nAct := by rw [ht.actLength, hcfg]
  refine List.ext_getElem? fun i => ?_
  by_cases hi : i < s.cfg.nAct
  · rw [ht.actLatest i (hcfg ▸ hi), hs.actLatest i hi, hhist]
  · rw [List.getElem?_eq_none (by omega), List.getElem?_eq_none (by rw [hs.actLength]; omega)]

/-- In FATAL every operation of the command path, the map and the table raises its Fault (R125, R128). -/
theorem exec_of_fatal {s : State} (hm : s.mode = .fatal) (answer : SerialAnswer) (f : Bool) (idx raw : Byte)
    (min max : Pulse) :
    exec (.serialStep answer) s = .next (raiseFault .mode s) ∧
    exec (.i2cStep f) s = .next (raiseFault .mode s) ∧
    exec (.mapRaw idx raw) s = .next (raiseFault .mode s) ∧
    exec (.calRd idx) s = .next (raiseFault .mode s) ∧
    exec (.calWr idx min max) s = .next (raiseFault .calLocked s) := by
  have hserving : s.mode ≠ .serving := by simp [hm]
  have hcal : s.mode ≠ .calibrating := by simp [hm]
  obtain ⟨hserial, -⟩ := serialStepTakesOneCommand s
  obtain ⟨hi2c, -⟩ := i2cStepTakesTheDrainedCommands s f [] []
  obtain ⟨hmap, -⟩ := mapReturnsScaledPulse s idx raw ⟨min, max⟩
  obtain ⟨-, hrd, -⟩ := calRdReturnsTheEntry s idx
  obtain ⟨hwr, -⟩ := calWrWritesOnlyTheReference s idx min max
  exact ⟨hserial answer hserving, hi2c hserving, hmap hm, hrd hm, hwr hcal⟩

/-- Settles O46: reset's mode by the table's length, the locked operations by `exec_of_fatal`, and the outputs by the
invariant, which a step keeps together with the mode. -/
theorem fatalModeLocksTheBlock : Obligations.FatalModeLocksTheBlock := by
  refine ⟨fun c d hne => ?_, fun s answer f idx raw min max hm => exec_of_fatal hm answer f idx raw min max,
    fun s t hs hm h => ?_⟩
  · have hmode : (State.resetWith c d).mode = .fatal := resetMode_of_ne hne
    exact ⟨hmode, decide_eq_true hmode, if_neg hne⟩
  · obtain ⟨hmode, hcfg⟩ := stepKeepsModeAndConfiguration s t h
    have ht : OutputInvariant t := stepKeepsOutputInvariant s t hs h
    have hfatal : t.mode = .fatal := hmode.trans hm
    have hhist : t.outHist = s.outHist := by rw [ht.outHist_of_fatal hfatal, hs.outHist_of_fatal hm]
    exact ⟨hfatal, hhist, hs.actOut_eq ht hcfg hhist⟩

/-! A Fault (R127). -/

/-- An operation that begins, and a MASTER's step, either takes a Fault and does nothing else, or leaves `FAULT`
alone (R127). -/
theorem Effect.fault_cases {s t : State} (h : Effect s t) : (∃ k, t = raiseFault k s) ∨ t.fault = s.fault := by
  cases h with
  | fault k => exact .inl ⟨k, rfl⟩
  | write v u hw => exact .inr hw.fault_eq
  | configure v u hw => exact .inr hw.fault_eq
  | answer a =>
    obtain ⟨c, out, hist, ha⟩ := takeAnswer_frame a s
    rw [ha]
    exact .inr rfl
  | _ => exact .inr rfl

/-- Once `FAULT` is set no agent has a step (R127). -/
theorem step_of_fault {s : State} {k : FaultKind} (hc : s.cfg.wf = true) (hf : s.fault = some k) :
    step s = .fault (.halted k) := by
  simp [step, hc, hf]

/-- Settles O47: an instruction that ends with `FAULT` newly set is one that took a Fault, by `Effect.fault_cases`. -/
theorem faultHasNoOtherEffectAndIsFinal : Obligations.FaultHasNoOtherEffectAndIsFinal := by
  refine ⟨fun i s t k hs h hk => ?_, fun s k k' =>
    ⟨fun hs => raiseFault_of_none hs k, fun hs => raiseFault_of_some hs k', fun hs hc => step_of_fault hc hs⟩⟩
  obtain ⟨k', rfl⟩ | hkeeps := (exec_effect h).fault_cases
  · rw [raiseFault_fault_of_none hs] at hk
    rw [raiseFault_of_none hs, hk]
  · rw [hkeeps, hs] at hk
    cases hk

end Sys2Proof.Machine
end
